-- ==== Sys2Proof/Word.lean ====
section
/-! DEFINITION. The word types of the block (00_scope.md R8): bytes, 16-bit addresses and checksums, 32-bit request words. -/

namespace Sys2Proof

/-- "A byte is an 8-bit unsigned value" (R8). -/
abbrev Byte := BitVec 8

/-- A 16-bit device address, checksum or operand. -/
abbrev Half := BitVec 16

/-- The 32-bit request word W and the response value V (R100, R105). -/
abbrev Word := BitVec 32

end Sys2Proof
end

