-- ==== Sys2Proof/Syntax.lean ====
section
/-! DEFINITION. The requests of the consumer contract (30_encoding.md R100 to R103): the raw request as a client issues it, the
opcode map's names, and the decoded request `Instr`, one constructor per row of spec/opcode_table.json. -/

namespace Sys2Proof

/-- A request as it stands on a client port (R100): the request word W and the operands A, L and D. -/
structure Request where
  w : Word
  a : Half
  l : Half
  d : List Byte
  deriving DecidableEq, Repr

/-- The twenty listed values of OP (R103), by mnemonic. -/
inductive Opcode where
  | getSize | getPageLength | getMaxPacket | getFlags | getExtraLen
  | read | write
  | readPage | readPageExtra | readPageCrc | readPageCrcExtra | readPagePacket | writePagePacket
  | setWriteVerify | setPowered | setCredRw | setCredRo | clearCreds
  | acquire | release
  deriving DecidableEq, Repr

/-- A decoded request. `cont` is the C bit, `b` is BANK, `a`, `p` and `l` are the operands A (offset or value), A (page) and L, `d`
is D. Operands an opcode does not use are ignored by the block (R102) and are not kept; L is not kept where decoding makes it
equal to |D| (R106). -/
inductive Instr where
  | getSize (b : Byte)
  | getPageLength (b : Byte)
  | getMaxPacket (b : Byte)
  | getFlags (b : Byte)
  | getExtraLen (b : Byte)
  | read (cont : Bool) (b : Byte) (a l : Half)
  | write (b : Byte) (a : Half) (d : List Byte)
  | readPage (cont : Bool) (b : Byte) (p : Half)
  | readPageExtra (cont : Bool) (b : Byte) (p : Half)
  | readPageCrc (cont : Bool) (b : Byte) (p : Half)
  | readPageCrcExtra (cont : Bool) (b : Byte) (p : Half)
  | readPagePacket (cont : Bool) (b : Byte) (p : Half)
  | writePagePacket (b : Byte) (p : Half) (d : List Byte)
  | setWriteVerify (b : Byte) (a : Half)
  | setPowered (b : Byte) (a : Half)
  | setCredRw (b : Byte) (d : List Byte)
  | setCredRo (b : Byte) (d : List Byte)
  | clearCreds (b : Byte)
  | acquire
  | release
  deriving DecidableEq, Repr

end Sys2Proof
end

