-- ==== Sys2Proof/WellFormed.lean ====
section
/-! DEFINITION. Which decoded requests have an encoding on a block of NB bank contexts (30_encoding.md R100, R106): the bank index
is below NB, and a data operand is at most 65535 bytes long, so that L can hold its length. -/

namespace Sys2Proof

/-- The bank a request names; ACQUIRE and RELEASE name none (R103, R106). -/
def Instr.bank? : Instr → Option Byte
  | .getSize b => some b
  | .getPageLength b => some b
  | .getMaxPacket b => some b
  | .getFlags b => some b
  | .getExtraLen b => some b
  | .read _ b _ _ => some b
  | .write b _ _ => some b
  | .readPage _ b _ => some b
  | .readPageExtra _ b _ => some b
  | .readPageCrc _ b _ => some b
  | .readPageCrcExtra _ b _ => some b
  | .readPagePacket _ b _ => some b
  | .writePagePacket b _ _ => some b
  | .setWriteVerify b _ => some b
  | .setPowered b _ => some b
  | .setCredRw b _ => some b
  | .setCredRo b _ => some b
  | .clearCreds b => some b
  | .acquire => none
  | .release => none

/-- The data operand of a request, empty where the opcode takes none (R103, D63). -/
def Instr.data : Instr → List Byte
  | .getSize _ => []
  | .getPageLength _ => []
  | .getMaxPacket _ => []
  | .getFlags _ => []
  | .getExtraLen _ => []
  | .read _ _ _ _ => []
  | .write _ _ d => d
  | .readPage _ _ _ => []
  | .readPageExtra _ _ _ => []
  | .readPageCrc _ _ _ => []
  | .readPageCrcExtra _ _ _ => []
  | .readPagePacket _ _ _ => []
  | .writePagePacket _ _ d => d
  | .setWriteVerify _ _ => []
  | .setPowered _ _ => []
  | .setCredRw _ d => d
  | .setCredRo _ d => d
  | .clearCreds _ => []
  | .acquire => []
  | .release => []

/-- `BANK < NB`, for the requests that name a bank (R106, last check). -/
def Instr.bankInRange (nb : Nat) (i : Instr) : Bool :=
  match i.bank? with
  | some b => b.toNat < nb
  | none => true

/-- `D` is "a byte sequence of length 0 to 65535" (R100). -/
def Instr.dataFits (i : Instr) : Bool := i.data.length < 65536

/-- A well-formed request of a block with `nb` bank contexts. -/
def Instr.wellFormed (nb : Nat) (i : Instr) : Bool := i.bankInRange nb && i.dataFits

end Sys2Proof
end

