-- ==== Sys2Proof/Decode.lean ====
section
/-! DEFINITION. Decoding and encoding of requests (30_encoding.md R101 to R107), total on every request, each rejection under a
name of its own. Every rejection is answered with UnsupportedOperation (R106). -/

namespace Sys2Proof

/-- Why a request is not decoded (R107). The block answers all of them alike. -/
inductive DecodeReject where
  | unlistedOpcode
  | reservedBits
  | continueNotAllowed
  | dataLengthMismatch
  | dataNotEmpty
  | bankOutOfRange
  deriving DecidableEq, Repr

/-- The value of OP for each opcode (R103). -/
def Opcode.code : Opcode → Byte
  | .getSize => 0x01
  | .getPageLength => 0x02
  | .getMaxPacket => 0x03
  | .getFlags => 0x04
  | .getExtraLen => 0x05
  | .read => 0x10
  | .write => 0x11
  | .readPage => 0x20
  | .readPageExtra => 0x21
  | .readPageCrc => 0x22
  | .readPageCrcExtra => 0x23
  | .readPagePacket => 0x24
  | .writePagePacket => 0x25
  | .setWriteVerify => 0x30
  | .setPowered => 0x31
  | .setCredRw => 0x32
  | .setCredRo => 0x33
  | .clearCreds => 0x34
  | .acquire => 0x40
  | .release => 0x41

/-- The opcodes, in the order of R103. -/
def Opcode.all : List Opcode :=
  [.getSize, .getPageLength, .getMaxPacket, .getFlags, .getExtraLen, .read, .write, .readPage, .readPageExtra, .readPageCrc,
   .readPageCrcExtra, .readPagePacket, .writePagePacket, .setWriteVerify, .setPowered, .setCredRw, .setCredRo, .clearCreds,
   .acquire, .release]

/-- The opcode of a value of OP; every unlisted value is reserved (R103). -/
def Opcode.ofCode (v : Byte) : Option Opcode := Opcode.all.find? (fun op => op.code == v)

/-- The column "C?" of R103. -/
def Opcode.takesContinue : Opcode → Bool
  | .read | .readPage | .readPageExtra | .readPageCrc | .readPageCrcExtra | .readPagePacket => true
  | _ => false

/-- The opcodes whose D has the length L (R106). -/
def Opcode.takesData : Opcode → Bool
  | .write | .writePagePacket | .setCredRw | .setCredRo => true
  | _ => false

/-- The opcodes that name a bank: all but ACQUIRE and RELEASE (R106). -/
def Opcode.namesBank : Opcode → Bool
  | .acquire | .release => false
  | _ => true

/-- The fields of the request word (R101). -/
def fieldOp (w : Word) : Byte := w.extractLsb' 0 8
def fieldC (w : Word) : Bool := w.getLsbD 8
def fieldReservedLow (w : Word) : BitVec 7 := w.extractLsb' 9 7
def fieldBank (w : Word) : Byte := w.extractLsb' 16 8
def fieldReservedHigh (w : Word) : Byte := w.extractLsb' 24 8

/-- The request word of an opcode, a C bit and a bank: `W = OP | (C << 8) | (BANK << 16)` (R108). -/
def requestWord (op : Opcode) (cont : Bool) (b : Byte) : Word :=
  op.code.setWidth 32 ||| ((BitVec.ofBool cont).setWidth 32 <<< 8) ||| (b.setWidth 32 <<< 16)

/-- The decoded request of an opcode and its operands. -/
def Opcode.build (op : Opcode) (cont : Bool) (b : Byte) (a l : Half) (d : List Byte) : Instr :=
  match op with
  | .getSize => .getSize b
  | .getPageLength => .getPageLength b
  | .getMaxPacket => .getMaxPacket b
  | .getFlags => .getFlags b
  | .getExtraLen => .getExtraLen b
  | .read => .read cont b a l
  | .write => .write b a d
  | .readPage => .readPage cont b a
  | .readPageExtra => .readPageExtra cont b a
  | .readPageCrc => .readPageCrc cont b a
  | .readPageCrcExtra => .readPageCrcExtra cont b a
  | .readPagePacket => .readPagePacket cont b a
  | .writePagePacket => .writePagePacket b a d
  | .setWriteVerify => .setWriteVerify b a
  | .setPowered => .setPowered b a
  | .setCredRw => .setCredRw b d
  | .setCredRo => .setCredRo b d
  | .clearCreds => .clearCreds b
  | .acquire => .acquire
  | .release => .release

/-- The decoding of R106, its checks in the order of that rule. -/
def decode (nb : Nat) (r : Request) : Except DecodeReject Instr :=
  match Opcode.ofCode (fieldOp r.w) with
  | none => .error .unlistedOpcode
  | some op =>
    if fieldReservedLow r.w ≠ 0 ∨ fieldReservedHigh r.w ≠ 0 then .error .reservedBits
    else if fieldC r.w ∧ ¬ op.takesContinue then .error .continueNotAllowed
    else if op.takesData ∧ r.d.length ≠ r.l.toNat then .error .dataLengthMismatch
    else if ¬ op.takesData ∧ r.d ≠ [] then .error .dataNotEmpty
    else if op.namesBank ∧ nb ≤ (fieldBank r.w).toNat then .error .bankOutOfRange
    else .ok (op.build (fieldC r.w) (fieldBank r.w) r.a r.l r.d)

/-- The opcode of a decoded request. -/
def Instr.opcode : Instr → Opcode
  | .getSize _ => .getSize
  | .getPageLength _ => .getPageLength
  | .getMaxPacket _ => .getMaxPacket
  | .getFlags _ => .getFlags
  | .getExtraLen _ => .getExtraLen
  | .read _ _ _ _ => .read
  | .write _ _ _ => .write
  | .readPage _ _ _ => .readPage
  | .readPageExtra _ _ _ => .readPageExtra
  | .readPageCrc _ _ _ => .readPageCrc
  | .readPageCrcExtra _ _ _ => .readPageCrcExtra
  | .readPagePacket _ _ _ => .readPagePacket
  | .writePagePacket _ _ _ => .writePagePacket
  | .setWriteVerify _ _ => .setWriteVerify
  | .setPowered _ _ => .setPowered
  | .setCredRw _ _ => .setCredRw
  | .setCredRo _ _ => .setCredRo
  | .clearCreds _ => .clearCreds
  | .acquire => .acquire
  | .release => .release

/-- A request with a data operand: L is its length (R106). -/
def dataRequest (op : Opcode) (b : Byte) (a : Half) (d : List Byte) : Request :=
  ⟨requestWord op false b, a, BitVec.ofNat 16 d.length, d⟩

/-- A request without a data operand. -/
def plainRequest (op : Opcode) (cont : Bool) (b : Byte) (a l : Half) : Request :=
  ⟨requestWord op cont b, a, l, []⟩

/-- The request a client issues for a decoded request (R101 to R103, R108): ignored operands and ignored BANK fields are 0. -/
def encode : Instr → Request
  | .getSize b => plainRequest .getSize false b 0 0
  | .getPageLength b => plainRequest .getPageLength false b 0 0
  | .getMaxPacket b => plainRequest .getMaxPacket false b 0 0
  | .getFlags b => plainRequest .getFlags false b 0 0
  | .getExtraLen b => plainRequest .getExtraLen false b 0 0
  | .read c b a l => plainRequest .read c b a l
  | .write b a d => dataRequest .write b a d
  | .readPage c b p => plainRequest .readPage c b p 0
  | .readPageExtra c b p => plainRequest .readPageExtra c b p 0
  | .readPageCrc c b p => plainRequest .readPageCrc c b p 0
  | .readPageCrcExtra c b p => plainRequest .readPageCrcExtra c b p 0
  | .readPagePacket c b p => plainRequest .readPagePacket c b p 0
  | .writePagePacket b p d => dataRequest .writePagePacket b p d
  | .setWriteVerify b a => plainRequest .setWriteVerify false b a 0
  | .setPowered b a => plainRequest .setPowered false b a 0
  | .setCredRw b d => dataRequest .setCredRw b 0 d
  | .setCredRo b d => dataRequest .setCredRo b 0 d
  | .clearCreds b => plainRequest .clearCreds false b 0 0
  | .acquire => plainRequest .acquire false 0 0 0
  | .release => plainRequest .release false 0 0 0

/-- The bytes of a number, least significant first. -/
def bytesOfNat : Nat → Nat → List Byte
  | 0, _ => []
  | n + 1, v => BitVec.ofNat 8 v :: bytesOfNat n (v / 256)

/-- The request whose bits are numbered from bit 0 of W: W in bits 31 to 0, A in 47 to 32, L in 63 to 48, the bytes of D from
bit 64 on. Bits at `nbits` and above are 0. DESIGN CHOICE (log 22): the table numbers W only. -/
def requestOfBits (nbits w : Nat) : Request :=
  let v := w % 2 ^ nbits
  ⟨BitVec.ofNat 32 v, BitVec.ofNat 16 (v / 2 ^ 32), BitVec.ofNat 16 (v / 2 ^ 48), bytesOfNat ((nbits - 64) / 8) (v / 2 ^ 64)⟩

/-- The instruction the decoder reads from a table word, on a block with all 256 bank contexts (BANK is never part of a row's
mask, R104). -/
def decodeTableWord (nbits w : Nat) : Option Instr :=
  match decode 256 (requestOfBits nbits w) with
  | .ok i => some i
  | .error _ => none

end Sys2Proof
end

