-- ==== Sys2Proof/Config.lean ====
section
/-! DEFINITION. The implementation parameters of the block (00_scope.md R6) as plain data, and the free values. What is computed
from the parameters (MAX_PACKET, NUM_PAGES, the checks of R7, the checksum) is in Machine/Params.lean and Machine/Bytes.lean. -/

namespace Sys2Proof

/-- STRATEGY, 3 bits (10_state.md R33). Values 4 (register bank) to 7 are reserved and never admitted (R7 W10). -/
inductive Strategy where
  | plain
  | crc
  | password
  | scratchpad
  | reserved (value : Nat)
  deriving DecidableEq, Repr

/-- A value of the opaque type `Speed` (D39): the block passes it on unchanged. DESIGN CHOICE (log 9), safe. -/
structure Speed where
  id : Nat
  deriving DecidableEq, Repr

/-- A value of the opaque type `DevAddr` (D39). DESIGN CHOICE (log 9), safe. -/
structure DevAddr where
  id : Nat
  deriving DecidableEq, Repr

/-- An opaque duration (D52): a lower bound of a wait. DESIGN CHOICE (log 9), safe. -/
structure Duration where
  id : Nat
  deriving DecidableEq, Repr

/-- Which function the configuration's `crc16` is (R6, R9, D53): the reference function of R9, or a function of which nothing is
known (log 7). -/
inductive Checksum where
  | reference
  | uninterpreted
  deriving DecidableEq, Repr

/-- The configuration registers of one bank context (10_state.md R31), the derived MAX_PACKET left out. -/
structure BankConfig where
  strategy : Strategy
  size : Nat
  pageLength : Nat
  startPhys : Nat
  flags : BitVec 9
  extraLen : Nat
  nvb : Nat
  hasNativeRead : Bool
  echoWrite : Bool
  hasRecall : Bool
  cmdRead : Byte
  cmdReadCrc : Byte
  cmdWrite : Byte
  cmdWriteSp : Byte
  cmdReadSp : Byte
  cmdCopySp : Byte
  cmdRecall : Byte
  desiredSpeed : Speed
  devAddr : DevAddr
  packetSeedOffset : Half
  contSeed : Half
  /-- ECHO_SEED where it differs from the default identity (D15): address and seed. DESIGN CHOICE (log 8), safe. -/
  echoSeedTable : List (Half × Half)
  spMetaLen : Nat
  pwLen : Nat
  pwPoweredVerifyBytes : Nat
  tPwSettle : Duration
  tCopy : Duration
  deriving DecidableEq, Repr

/-- The whole configuration (R6). NB is the number of bank configurations (log 18). -/
structure BlockConfig where
  canPower : Bool
  crc : Checksum
  clients : Nat
  banks : List BankConfig
  deriving DecidableEq, Repr

/-- The uninterpreted `crc16` (R9, D53). A claim assumes of it the residue law (R10), checksum rejection or page binding (42_crc_bank.md
R216 (2), (3)), each under its name: `ResidueLawOf`, `BitFlipLawOf`, `SeedBindingLawOf` of Machine/Bytes.lean. No other property of it
may be used. -/
opaque Config.crc16 : Half → List Byte → Half

/-- Free value: whether the n-th free transport answer is a success (true) or `Fail` (R140, I10). -/
opaque Config.freeOk : Nat → Bool

/-- Free value: what the n-th free `select` or `is_present` answers (R141, R146, I10). -/
opaque Config.freeTruth : Nat → Bool

/-- Free value: byte i of the n-th free answer (R142, R144, I10). -/
opaque Config.freeByte : Nat → Nat → Byte

/-- Free value: byte i of a credential register whose contents are unspecified (R37, R257, I8). -/
opaque Config.freeCredByte : Nat → Nat → Byte

/-- Free value: the one-byte length field of a packet of more than 255 bytes, for which no rule states a value (R113; log 13). -/
opaque Config.freeLength : Nat → Byte

/-- Free value: the scheduler's choice, an eligible client or none (R329, R331 (3), I14). -/
opaque Config.freeChoice : Nat → Nat

end Sys2Proof
end

