-- ==== Sys2Proof/Machine/Bytes.lean ====
section
/-! DEFINITION. Byte order, filler and the checksum (00_scope.md R8 to R10, 20_memory.md R73, R74). -/

namespace Sys2Proof.Machine

/-- `lo(x) = x[7:0]` (R8). -/
def lo (x : Half) : Byte := x.extractLsb' 0 8

/-- `hi(x) = x[15:8]` (R8). -/
def hi (x : Half) : Byte := x.extractLsb' 8 8

/-- A 16-bit value as it is sent, low byte first (R73, R74). -/
def leBytes (x : Half) : List Byte := [lo x, hi x]

/-- `FF^n`: n filler bytes (R8, R410). -/
def filler (n : Nat) : List Byte := List.replicate n 0xFF#8

/-- `bs[i .. i + n)` (R8). -/
def slice (bs : List Byte) (i n : Nat) : List Byte := (bs.drop i).take n

/-- One shift of the reference checksum (R9). -/
def crcShift (c : Half) : Half := if c.getLsbD 0 then (c >>> 1) ^^^ 0xA001#16 else c >>> 1

/-- `f` of R9: eight shifts. -/
def crcByte (c : Half) : Half :=
  crcShift (crcShift (crcShift (crcShift (crcShift (crcShift (crcShift (crcShift c)))))))

/-- The reference `crc16` (R9): reflected polynomial 0xA001. PRESUMED: general knowledge, not in the source (log 7). -/
def crc16Reference : Half → List Byte → Half
  | s, [] => s
  | s, b :: bs => crc16Reference (crcByte (s ^^^ b.setWidth 16)) bs

/-- One shift of the reference `crc8` (R9). -/
def crc8Shift (c : Byte) : Byte := if c.getLsbD 0 then (c >>> 1) ^^^ 0x8C#8 else c >>> 1

/-- The reference `crc8` (R9, D53). No request uses it. -/
def crc8Reference : Byte → List Byte → Byte
  | s, [] => s
  | s, b :: bs =>
    crc8Reference (crc8Shift (crc8Shift (crc8Shift (crc8Shift (crc8Shift (crc8Shift (crc8Shift (crc8Shift (s ^^^ b))))))))) bs

/-- The configuration's `crc16` (R6, R9). -/
def crc16 (f : Checksum) (seed : Half) (bs : List Byte) : Half :=
  match f with
  | .reference => crc16Reference seed bs
  | .uninterpreted => Config.crc16 seed bs

/-- The valid residue (R10). -/
def validResidue : Half := 0xB001#16

/-- A checksum over received bytes is valid iff it is the residue (R10). -/
def crcValid (f : Checksum) (seed : Half) (bs : List Byte) : Bool := crc16 f seed bs == validResidue

/-- The two check bytes a sender appends: `lo(~c)`, `hi(~c)` (R10). -/
def checkBytes (f : Checksum) (seed : Half) (bs : List Byte) : List Byte := leBytes (~~~ crc16 f seed bs)

/-! The named properties of a configuration's `crc16` (R10, 42_crc_bank.md R216, 93_implementation_defined.md I16). The reference
function has all three; of the uninterpreted one a claim that needs one assumes it by its name, and may assume nothing else (log 7). -/

/-- The residue law (R10): bytes with the complement of their checksum appended, low byte first, give the residue, for every seed. -/
def ResidueLawOf (f : Checksum) : Prop :=
  ∀ (seed : Half) (bs : List Byte), crc16 f seed (bs ++ [lo (~~~ crc16 f seed bs), hi (~~~ crc16 f seed bs)]) = 0xB001#16

/-- Bit n of byte j flipped. -/
def flipBit (bs : List Byte) (j n : Nat) : List Byte := bs.modify j (fun b => b ^^^ (1#8 <<< n))

/-- Checksum rejection (R216 (2)): bytes that give the residue no longer do after any single bit of them is flipped. -/
def BitFlipLawOf (f : Checksum) : Prop :=
  ∀ (seed : Half) (bs : List Byte) (j n : Nat), j < bs.length → n < 8 →
    crc16 f seed bs = 0xB001#16 → crc16 f seed (flipBit bs j n) ≠ 0xB001#16

/-- Page binding (R216 (3)): bytes that give the residue from one seed do not from another. It follows where `crc16` is injective in
the seed. -/
def SeedBindingLawOf (f : Checksum) : Prop :=
  ∀ (s t : Half) (bs : List Byte), s ≠ t → crc16 f s bs = 0xB001#16 → crc16 f t bs ≠ 0xB001#16

end Sys2Proof.Machine
end

