-- ==== Sys2Proof/Machine/Params.lean ====
section
/-! DEFINITION. What the configuration registers give: capability flags (10_state.md R32), derived values and well-formedness of a
configuration (00_scope.md R6, R7). -/

namespace Sys2Proof.Machine

/-- FLAGS bits 0 to 8 (R32). -/
def generalPurpose (k : BankConfig) : Bool := k.flags.getLsbD 0
def readWrite (k : BankConfig) : Bool := k.flags.getLsbD 1
def writeOnce (k : BankConfig) : Bool := k.flags.getLsbD 2
def readOnly (k : BankConfig) : Bool := k.flags.getLsbD 3
def nonVolatile (k : BankConfig) : Bool := k.flags.getLsbD 4
def needsProgramPulse (k : BankConfig) : Bool := k.flags.getLsbD 5
def needsPowerDelivery (k : BankConfig) : Bool := k.flags.getLsbD 6
def hasPageAutoCrc (k : BankConfig) : Bool := k.flags.getLsbD 7
def hasExtraInfo (k : BankConfig) : Bool := k.flags.getLsbD 8

/-- STRATEGY in {CRC, PASSWORD}: the banks with CRC page reads and packets (R7 W2, W5; D40). -/
def crcStrategy (k : BankConfig) : Bool := k.strategy == .crc || k.strategy == .password

/-- The 3-bit value of STRATEGY (R33). -/
def strategyCode : Strategy → Nat
  | .plain => 0
  | .crc => 1
  | .password => 2
  | .scratchpad => 3
  | .reserved v => v

/-- `NUM_PAGES = SIZE / PAGE_LENGTH` (R6, D7). -/
def numPages (k : BankConfig) : Nat := k.size / k.pageLength

/-- `MAX_PACKET` (R6): the subtraction stops at 0, which is the clamp for the banks without packets, and W2 keeps it exact for the
others. -/
def maxPacket (k : BankConfig) : Nat := k.pageLength - (3 + k.extraLen)

/-- `ECHO_SEED(a)` (R6, D15): the table's entry, or the default, the address itself. -/
def echoSeed (k : BankConfig) (a : Half) : Half :=
  match k.echoSeedTable.lookup a with
  | some s => s
  | none => a

/-- The types and ranges of the table of R6. -/
def rangesOk (k : BankConfig) : Bool :=
  decide (1 ≤ k.size) && decide (k.size ≤ 65536) && decide (1 ≤ k.pageLength) && decide (k.pageLength ≤ k.size) &&
  decide (k.startPhys ≤ 65535) && decide (k.extraLen ≤ 255) && decide (k.nvb ≤ 255) &&
  decide (1 ≤ k.spMetaLen) && decide (k.spMetaLen ≤ 255) && decide (1 ≤ k.pwLen) && decide (k.pwLen ≤ 255) &&
  decide (k.pwPoweredVerifyBytes ≤ 255)

/-- W1 of R7. -/
def checkW1 (k : BankConfig) : Bool :=
  decide (1 ≤ k.size) && decide (1 ≤ k.pageLength) && decide (k.size % k.pageLength = 0) &&
  decide (k.startPhys + k.size ≤ 65536)

/-- W2 of R7. -/
def checkW2 (k : BankConfig) : Bool := !crcStrategy k || decide (3 + k.extraLen ≤ k.pageLength)

/-- W3 of R7. -/
def checkW3 (k : BankConfig) : Bool := !readOnly k || (!readWrite k && !writeOnce k)

/-- W4 of R7. -/
def checkW4 (k : BankConfig) : Bool :=
  if hasExtraInfo k then crcStrategy k && decide (1 ≤ k.extraLen) else decide (k.extraLen = 0)

/-- W5 of R7. -/
def checkW5 (k : BankConfig) : Bool := hasPageAutoCrc k == crcStrategy k

/-- W6 of R7. -/
def checkW6 (k : BankConfig) : Bool := !(k.strategy == .plain) || k.hasNativeRead

/-- W7 of R7. -/
def checkW7 (k : BankConfig) : Bool := !(k.strategy == .scratchpad) || (!k.echoWrite && decide (1 ≤ k.spMetaLen))

/-- W8 of R7. -/
def checkW8 (k : BankConfig) : Bool := !(k.strategy == .password) || decide (1 ≤ k.pwLen)

/-- W9 of R7. -/
def checkW9 (k : BankConfig) : Bool := !needsProgramPulse k || k.echoWrite

/-- W10 of R7, and the reserved values 5 to 7 of R33. -/
def checkW10 (k : BankConfig) : Bool :=
  match k.strategy with
  | .reserved _ => false
  | _ => true

/-- A bank configuration is admitted iff every range of R6 and every check of R7 holds. -/
def bankAdmitted (k : BankConfig) : Bool :=
  rangesOk k && checkW1 k && checkW2 k && checkW3 k && checkW4 k && checkW5 k && checkW6 k && checkW7 k && checkW8 k &&
  checkW9 k && checkW10 k

/-- A configuration is admitted iff NB and NC are in range (R6) and every bank's is. -/
def configAdmitted (nb nc : Nat) (banks : List BankConfig) : Bool :=
  decide (1 ≤ nb) && decide (nb ≤ 256) && decide (1 ≤ nc) && banks.all bankAdmitted

end Sys2Proof.Machine
end

