-- ==== Sys2Proof/Machine/ExampleConfig.lean ====
section
/-! DEFINITION. The example configuration of 95_test_vectors.md sections 1.1 and 1.2, which `State.reset` is constructed with.
DESIGN CHOICE (log 6): the spec gives no other concrete configuration. -/

namespace Sys2Proof.Machine

/-- The values every bank of the example shares (95, section 1.1), on a PLAIN bank of one byte. -/
def exampleBank : BankConfig where
  strategy := .plain
  size := 1
  pageLength := 1
  startPhys := 0
  flags := 0
  extraLen := 0
  nvb := 0
  hasNativeRead := false
  echoWrite := false
  hasRecall := false
  cmdRead := 0
  cmdReadCrc := 0
  cmdWrite := 0
  cmdWriteSp := 0
  cmdReadSp := 0
  cmdCopySp := 0
  cmdRecall := 0
  desiredSpeed := ⟨0⟩
  devAddr := ⟨0⟩
  packetSeedOffset := 0
  contSeed := 0
  echoSeedTable := []
  spMetaLen := 3
  pwLen := 8
  pwPoweredVerifyBytes := 0
  tPwSettle := ⟨0⟩
  tCopy := ⟨1⟩

/-- b0: CRC. -/
def exampleB0 : BankConfig :=
  { exampleBank with
    strategy := .crc, size := 128, pageLength := 32, flags := 0x093, cmdReadCrc := 0xA5, cmdWrite := 0x0F, devAddr := ⟨0⟩ }

/-- b1: PLAIN. -/
def exampleB1 : BankConfig :=
  { exampleBank with
    strategy := .plain, size := 16, pageLength := 16, flags := 0x013, cmdRead := 0xF0, cmdWrite := 0x0F, hasNativeRead := true,
    devAddr := ⟨1⟩ }

/-- b2: PASSWORD. -/
def exampleB2 : BankConfig :=
  { exampleBank with
    strategy := .password, size := 64, pageLength := 32, flags := 0x093, cmdReadCrc := 0x69, cmdWrite := 0x99, devAddr := ⟨2⟩ }

/-- b3: SCRATCHPAD. -/
def exampleB3 : BankConfig :=
  { exampleBank with
    strategy := .scratchpad, size := 64, pageLength := 32, flags := 0x053, cmdWriteSp := 0x0F, cmdReadSp := 0xAA,
    cmdCopySp := 0x55, hasRecall := true, cmdRecall := 0xB8, devAddr := ⟨3⟩ }

/-- b4: CRC with extra info, read only. -/
def exampleB4 : BankConfig :=
  { exampleBank with
    strategy := .crc, size := 64, pageLength := 32, extraLen := 1, flags := 0x199, cmdReadCrc := 0xC3, devAddr := ⟨4⟩ }

/-- b5: CRC with echo writes and a program pulse. -/
def exampleB5 : BankConfig :=
  { exampleBank with
    strategy := .crc, size := 64, pageLength := 32, flags := 0x0B5, cmdReadCrc := 0xC3, cmdWrite := 0x0F, echoWrite := true,
    devAddr := ⟨5⟩ }

/-- NB = 6, NC = 2, CAN_POWER = 1, the reference `crc16` (95, section 1.1 and the head of section 3.1). -/
def exampleConfig : BlockConfig where
  canPower := true
  crc := .reference
  clients := 2
  banks := [exampleB0, exampleB1, exampleB2, exampleB3, exampleB4, exampleB5]

end Sys2Proof.Machine
end

