-- ==== Sys2Proof/Machine/State.lean ====
section
/-! DEFINITION. The state of the block (10_state.md), as plain data, its reset (70_reset_and_hazards.md R400, R401), and the
reasons for which the model stops. -/

namespace Sys2Proof.Machine

/-- `SPEED_STATE` (R34): STALE means "needs renegotiation". -/
inductive SpeedState where
  | stale
  | verified
  deriving DecidableEq, Repr

/-- One bank context: its configuration registers (R31) and its runtime registers (R34 to R37). -/
structure Bank where
  cfg : BankConfig
  speed : SpeedState
  writeVerify : Bool
  powered : Bool
  credRw : List Byte
  credRo : List Byte
  credRwValid : Bool
  credRoValid : Bool
  deriving DecidableEq, Repr

/-- The mode of the continuation pointer (R39): PAGE after CRC page reads, BYTE after native reads. -/
inductive ContMode where
  | page
  | byte
  deriving DecidableEq, Repr

/-- The tuple `(c, b, mode, off)` of `CONT_PTR` (R39). -/
structure ContPtr where
  client : Nat
  bank : Nat
  mode : ContMode
  off : Nat
  deriving DecidableEq, Repr

/-- The error codes of a response other than OK (60_exceptions.md R360). -/
inductive Err where
  | deviceNotPresent
  | checksumMismatch
  | echoMismatch
  | invalidPacketLength
  | outOfRange
  | unsupportedOperation
  | scratchpadVerifyFailed
  | copyNotConfirmed
  deriving DecidableEq, Repr

/-- A response (30_encoding.md R105): STATUS, the value V, the result data R and the extra info X. -/
structure Response where
  status : Byte
  v : Word
  r : List Byte
  x : List Byte
  deriving DecidableEq, Repr

/-- A client port (R43): `PENDING[c]` and `RESP[c]`. -/
structure Port where
  pending : Option Request
  resp : Option Response
  deriving DecidableEq, Repr

/-- `ENGINE` (R41): IDLE, or BUSY(c, req, k). k counts the transcript events of the request so far (DEDUCED, log 21). -/
inductive Engine where
  | idle
  | busy (c : Nat) (req : Request) (k : Nat)
  deriving DecidableEq, Repr

/-- The condition of `T.power_start` (40_transport_speed.md R147): the block passes this one only. -/
inductive PowerCondition where
  | afterNextByte
  deriving DecidableEq, Repr

/-- A transport call and its arguments (R141 to R148). -/
inductive Call where
  | select (addr : DevAddr)
  | exchange (bs : List Byte)
  | put (b : Byte)
  | get
  | setSpeed (s : Speed)
  | isPresent (addr : DevAddr)
  | powerDuration (t : Duration)
  | powerStart (cond : PowerCondition)
  | powerNormal
  | programPulse
  deriving DecidableEq, Repr

/-- A transport answer: `Ok`, `Fail`, `true` or `false`, `Ok(rs)` of an exchange, `Ok(byte)` of a get (R141 to R148). -/
inductive Answer where
  | ok
  | fail
  | truth (t : Bool)
  | bytes (rs : List Byte)
  | byte (b : Byte)
  deriving DecidableEq, Repr

/-- An event of the transcript: a call with its answer, or a hold with its lower bound (R140, R149). -/
inductive Event where
  | call (c : Call) (a : Answer)
  | hold (t : Duration)
  deriving DecidableEq, Repr

/-- A move between requests: client c issues a request, client c consumes its response (R43), or the engine takes client c's
request (R329). -/
inductive Move where
  | issue (c : Nat) (req : Request)
  | consume (c : Nat)
  | take (c : Nat)
  deriving DecidableEq, Repr

/-- The whole state. `answers`, `schedule`, `draws` and `transcript` are the model's own fields (INVENTORY.md). -/
structure State where
  /-- CAN_POWER (R6, D17). -/
  canPower : Bool
  /-- Which function `crc16` is (R6, R9). -/
  crc : Checksum
  /-- The NB bank contexts (R31 to R37). -/
  banks : List Bank
  /-- The NC client ports (R43). -/
  ports : List Port
  /-- OWNER (R38). -/
  owner : Option Nat
  /-- CONT_PTR (R39). -/
  contPtr : Option ContPtr
  /-- HAZARD (R40). -/
  hazard : Bool
  /-- ENGINE (R41). -/
  engine : Engine
  /-- The request-local `pwr_active` (R42, R150). -/
  pwrActive : Bool
  /-- The transport events of the run, oldest first (R12, R140). -/
  transcript : List Event
  /-- The transport's answers still to come (R140). -/
  answers : List Answer
  /-- The moves of clients and scheduler still to come (R43, R329). -/
  schedule : List Move
  /-- How many free values have been drawn. -/
  draws : Nat
  deriving DecidableEq, Repr

/-- Why the machine stops. Both are the model's own and safe: no step from reset leads to either (log 15). -/
inductive Fault where
  /-- Raised by a meaning when ENGINE is IDLE: no client has a request running. Safe. -/
  | noRequest
  /-- Raised by `step` in a state BUSY(c, req, k) with k > 0: a step runs a request from its start only. Safe. -/
  | midRequest
  deriving DecidableEq, Repr

/-- Why the model refuses. -/
inductive Refusal where
  /-- Raised by `exec` for an instruction that has no meaning yet. Safe. -/
  | notModelled (mnemonic : String)
  /-- Raised by `step` when the configuration fails a check of R7: "A model refuses any other configuration". Safe. -/
  | configNotAdmitted
  deriving DecidableEq, Repr

/-- A bank context right after construction (R34 to R37, R401). The credential contents, "unspecified" in the spec, are zero
bytes: DESIGN CHOICE (log 10), unsafe. -/
def Bank.reset (k : BankConfig) : Bank where
  cfg := k
  speed := .stale
  writeVerify := true
  powered := false
  credRw := List.replicate k.pwLen 0
  credRo := List.replicate k.pwLen 0
  credRwValid := false
  credRoValid := false

/-- The block right after construction with a configuration (R400, R401, R403). -/
def State.resetWith (cfg : BlockConfig) : State where
  canPower := cfg.canPower
  crc := cfg.crc
  banks := cfg.banks.map Bank.reset
  ports := List.replicate cfg.clients ⟨none, none⟩
  owner := none
  contPtr := none
  hazard := false
  engine := .idle
  pwrActive := false
  transcript := []
  answers := []
  schedule := []
  draws := 0

/-- The block right after construction with the example configuration (log 6). -/
def State.reset : State := State.resetWith exampleConfig

end Sys2Proof.Machine
end

