-- ==== Sys2Proof/Machine/Flags.lean ====
section
/-! DEFINITION. STATUS, the block's only flags (10_state.md R47): the code of an error (60_exceptions.md R360), the credential hint
(43_password_bank.md R254) and the responses built from them (30_encoding.md R105). -/

namespace Sys2Proof.Machine

/-- The code of an error, STATUS bits [3:0] (R360). -/
def errCode : Err → Byte
  | .deviceNotPresent => 1
  | .checksumMismatch => 2
  | .echoMismatch => 3
  | .invalidPacketLength => 4
  | .outOfRange => 5
  | .unsupportedOperation => 6
  | .scratchpadVerifyFailed => 7
  | .copyNotConfirmed => 8

/-- The bus-phase failures (R361 (2), R362); the others are precondition failures. -/
def busPhase : Err → Bool
  | .outOfRange | .unsupportedOperation => false
  | _ => true

/-- The integrity failures, which carry the hint on a PASSWORD bank (R254). -/
def integrityFailure : Err → Bool
  | .checksumMismatch | .echoMismatch | .invalidPacketLength => true
  | _ => false

/-- `HINT(b, E)` (R254); `b` is the request's bank, if it has one. -/
def credHint (b : Option Bank) (e : Err) : Bool :=
  match b with
  | some k => k.cfg.strategy == .password && integrityFailure e
  | none => false

/-- `STATUS <- code(E) | (HINT << 4)` (R362). -/
def statusOf (e : Err) (hint : Bool) : Byte := errCode e ||| ((BitVec.ofBool hint).setWidth 8 <<< 4)

/-- "On an error, V = 0 and R and X are empty" (R105). -/
def errResponse (e : Err) (hint : Bool) : Response := ⟨statusOf e hint, 0, [], []⟩

/-- `respond(OK, V, R, X)` (R8, R105): the code of OK is 0. -/
def okResponse (v : Word) (r x : List Byte) : Response := ⟨0, v, r, x⟩

end Sys2Proof.Machine
end

