-- ==== Sys2Proof/Machine/Operands.lean ====
section
/-! DEFINITION. Operand forms: address formation (20_memory.md R72), the 1-bit value A[0] (30_encoding.md R102), the packet seed
(42_crc_bank.md R211), and what a bank context's registers say of a request on it (43_password_bank.md R250, R252, R253). -/

namespace Sys2Proof.Machine

/-- `phys(b, o) = START_PHYS + o` (R72), below 65536 by W1 wherever a rule forms it. -/
def phys (k : BankConfig) (o : Nat) : Half := BitVec.ofNat 16 (k.startPhys + o)

/-- `p * PAGE_LENGTH` (R71, R72). -/
def pageOffset (k : BankConfig) (p : Nat) : Nat := p * k.pageLength

/-- The first and the number of the pages that cover `[o, o + n)`, n >= 1 (R210, R287). -/
def firstPage (k : BankConfig) (o : Nat) : Nat := o / k.pageLength
def lastPage (k : BankConfig) (o n : Nat) : Nat := (o + n - 1) / k.pageLength
def coveringPages (k : BankConfig) (o n : Nat) : List Nat :=
  List.range' (firstPage k o) (lastPage k o n + 1 - firstPage k o)

/-- `A[0]` and the condition `A[15:1] = 0` (R102, D62). -/
def bitOperand (a : Half) : Bool := a.getLsbD 0
def bitOperandOk (a : Half) : Bool := a.extractLsb' 1 15 == 0

/-- `PSEED(b, p) = (p + PACKET_SEED_OFFSET) mod 65536` (R211). -/
def packetSeed (k : BankConfig) (p : Nat) : Half := BitVec.ofNat 16 p + k.packetSeedOffset

/-- `CRED_NONE(b)` (R250). -/
def credNone (k : Bank) : Bool := !k.credRwValid && !k.credRoValid

/-- `CRED(b)` (R250): the read-write credential while it is valid, else the read-only one. -/
def cred (k : Bank) : List Byte := if k.credRwValid then k.credRw else k.credRo

/-- `POWERED_MODE(b)` (R252). -/
def poweredMode (k : Bank) : Bool := k.cfg.strategy == .password && k.powered

/-- `VB(b, cont)` (R253). -/
def verifyBytes (k : Bank) (cont : Bool) : Nat :=
  if poweredMode k && !cont then k.cfg.pwPoweredVerifyBytes else k.cfg.nvb

/-- `SEEDBYTES(cmd, a)` (41_plain_bank.md R170). -/
def seedBytes (cmd : Byte) (a : Half) : List Byte := [cmd, lo a, hi a]

/-- `PREFIX(b, cmd, a)` (R170, R251): the credential follows the address on PASSWORD banks. -/
def framePrefix (k : Bank) (cmd : Byte) (a : Half) : List Byte :=
  if k.cfg.strategy = .password then seedBytes cmd a ++ cred k else seedBytes cmd a

/-- The checked length of a CRC page read's data phase (R200, R202). -/
def checkedLength (k : BankConfig) : Nat := k.pageLength + k.extraLen + 2

/-- The seed of a CRC page read (R201). -/
def pageSeed (f : Checksum) (k : BankConfig) (p : Nat) (cont : Bool) : Half :=
  if cont then k.contSeed else crc16 f 0 (seedBytes k.cmdReadCrc (phys k (pageOffset k p)))

/-- The one-byte length field of a packet of n bytes (30_encoding.md R113). A packet of more than 255 bytes has a length no byte
holds and no rule says what is sent: a free value, DESIGN CHOICE (log 13), safe. -/
def lengthByte (draw n : Nat) : Byte := if n < 256 then BitVec.ofNat 8 n else Config.freeLength draw

/-- `PKT_ENCODE(b, p, payload)` (R214). -/
def packetEncode (f : Checksum) (k : BankConfig) (p draw : Nat) (payload : List Byte) : List Byte :=
  let body := lengthByte draw payload.length :: payload
  body ++ checkBytes f (packetSeed k p) body

/-- `PKT_DECODE(b, p, data)` (R215): the length check comes first. -/
def packetDecode (f : Checksum) (k : BankConfig) (p : Nat) (data : List Byte) : Except Err (List Byte × Nat) :=
  let n := (data.headD 0).toNat
  if maxPacket k < n then .error .invalidPacketLength
  else if crcValid f (packetSeed k p) (slice data 0 (n + 3)) then .ok (slice data 1 n, n)
  else .error .checksumMismatch

/-- `SEGMENTS(b, o, d)` (44_scratchpad_commit.md R280): `fuel` bounds the number of segments. -/
def segmentsFrom (pl : Nat) : Nat → Nat → List Byte → List (Nat × List Byte)
  | 0, _, _ => []
  | _ + 1, _, [] => []
  | fuel + 1, q, x :: xs =>
    let k := min (x :: xs).length (pl - q % pl)
    (q, (x :: xs).take k) :: segmentsFrom pl fuel (q + k) ((x :: xs).drop k)

/-- `SEGMENTS(b, o, d)` (R280). -/
def segments (k : BankConfig) (o : Nat) (d : List Byte) : List (Nat × List Byte) := segmentsFrom k.pageLength d.length o d

/-- The compare of `COMPARE_SP` (R283): scratchpad byte j stands for page offset j (D24). -/
def scratchpadMatches (k : BankConfig) (q : Nat) (ds sp : List Byte) : Bool := slice sp (q % k.pageLength) ds.length == ds

end Sys2Proof.Machine
end

