-- ==== Sys2Proof/Machine/Update.lean ====
section
/-! DEFINITION. The accessors and updates of State: every read and write of a register goes through these (10_state.md). -/

namespace Sys2Proof.Machine

/-- NB (00_scope.md R6). -/
def State.nb (s : State) : Nat := s.banks.length

/-- NC (00_scope.md R6). -/
def State.nc (s : State) : Nat := s.ports.length

/-- Bank context b, if `b < NB`. -/
def State.bank? (s : State) (b : Nat) : Option Bank := s.banks[b]?

/-- Client port c, if `c < NC`. -/
def State.port? (s : State) (c : Nat) : Option Port := s.ports[c]?

/-- Write registers of bank context b. -/
def State.updateBank (s : State) (b : Nat) (f : Bank → Bank) : State := { s with banks := s.banks.modify b f }

/-- Write client port c. -/
def State.updatePort (s : State) (c : Nat) (f : Port → Port) : State := { s with ports := s.ports.modify c f }

/-- `SPEED_STATE[b] <- v` (R34). -/
def State.setSpeed (s : State) (b : Nat) (v : SpeedState) : State := s.updateBank b (fun k => { k with speed := v })

/-- `CONT_PTR <- v` (R39). -/
def State.setCont (s : State) (v : Option ContPtr) : State := { s with contPtr := v }

/-- `OWNER <- v` (R38). -/
def State.setOwner (s : State) (v : Option Nat) : State := { s with owner := v }

/-- `HAZARD <- 1` (R40). -/
def State.setHazard (s : State) : State := { s with hazard := true }

/-- `pwr_active <- v` (40_transport_speed.md R150). -/
def State.setPower (s : State) (v : Bool) : State := { s with pwrActive := v }

/-- The position k of BUSY moves on by one event (R41). -/
def Engine.advance : Engine → Engine
  | .idle => .idle
  | .busy c req k => .busy c req (k + 1)

/-- Append an event to the transcript (R140, R149). -/
def State.record (s : State) (e : Event) : State :=
  { s with transcript := s.transcript ++ [e], engine := s.engine.advance }

/-- `RESP[c] <- r ; ENGINE <- IDLE` (45_config_scope_ops.md R328). -/
def State.deliver (s : State) (c : Nat) (r : Response) : State :=
  { s with ports := s.ports.modify c (fun p => { p with resp := some r }), engine := .idle }

end Sys2Proof.Machine
end

