-- ==== Sys2Proof/Machine/Ops.lean ====
section
/-! DEFINITION. The engine's micro-operations (40_transport_speed.md): transport calls, holds, the powered tail, the speed state;
pointer maintenance (42_crc_bank.md R204, R205); and the ends of a request: `respond`, and taking an exception, which is the abort
procedure (60_exceptions.md R362). -/

namespace Sys2Proof.Machine

/-- A piece of a request's pseudocode: it runs on the state and ends with a value, or ends the whole request with an error (R8). -/
abbrev Bus (α : Type) := EStateM Err State α

/-- `raise E` (R8): the request ends here, the state is handed to the abort procedure. -/
def raise {α : Type} (e : Err) : Bus α := fun s => .error e s

/-- A precondition or check: `if not p: raise E`. -/
def require (p : Bool) (e : Err) : Bus Unit := fun s => if p then .ok () s else .error e s

/-- Read the state. -/
def readState : Bus State := fun s => .ok s s

/-- Write the state. -/
def update (f : State → State) : Bus Unit := fun s => .ok () (f s)

/-- The bank context of the request; an index at or above NB is the last check of decode (30_encoding.md R106). -/
def bankContext (b : Nat) : Bus Bank := fun s =>
  match s.bank? b with
  | some k => .ok k s
  | none => .error .unsupportedOperation s

/-! ### Transport calls -/

/-- The answer type of each call (R141 to R148): an exchange answers as many bytes as were sent. -/
def Call.admits : Call → Answer → Bool
  | _, .fail => true
  | .select _, .truth _ => true
  | .isPresent _, .truth _ => true
  | .exchange bs, .bytes rs => rs.length == bs.length
  | .get, .byte _ => true
  | .put _, .ok => true
  | .setSpeed _, .ok => true
  | .powerDuration _, .ok => true
  | .powerStart _, .ok => true
  | .powerNormal, .ok => true
  | .programPulse, .ok => true
  | _, _ => false

/-- A free answer of the call's answer type (R140, I10; log 2). -/
def Call.freeAnswer (call : Call) (n : Nat) : Answer :=
  if Config.freeOk n then
    match call with
    | .select _ => .truth (Config.freeTruth n)
    | .isPresent _ => .truth (Config.freeTruth n)
    | .exchange bs => .bytes ((List.range bs.length).map (Config.freeByte n))
    | .get => .byte (Config.freeByte n 0)
    | _ => .ok
  else .fail

/-- The transport's answer to a call: the next draw, if it is of the call's answer type; otherwise a free answer of that type. An
answer of another type "cannot occur in a model" (R142). -/
def answerTo (call : Call) (s : State) : Answer :=
  match s.answers with
  | [] => call.freeAnswer s.draws
  | a :: _ => if call.admits a then a else call.freeAnswer s.draws

/-- The state after a call: its event is in the transcript and its answer is drawn (R140). -/
def afterCall (call : Call) (s : State) : State :=
  { s.record (.call call (answerTo call s)) with answers := s.answers.tail, draws := s.draws + 1 }

/-- `Fail`, and the `false` of `select` and `is_present` (R140, R151). -/
def Answer.failed : Answer → Bool
  | .fail => true
  | .truth t => !t
  | _ => false

/-- A transport call: a failing answer raises DeviceNotPresent at once (R140, R151). -/
def transport (call : Call) : Bus Answer := fun s =>
  if (answerTo call s).failed then .error .deviceNotPresent (afterCall call s)
  else .ok (answerTo call s) (afterCall call s)

/-- The bytes of an exchange's answer. -/
def Answer.data : Answer → List Byte
  | .bytes rs => rs
  | _ => []

/-- The byte of a get's answer. -/
def Answer.value : Answer → Byte
  | .byte b => b
  | _ => 0

/-- `T.select(DEV_ADDR)` (R141). -/
def select (k : BankConfig) : Bus Unit := do
  let _ ← transport (.select k.devAddr)

/-- `T.exchange(bs)` (R142). -/
def exchange (bs : List Byte) : Bus (List Byte) := do
  let a ← transport (.exchange bs)
  pure a.data

/-- `T.get()` (R144). -/
def getByte : Bus Byte := do
  let a ← transport .get
  pure a.value

/-- `hold(t)` (R149). -/
def hold (t : Duration) : Bus Unit := update (fun s => s.record (.hold t))

/-- `PT(x, t)` (R150). -/
def poweredTail (x : Byte) (t : Duration) : Bus Unit := do
  let _ ← transport (.powerDuration t)
  let _ ← transport (.powerStart .afterNextByte)
  update (fun s => s.setPower true)
  let _ ← transport (.put x)
  hold t
  let _ ← transport .powerNormal
  update (fun s => s.setPower false)

/-! ### Speed state and continuation pointer -/

/-- `ensure_speed(b)` (R152). -/
def ensureSpeed (b : Nat) : Bus Unit := do
  let k ← bankContext b
  if k.speed = .verified then pure ()
  else
    let _ ← transport (.setSpeed k.cfg.desiredSpeed)
    let _ ← transport (.isPresent k.cfg.devAddr)
    update (fun s => s.setSpeed b .verified)

/-- `force_reverify(b)` (R153). -/
def forceReverify (b : Nat) (s : State) : State := s.setSpeed b .stale

/-- `BEGIN_BUS(c, b)` (R205), which also starts the request's local `pwr_active` at false (R42, log 12). It answers the pointer the
request saw. -/
def beginBus (b : Nat) : Bus (Option ContPtr) := do
  let s ← readState
  update (fun s => (s.setCont none).setPower false)
  ensureSpeed b
  pure s.contPtr

/-- `if C: CONT_CHECK(c, b, mode, off, prev)` (R204): a mismatch sets HAZARD and the request goes on. -/
def contCheck (cont : Bool) (want : ContPtr) (prev : Option ContPtr) : Bus Unit :=
  if cont && prev != some want then update State.setHazard else pure ()

/-- `CONT_SET(c, b, mode, off)` (R205). -/
def contSet (p : ContPtr) : Bus Unit := update (fun s => s.setCont (some p))

/-- The residue check of every checksum (R10): any other value raises ChecksumMismatch. -/
def checkResidue (seed : Half) (bs : List Byte) : Bus Unit := fun s =>
  if crcValid s.crc seed bs then .ok () s else .error .checksumMismatch s

/-! ### The end of a request -/

/-- The cleanup of a bus-phase failure (R362): normal power if the pull-up was active, its answer ignored; then
`force_reverify`; then `CONT_PTR <- none`. -/
def abortCleanup (b : Option Nat) (s : State) : State :=
  let s1 := if s.pwrActive then (afterCall .powerNormal s).setPower false else s
  let s2 := match b with
    | some b => forceReverify b s1
    | none => s1
  s2.setCont none

/-- Taking an exception: `ABORT(E)` (R362) for a request of client c, on bank b if it has one. -/
def abort (c : Nat) (b : Option Nat) (e : Err) (s : State) : State :=
  let hint := credHint (b.bind s.bank?) e
  let s1 := if busPhase e then abortCleanup b s else s
  s1.deliver c (errResponse e hint)

/-- The end of a request's pseudocode: `respond(OK, ...)` or the abort procedure (R8, R328). There is no return instruction: the
return from an error is the client's next request (R366). -/
def conclude (c : Nat) (b : Option Nat) : EStateM.Result Err State Response → State
  | .ok r s => s.deliver c r
  | .error e s => abort c b e s

/-- Run a request's rule for the client that ENGINE holds (R41, R328). -/
def runRequest (b : Option Nat) (rule : Nat → Bus Response) (s : State) : Host.Outcome State Fault Refusal :=
  match s.engine with
  | .busy c _ _ => .next (conclude c b (rule c s))
  | .idle => .fault .noRequest

end Sys2Proof.Machine
end

