-- ==== Sys2Proof/Machine/ConfigScope.lean ====
section
/-! DEFINITION. The requests of 45_config_scope_ops.md: the five configuration queries, SET_WRITE_VERIFY, and the exclusive-access
scope's ACQUIRE and RELEASE. None makes a transport call. -/

namespace Sys2Proof.Machine

/-- A configuration query (R320 to R324): V is the register, zero-extended; R and X are empty; no state changes. -/
def getRequest (b : Nat) (value : BankConfig → Word) : Bus Response := do
  let k ← bankContext b
  pure (okResponse (value k.cfg) [] [])

/-- GET_SIZE (R320). -/
def execGetSize (b : Byte) (s : State) : Host.Outcome State Fault Refusal :=
  runRequest (some b.toNat) (fun _ => getRequest b.toNat (fun k => BitVec.ofNat 32 k.size)) s

/-- GET_PAGE_LENGTH (R321). -/
def execGetPageLength (b : Byte) (s : State) : Host.Outcome State Fault Refusal :=
  runRequest (some b.toNat) (fun _ => getRequest b.toNat (fun k => BitVec.ofNat 32 k.pageLength)) s

/-- GET_MAX_PACKET (R322). -/
def execGetMaxPacket (b : Byte) (s : State) : Host.Outcome State Fault Refusal :=
  runRequest (some b.toNat) (fun _ => getRequest b.toNat (fun k => BitVec.ofNat 32 (maxPacket k))) s

/-- GET_FLAGS (R323): bits 31 to 9 are 0 (R32). -/
def execGetFlags (b : Byte) (s : State) : Host.Outcome State Fault Refusal :=
  runRequest (some b.toNat) (fun _ => getRequest b.toNat (fun k => k.flags.setWidth 32)) s

/-- GET_EXTRA_LEN (R324). -/
def execGetExtraLen (b : Byte) (s : State) : Host.Outcome State Fault Refusal :=
  runRequest (some b.toNat) (fun _ => getRequest b.toNat (fun k => BitVec.ofNat 32 k.extraLen)) s

/-- The rule of SET_WRITE_VERIFY (R325). -/
def setWriteVerifyRequest (b : Nat) (a : Half) : Bus Response := do
  let _ ← bankContext b
  require (bitOperandOk a) .unsupportedOperation
  update (fun s => s.updateBank b (fun k => { k with writeVerify := bitOperand a }))
  pure (okResponse 0 [] [])

/-- SET_WRITE_VERIFY (R325). -/
def execSetWriteVerify (b : Byte) (a : Half) (s : State) : Host.Outcome State Fault Refusal :=
  runRequest (some b.toNat) (fun _ => setWriteVerifyRequest b.toNat a) s

/-- The rule of ACQUIRE (R326): by the owner it changes nothing. A client is here only when the scope is free or its own (R328). -/
def acquireRequest (c : Nat) : Bus Response := do
  let s ← readState
  if s.owner = none then
    update (fun s => (s.setOwner (some c)).setCont none)
  pure (okResponse 0 [] [])

/-- ACQUIRE (R326). -/
def execAcquire (s : State) : Host.Outcome State Fault Refusal := runRequest none acquireRequest s

/-- The rule of RELEASE (R327). -/
def releaseRequest (c : Nat) : Bus Response := do
  let s ← readState
  require (s.owner == some c) .unsupportedOperation
  update (fun s => (s.setOwner none).setCont none)
  pure (okResponse 0 [] [])

/-- RELEASE (R327). -/
def execRelease (s : State) : Host.Outcome State Fault Refusal := runRequest none releaseRequest s

end Sys2Proof.Machine
end

