-- ==== Sys2Proof/Machine/Transfer.lean ====
section
/-! DEFINITION. The transfers the strategies share: the prefixed read (43_password_bank.md R252), the native read and the byte
writes (41_plain_bank.md R171, R175, R176), the CRC page read and its range read (42_crc_bank.md R200, R210), and the scratchpad
steps (44_scratchpad_commit.md R281 to R287). Each takes the request's bank context as it stood when the request began: no rule
writes a register these read while a request runs. -/

namespace Sys2Proof.Machine

/-- `XFER_READ(b, pre, n)` (R252): the n bytes of the data phase. -/
def xferRead (k : Bank) (pre : List Byte) (n : Nat) : Bus (List Byte) :=
  if poweredMode k then do
    let _ ← exchange pre.dropLast
    poweredTail (pre.getLastD 0) k.cfg.tPwSettle
    exchange (filler n)
  else do
    let rs ← exchange (pre ++ filler n)
    pure (slice rs pre.length n)

/-- The data phase of a read of n bytes, with the command `cmd` at device address `a`: a continuation sends filler only, without a
select or a prefix (R171, R200). -/
def fetchData (k : Bank) (cont : Bool) (cmd : Byte) (a : Half) (n : Nat) : Bus (List Byte) :=
  if cont then exchange (filler n)
  else do
    select k.cfg
    xferRead k (framePrefix k cmd a) n

/-- `NATIVE_READ(c, b, o, n, C, prev)` (R171). -/
def nativeRead (c b : Nat) (k : Bank) (o n : Nat) (cont : Bool) (prev : Option ContPtr) : Bus (List Byte) := do
  contCheck cont ⟨c, b, .byte, o⟩ prev
  let data ← fetchData k cont k.cfg.cmdRead (phys k.cfg o) n
  contSet ⟨c, b, .byte, o + n⟩
  pure data

/-- The program pulse of a bank that needs one (R176). -/
def programPulse (k : Bank) : Bus Unit :=
  if needsProgramPulse k.cfg then do
    let _ ← transport .programPulse
  else pure ()

/-- One byte of an echo write after its frame is exchanged (R176): residue, program pulse, echo, in that order. -/
def echoVerify (k : Bank) (seed : Half) (checked : List Byte) (d : Byte) : Bus Unit := do
  checkResidue seed checked
  programPulse k
  let e ← getByte
  require (e == d) .echoMismatch

/-- The bytes of an echo write after the first (R176), from device address `a` on. -/
def echoRest (k : Bank) : Half → List Byte → Bus Unit
  | _, [] => pure ()
  | a, d :: ds => do
    let rs ← exchange [d, 0xFF, 0xFF]
    echoVerify k (echoSeed k.cfg a) (d :: slice rs 1 2) d
    echoRest k (a + 1) ds

/-- `ECHO_WRITE_SEQ(b, o, d)` (R176). -/
def echoWriteSeq (k : Bank) (o : Nat) (d : List Byte) : Bus Unit := do
  let a := phys k.cfg o
  select k.cfg
  match d with
  | [] => pure ()
  | d0 :: ds =>
    let pre := framePrefix k k.cfg.cmdWrite a
    let rs ← exchange (pre ++ [d0, 0xFF, 0xFF])
    echoVerify k 0 (seedBytes k.cfg.cmdWrite a ++ d0 :: slice rs (pre.length + 1) 2) d0
    echoRest k (a + 1) ds

/-- `WRITE_BYTES(b, o, d)` (R175). -/
def writeBytes (k : Bank) (o : Nat) (d : List Byte) : Bus Unit :=
  if k.cfg.echoWrite then echoWriteSeq k o d
  else do
    select k.cfg
    let _ ← exchange (framePrefix k k.cfg.cmdWrite (phys k.cfg o) ++ d)

/-- `CRC_PAGE(b, p, cont)` (R200 to R203): page data and extra info, after the residue check. -/
def crcPage (k : Bank) (p : Nat) (cont : Bool) : Bus (List Byte × List Byte) := do
  let ph ← fetchData k cont k.cfg.cmdReadCrc (phys k.cfg (pageOffset k.cfg p)) (checkedLength k.cfg + verifyBytes k cont)
  let s ← readState
  checkResidue (pageSeed s.crc k.cfg p cont) (slice ph 0 (checkedLength k.cfg))
  pure (slice ph 0 k.cfg.pageLength, slice ph k.cfg.pageLength k.cfg.extraLen)

/-- The pages of a range read in order (R210): each page after the first is an internal continuation. -/
def crcPages (k : Bank) : Bool → List Nat → Bus (List Byte)
  | _, [] => pure []
  | cont, p :: ps => do
    let (data, _) ← crcPage k p cont
    let rest ← crcPages k true ps
    pure (data ++ rest)

/-- `CRC_READ_RANGE(c, b, o, n, C, prev)` (R210). -/
def crcReadRange (c b : Nat) (k : Bank) (o n : Nat) (cont : Bool) (prev : Option ContPtr) : Bus (List Byte) := do
  let start := pageOffset k.cfg (firstPage k.cfg o)
  contCheck cont ⟨c, b, .page, start⟩ prev
  let buf ← crcPages k cont (coveringPages k.cfg o n)
  contSet ⟨c, b, .page, pageOffset k.cfg (lastPage k.cfg o n + 1)⟩
  pure (slice buf (o - start) n)

/-- `WRITE_SP(b, q, ds)` (R281). -/
def writeSp (k : Bank) (q : Nat) (ds : List Byte) : Bus Unit := do
  select k.cfg
  let _ ← exchange (seedBytes k.cfg.cmdWriteSp (phys k.cfg q) ++ ds)

/-- `READ_SP(b)` (R282): metadata and scratchpad data. -/
def readSp (k : Bank) : Bus (List Byte × List Byte) := do
  let n := k.cfg.spMetaLen + k.cfg.pageLength + 2
  select k.cfg
  let rs ← exchange (k.cfg.cmdReadSp :: filler n)
  let rx := slice rs 1 n
  checkResidue 0 (k.cfg.cmdReadSp :: rx)
  pure (slice rx 0 k.cfg.spMetaLen, slice rx k.cfg.spMetaLen k.cfg.pageLength)

/-- `COMPARE_SP(b, q, ds, sp)` (R283), skipped while WRITE_VERIFY is 0. -/
def compareSp (k : Bank) (q : Nat) (ds sp : List Byte) : Bus Unit :=
  require (!k.writeVerify || scratchpadMatches k.cfg q ds sp) .scratchpadVerifyFailed

/-- `COPY_SP(b, q, st)` (R284). -/
def copySp (k : Bank) (q : Nat) (st : Byte) : Bus Unit := do
  select k.cfg
  let _ ← exchange (seedBytes k.cfg.cmdCopySp (phys k.cfg q))
  poweredTail st k.cfg.tCopy
  let e ← getByte
  require (e != 0xFF) .copyNotConfirmed

/-- One segment of a SCRATCHPAD write: the four steps (R285). -/
def spSegment (k : Bank) (q : Nat) (ds : List Byte) : Bus Unit := do
  writeSp k q ds
  let (md, sp) ← readSp k
  compareSp k q ds sp
  copySp k q (md.getD (k.cfg.spMetaLen - 1) 0)

/-- The segments of a SCRATCHPAD write in order (R285). -/
def spSegments (k : Bank) : List (Nat × List Byte) → Bus Unit
  | [] => pure ()
  | (q, ds) :: rest => do
    spSegment k q ds
    spSegments k rest

/-- `SP_WRITE(b, o, d)` (R285). -/
def spWrite (k : Bank) (o : Nat) (d : List Byte) : Bus Unit := spSegments k (segments k.cfg o d)

/-- The recall of page p, where the bank needs one (R286). -/
def recallPage (k : Bank) (p : Nat) : Bus Unit :=
  if k.cfg.hasRecall then do
    select k.cfg
    let _ ← exchange (seedBytes k.cfg.cmdRecall (phys k.cfg (pageOffset k.cfg p)))
  else pure ()

/-- `SP_READ_PAGE(b, p)` (R287). -/
def spReadPage (k : Bank) (p : Nat) : Bus (List Byte) := do
  recallPage k p
  let (_, sp) ← readSp k
  pure sp

/-- The scratchpad reads of a range, page by page (R287). -/
def spReadPages (k : Bank) : List Nat → Bus (List Byte)
  | [] => pure []
  | p :: ps => do
    let sp ← spReadPage k p
    let rest ← spReadPages k ps
    pure (sp ++ rest)

/-- `SP_READ_RANGE(b, o, n)` (R287). -/
def spReadRange (k : Bank) (o n : Nat) : Bus (List Byte) := do
  let buf ← spReadPages k (coveringPages k.cfg o n)
  pure (slice buf (o - pageOffset k.cfg (firstPage k.cfg o)) n)

end Sys2Proof.Machine
end

