-- ==== Sys2Proof/Machine/CrcBank.lean ====
section
/-! DEFINITION. The page reads of CRC and PASSWORD banks and the packet framer's requests (42_crc_bank.md R206 to R209, R212,
R213). -/

namespace Sys2Proof.Machine

/-- `PAGE_READ_PRE(c, C, b, p)` (R206). -/
def pageReadPre (c : Nat) (cont : Bool) (k : Bank) (p : Nat) : Bus Unit := do
  let s ← readState
  require (decide (p < numPages k.cfg)) .outOfRange
  require (!cont || s.owner == some c) .unsupportedOperation
  require (!(k.cfg.strategy == .password && credNone k)) .unsupportedOperation
  require (!(poweredMode k && !s.canPower)) .unsupportedOperation

/-- `PAGE_READ_BODY(c, C, b, p)` (R206), with what the request does to the page before CONT_SET: nothing for a page read, the
packet decoding for READ_PAGE_PACKET (R212). -/
def pageReadBody {α : Type} (c : Nat) (cont : Bool) (b : Nat) (k : Bank) (p : Nat)
    (use : List Byte × List Byte → Bus α) : Bus α := do
  let prev ← beginBus b
  contCheck cont ⟨c, b, .page, pageOffset k.cfg p⟩ prev
  let page ← crcPage k p cont
  let out ← use page
  contSet ⟨c, b, .page, pageOffset k.cfg (p + 1)⟩
  pure out

/-- A page read after its capability check: R = data, and X = extra info where the request returns it. -/
def pageReadRequest (c : Nat) (cont : Bool) (b : Nat) (k : Bank) (p : Nat) (withExtra : Bool) : Bus Response := do
  pageReadPre c cont k p
  let (data, extra) ← pageReadBody c cont b k p pure
  pure (okResponse 0 data (if withExtra then extra else []))

/-- The rule of READ_PAGE_EXTRA (R207). -/
def readPageExtraRequest (c : Nat) (cont : Bool) (b p : Nat) : Bus Response := do
  let k ← bankContext b
  require (hasExtraInfo k.cfg) .unsupportedOperation
  pageReadRequest c cont b k p true

/-- READ_PAGE_EXTRA (R207). -/
def execReadPageExtra (cont : Bool) (b : Byte) (p : Half) (s : State) : Host.Outcome State Fault Refusal :=
  runRequest (some b.toNat) (fun c => readPageExtraRequest c cont b.toNat p.toNat) s

/-- The rule of READ_PAGE_CRC (R208). -/
def readPageCrcRequest (c : Nat) (cont : Bool) (b p : Nat) : Bus Response := do
  let k ← bankContext b
  require (hasPageAutoCrc k.cfg) .unsupportedOperation
  pageReadRequest c cont b k p false

/-- READ_PAGE_CRC (R208). -/
def execReadPageCrc (cont : Bool) (b : Byte) (p : Half) (s : State) : Host.Outcome State Fault Refusal :=
  runRequest (some b.toNat) (fun c => readPageCrcRequest c cont b.toNat p.toNat) s

/-- The rule of READ_PAGE_CRC_EXTRA (R209). -/
def readPageCrcExtraRequest (c : Nat) (cont : Bool) (b p : Nat) : Bus Response := do
  let k ← bankContext b
  require (hasPageAutoCrc k.cfg && hasExtraInfo k.cfg) .unsupportedOperation
  pageReadRequest c cont b k p true

/-- READ_PAGE_CRC_EXTRA (R209). -/
def execReadPageCrcExtra (cont : Bool) (b : Byte) (p : Half) (s : State) : Host.Outcome State Fault Refusal :=
  runRequest (some b.toNat) (fun c => readPageCrcExtraRequest c cont b.toNat p.toNat) s

/-- `PKT_DECODE` as a step of the request (R215). -/
def packetRead (k : Bank) (p : Nat) (page : List Byte × List Byte) : Bus (List Byte × Nat) := fun s =>
  match packetDecode s.crc k.cfg p page.1 with
  | .ok out => .ok out s
  | .error e => .error e s

/-- The rule of READ_PAGE_PACKET (R212). -/
def readPagePacketRequest (c : Nat) (cont : Bool) (b p : Nat) : Bus Response := do
  let k ← bankContext b
  require (crcStrategy k.cfg) .unsupportedOperation
  pageReadPre c cont k p
  let (payload, n) ← pageReadBody c cont b k p (packetRead k p)
  pure (okResponse (BitVec.ofNat 32 n) payload [])

/-- READ_PAGE_PACKET (R212). -/
def execReadPagePacket (cont : Bool) (b : Byte) (p : Half) (s : State) : Host.Outcome State Fault Refusal :=
  runRequest (some b.toNat) (fun c => readPagePacketRequest c cont b.toNat p.toNat) s

/-- The rule of WRITE_PAGE_PACKET (R213). -/
def writePagePacketRequest (b p : Nat) (payload : List Byte) : Bus Response := do
  let k ← bankContext b
  let s ← readState
  require (crcStrategy k.cfg) .unsupportedOperation
  require (!readOnly k.cfg) .unsupportedOperation
  require (decide (p < numPages k.cfg)) .outOfRange
  require (decide (payload.length ≤ maxPacket k.cfg)) .outOfRange
  require (!(k.cfg.strategy == .password && credNone k)) .unsupportedOperation
  require (!(needsPowerDelivery k.cfg && !s.canPower)) .unsupportedOperation
  let _ ← beginBus b
  writeBytes k (pageOffset k.cfg p) (packetEncode s.crc k.cfg p s.draws payload)
  pure (okResponse 0 [] [])

/-- WRITE_PAGE_PACKET (R213). -/
def execWritePagePacket (b : Byte) (p : Half) (d : List Byte) (s : State) : Host.Outcome State Fault Refusal :=
  runRequest (some b.toNat) (fun _ => writePagePacketRequest b.toNat p.toNat d) s

end Sys2Proof.Machine
end

