-- ==== Sys2Proof/Machine/PasswordBank.lean ====
section
/-! DEFINITION. The credential and mode requests of 43_password_bank.md (R255 to R258). None touches the bus. -/

namespace Sys2Proof.Machine

/-- The checks of SET_CRED_RW and SET_CRED_RO (R255, R256; D62). -/
def credentialChecks (b : Nat) (d : List Byte) : Bus Unit := do
  let k ← bankContext b
  require (k.cfg.strategy == .password) .unsupportedOperation
  require (d.length == k.cfg.pwLen) .unsupportedOperation

/-- The rule of SET_CRED_RW (R255). -/
def setCredRwRequest (b : Nat) (d : List Byte) : Bus Response := do
  credentialChecks b d
  update (fun s => s.updateBank b (fun k => { k with credRw := d, credRwValid := true }))
  pure (okResponse 0 [] [])

/-- SET_CRED_RW (R255). -/
def execSetCredRw (b : Byte) (d : List Byte) (s : State) : Host.Outcome State Fault Refusal :=
  runRequest (some b.toNat) (fun _ => setCredRwRequest b.toNat d) s

/-- The rule of SET_CRED_RO (R256). -/
def setCredRoRequest (b : Nat) (d : List Byte) : Bus Response := do
  credentialChecks b d
  update (fun s => s.updateBank b (fun k => { k with credRo := d, credRoValid := true }))
  pure (okResponse 0 [] [])

/-- SET_CRED_RO (R256). -/
def execSetCredRo (b : Byte) (d : List Byte) (s : State) : Host.Outcome State Fault Refusal :=
  runRequest (some b.toNat) (fun _ => setCredRoRequest b.toNat d) s

/-- `PW_LEN` bytes of unspecified contents: the n-th free credential (R257, I8; log 11). -/
def unspecifiedCred (n len : Nat) : List Byte := (List.range len).map (Config.freeCredByte n)

/-- Both credentials forgotten: the valid bits are 0 and "contents become unspecified" (R257). -/
def forgetCreds (b : Nat) (s : State) : State :=
  { s.updateBank b (fun k =>
      { k with
        credRw := unspecifiedCred s.draws k.cfg.pwLen
        credRo := unspecifiedCred (s.draws + 1) k.cfg.pwLen
        credRwValid := false
        credRoValid := false }) with
    draws := s.draws + 2 }

/-- The rule of CLEAR_CREDS (R257). -/
def clearCredsRequest (b : Nat) : Bus Response := do
  let k ← bankContext b
  require (k.cfg.strategy == .password) .unsupportedOperation
  update (forgetCreds b)
  pure (okResponse 0 [] [])

/-- CLEAR_CREDS (R257). -/
def execClearCreds (b : Byte) (s : State) : Host.Outcome State Fault Refusal :=
  runRequest (some b.toNat) (fun _ => clearCredsRequest b.toNat) s

/-- The rule of SET_POWERED (R258). -/
def setPoweredRequest (b : Nat) (a : Half) : Bus Response := do
  let k ← bankContext b
  require (k.cfg.strategy == .password) .unsupportedOperation
  require (bitOperandOk a) .unsupportedOperation
  update (fun s => s.updateBank b (fun k => { k with powered := bitOperand a }))
  pure (okResponse 0 [] [])

/-- SET_POWERED (R258). -/
def execSetPowered (b : Byte) (a : Half) (s : State) : Host.Outcome State Fault Refusal :=
  runRequest (some b.toNat) (fun _ => setPoweredRequest b.toNat a) s

end Sys2Proof.Machine
end

