-- ==== Sys2Proof/Machine/PlainBank.lean ====
section
/-! DEFINITION. READ, WRITE and READ_PAGE (41_plain_bank.md R172 to R174), which dispatch by strategy (42_crc_bank.md R206, R210;
44_scratchpad_commit.md R285, R287, R288). -/

namespace Sys2Proof.Machine

/-- The read of `[o, o + n)`, by strategy (R172): SCRATCHPAD read-back, native read, or CRC range read. -/
def readTransfer (c b : Nat) (k : Bank) (o n : Nat) (cont : Bool) (prev : Option ContPtr) : Bus (List Byte) :=
  if k.cfg.strategy = .scratchpad then spReadRange k o n
  else if k.cfg.hasNativeRead then nativeRead c b k o n cont prev
  else crcReadRange c b k o n cont prev

/-- The rule of READ (R172), its preconditions in the order of 60_exceptions.md R363. -/
def readRequest (c : Nat) (cont : Bool) (b o n : Nat) : Bus Response := do
  let k ← bankContext b
  let s ← readState
  require (!(cont && k.cfg.strategy == .scratchpad)) .unsupportedOperation
  require (decide (o + n ≤ k.cfg.size)) .outOfRange
  require (!cont || s.owner == some c) .unsupportedOperation
  require (!(k.cfg.strategy == .password && credNone k)) .unsupportedOperation
  require (!(poweredMode k && !s.canPower)) .unsupportedOperation
  if n = 0 then pure (okResponse 0 [] [])
  else
    let prev ← beginBus b
    let r ← readTransfer c b k o n cont prev
    pure (okResponse 0 r [])

/-- READ (R172). -/
def execRead (cont : Bool) (b : Byte) (a l : Half) (s : State) : Host.Outcome State Fault Refusal :=
  runRequest (some b.toNat) (fun c => readRequest c cont b.toNat a.toNat l.toNat) s

/-- READ_PAGE on a PLAIN bank (R173). -/
def readPagePlain (c : Nat) (cont : Bool) (b : Nat) (k : Bank) (p : Nat) : Bus Response := do
  let s ← readState
  require (decide (p < numPages k.cfg)) .outOfRange
  require (!cont || s.owner == some c) .unsupportedOperation
  let prev ← beginBus b
  let r ← nativeRead c b k (pageOffset k.cfg p) k.cfg.pageLength cont prev
  pure (okResponse 0 r [])

/-- READ_PAGE on a SCRATCHPAD bank (44_scratchpad_commit.md R288). -/
def readPageSp (cont : Bool) (b : Nat) (k : Bank) (p : Nat) : Bus Response := do
  require (!cont) .unsupportedOperation
  require (decide (p < numPages k.cfg)) .outOfRange
  let _ ← beginBus b
  let r ← spReadPage k p
  pure (okResponse 0 r [])

/-- The rule of READ_PAGE, chosen by strategy (R173, R206, R288). A reserved strategy is never admitted (00_scope.md R7 W10). -/
def readPageRequest (c : Nat) (cont : Bool) (b p : Nat) : Bus Response := do
  let k ← bankContext b
  match k.cfg.strategy with
  | .plain => readPagePlain c cont b k p
  | .crc => pageReadRequest c cont b k p false
  | .password => pageReadRequest c cont b k p false
  | .scratchpad => readPageSp cont b k p
  | .reserved _ => raise .unsupportedOperation

/-- READ_PAGE (R173). -/
def execReadPage (cont : Bool) (b : Byte) (p : Half) (s : State) : Host.Outcome State Fault Refusal :=
  runRequest (some b.toNat) (fun c => readPageRequest c cont b.toNat p.toNat) s

/-- The write of d at offset o, by strategy (R174): SCRATCHPAD commit, or `WRITE_BYTES`. -/
def writeTransfer (k : Bank) (o : Nat) (d : List Byte) : Bus Unit :=
  if k.cfg.strategy = .scratchpad then spWrite k o d else writeBytes k o d

/-- The rule of WRITE (R174). -/
def writeRequest (b o : Nat) (d : List Byte) : Bus Response := do
  let k ← bankContext b
  let s ← readState
  require (!readOnly k.cfg) .unsupportedOperation
  require (decide (o + d.length ≤ k.cfg.size)) .outOfRange
  require (!(k.cfg.strategy == .password && credNone k)) .unsupportedOperation
  require (!((needsPowerDelivery k.cfg || k.cfg.strategy == .scratchpad) && !s.canPower)) .unsupportedOperation
  if d.length = 0 then pure (okResponse 0 [] [])
  else
    let _ ← beginBus b
    writeTransfer k o d
    pure (okResponse 0 [] [])

/-- WRITE (R174). -/
def execWrite (b : Byte) (a : Half) (d : List Byte) (s : State) : Host.Outcome State Fault Refusal :=
  runRequest (some b.toNat) (fun _ => writeRequest b.toNat a.toNat d) s

end Sys2Proof.Machine
end

