-- ==== Sys2Proof/Machine/Dispatch.lean ====
section
/-! DEFINITION. One arm per request: its meaning. -/

namespace Sys2Proof.Machine

def exec (i : Instr) (s : State) : Host.Outcome State Fault Refusal :=
  match i with
  | .getSize b => Sys2Proof.Machine.execGetSize b s
  | .getPageLength b => Sys2Proof.Machine.execGetPageLength b s
  | .getMaxPacket b => Sys2Proof.Machine.execGetMaxPacket b s
  | .getFlags b => Sys2Proof.Machine.execGetFlags b s
  | .getExtraLen b => Sys2Proof.Machine.execGetExtraLen b s
  | .read cont b a l => Sys2Proof.Machine.execRead cont b a l s
  | .write b a d => Sys2Proof.Machine.execWrite b a d s
  | .readPage cont b p => Sys2Proof.Machine.execReadPage cont b p s
  | .readPageExtra cont b p => Sys2Proof.Machine.execReadPageExtra cont b p s
  | .readPageCrc cont b p => Sys2Proof.Machine.execReadPageCrc cont b p s
  | .readPageCrcExtra cont b p => Sys2Proof.Machine.execReadPageCrcExtra cont b p s
  | .readPagePacket cont b p => Sys2Proof.Machine.execReadPagePacket cont b p s
  | .writePagePacket b p d => Sys2Proof.Machine.execWritePagePacket b p d s
  | .setWriteVerify b a => Sys2Proof.Machine.execSetWriteVerify b a s
  | .setPowered b a => Sys2Proof.Machine.execSetPowered b a s
  | .setCredRw b d => Sys2Proof.Machine.execSetCredRw b d s
  | .setCredRo b d => Sys2Proof.Machine.execSetCredRo b d s
  | .clearCreds b => Sys2Proof.Machine.execClearCreds b s
  | .acquire => Sys2Proof.Machine.execAcquire s
  | .release => Sys2Proof.Machine.execRelease s

end Sys2Proof.Machine
end

