-- ==== Sys2Proof/Machine/RequestLoop.lean ====
section
/-! DEFINITION. The request loop (45_config_scope_ops.md R328, R329): what clients do between requests (10_state.md R43),
eligibility, taking a request, the scheduler's choice, and running a taken request. -/

namespace Sys2Proof.Machine

/-- The configuration passes R6 and R7. -/
def State.admitted (s : State) : Bool := configAdmitted s.nb s.nc (s.banks.map Bank.cfg)

/-- `ELIGIBLE(c, req)` (R328): it looks at the raw opcode field only; 0x41 is RELEASE. -/
def eligible (s : State) (c : Nat) (req : Request) : Bool :=
  s.owner == none || s.owner == some c || fieldOp req.w == 0x41

/-- Client c's pending request, if it is eligible. -/
def takeable (s : State) (c : Nat) : Option Request :=
  match s.port? c with
  | some ⟨some req, _⟩ => if eligible s c req then some req else none
  | _ => none

/-- `PENDING[c] <- none ; ENGINE <- BUSY(c, req, 0)` (R328). -/
def takeRequest (s : State) (c : Nat) (req : Request) : State :=
  { s.updatePort c (fun p => { p with pending := none }) with engine := .busy c req 0 }

/-- Client c issues a request: "A client writes PENDING[c] only when it is none and RESP[c] has been consumed" (R43). A move that
the protocol does not allow has no effect (log 4). -/
def issueRequest (s : State) (c : Nat) (req : Request) : State :=
  match s.port? c with
  | some ⟨none, none⟩ => s.updatePort c (fun p => { p with pending := some req })
  | _ => s

/-- Client c consumes its response (R43). -/
def consumeResponse (s : State) (c : Nat) : State := s.updatePort c (fun p => { p with resp := none })

/-- The clients whose pending request is eligible, in port order. -/
def eligibleClients (s : State) : List Nat := (List.range s.nc).filter (fun c => (takeable s c).isSome)

/-- The scheduler's choice where no move says it (R329), by the value v: one of the eligible clients, or none of them, because no
fairness is given and a pending request may wait forever (R331 (3)). -/
def chooseClient (v : Nat) (s : State) : Option Nat := (eligibleClients s)[v % ((eligibleClients s).length + 1)]?

/-- One value of the scheduler drawn. -/
def afterChoice (s : State) : State := { s with draws := s.draws + 1 }

/-- Run the request that ENGINE holds: decode it (30_encoding.md R106), then run its rule. A request that does not decode is
answered with UnsupportedOperation and changes nothing else (R106, R107). -/
def runTaken (s : State) : Host.Outcome State Fault Refusal :=
  match s.engine with
  | .idle => .fault .noRequest
  | .busy c req _ =>
    match decode s.nb req with
    | .ok i => exec i s
    | .error _ => .next (abort c none .unsupportedOperation s)

/-- The engine takes client c's request and runs it, if it is there and eligible; otherwise it stays IDLE and the request is held
(R328). -/
def takeAndRun (s : State) (c : Nat) : Host.Outcome State Fault Refusal :=
  match takeable s c with
  | some req => runTaken (takeRequest s c req)
  | none => .next s

/-- One move between requests. -/
def performMove (s : State) : Move → Host.Outcome State Fault Refusal
  | .issue c req => .next (issueRequest s c req)
  | .consume c => .next (consumeResponse s c)
  | .take c => takeAndRun s c

/-- A step with ENGINE IDLE: the next move of the schedule, or, past its end, what the scheduler chooses: an eligible request is
taken, or the block waits. -/
def stepIdle (s : State) : Host.Outcome State Fault Refusal :=
  match s.schedule with
  | m :: rest => performMove { s with schedule := rest } m
  | [] =>
    match chooseClient (Config.freeChoice s.draws) s with
    | some c => takeAndRun (afterChoice s) c
    | none => .next (afterChoice s)

/-- The client that a request placed from outside the machine is issued by: the scope's owner, or client 0 (log 5). -/
def fetchClient (s : State) : Nat :=
  match s.owner with
  | some c => c
  | none => 0

/-- A request placed on a client's port, and the move that takes it next. -/
def placeRequest (s : State) (req : Request) : State :=
  { s.updatePort (fetchClient s) (fun _ => ⟨some req, none⟩) with
    engine := .idle
    schedule := .take (fetchClient s) :: s.schedule }

end Sys2Proof.Machine
end

