-- ==== Sys2Proof/Machine/Step.lean ====
section
/-! DEFINITION. One step of the block (45_config_scope_ops.md R328). -/

namespace Sys2Proof.Machine

/-- One step: a block whose configuration fails R7 is refused; with ENGINE IDLE it makes the next move; a request just taken is
run to its response. A request is never entered in its middle (log 15). -/
def step (s : State) : Host.Outcome State Fault Refusal :=
  if s.admitted then
    match s.engine with
    | .idle => stepIdle s
    | .busy _ _ 0 => runTaken s
    | .busy _ _ (_ + 1) => .fault .midRequest
  else .refused .configNotAdmitted

/-- The request of a table word placed where the next step takes its request. -/
def State.withFetchWord (s : State) (nbits w : Nat) : State := placeRequest s (requestOfBits nbits w)

end Sys2Proof.Machine
end

