-- ==== Sys2Proof/Safety.lean ====
section
/-! DEFINITION. The vocabulary of the claims: the invariant of the block, transcripts as a reader of the bus sees them, and the
states a request leaves when it completes or fails. None of it is used by the machine. -/

namespace Sys2Proof.Machine

/-! ### Frames, spelled out from the spec apart from the machine's own definitions -/

/-- `[cmd, lo(a), hi(a)]`, the address bytes of a frame and all that a seed covers (20_memory.md R73, 41_plain_bank.md R170). -/
def addressBytes (cmd : Byte) (a : Half) : List Byte := [cmd, a.extractLsb' 0 8, a.extractLsb' 8 8]

/-- The device address of bank offset o: `START_PHYS + o` (20_memory.md R72). -/
def deviceAddress (k : BankConfig) (o : Nat) : Half := BitVec.ofNat 16 (k.startPhys + o)

/-- The credential segment of a prefix: on a PASSWORD bank CRED_RW while it is valid and else CRED_RO, on any other bank none
(43_password_bank.md R250, R251). -/
def sentCredential (k : Bank) : List Byte :=
  if k.cfg.strategy = .password then (if k.credRwValid = true then k.credRw else k.credRo) else []

/-- The prefix of a frame: command, address, credential (41_plain_bank.md R170, 43_password_bank.md R251). -/
def sentPrefix (k : Bank) (cmd : Byte) (a : Half) : List Byte := addressBytes cmd a ++ sentCredential k

/-- A PASSWORD bank in powered mode (43_password_bank.md R252). -/
def readPowered (k : Bank) : Bool := k.cfg.strategy == .password && k.powered

/-- How many verify-only bytes follow the checked ones (43_password_bank.md R253). -/
def verifyOnly (k : Bank) (cont : Bool) : Nat :=
  if readPowered k && !cont then k.cfg.pwPoweredVerifyBytes else k.cfg.nvb

/-- The seed of a CRC page read: command and address of a full read, never the credential; CONT_SEED of a continuation
(42_crc_bank.md R201). -/
def readSeed (f : Checksum) (k : BankConfig) (p : Nat) (cont : Bool) : Half :=
  if cont then k.contSeed else crc16 f 0 (addressBytes k.cmdReadCrc (deviceAddress k (p * k.pageLength)))

/-! ### Transcripts -/

/-- The answer of an event, if it is a call. -/
def eventAnswer : Event → Option Answer
  | .call _ a => some a
  | .hold _ => none

/-- The answers of a list of events, in order. -/
def answersOf (evs : List Event) : List Answer := evs.filterMap eventAnswer

/-- An event whose answer is of its call's answer type (40_transport_speed.md R140 to R149). -/
def wellTyped : Event → Bool
  | .call c a => c.admits a
  | .hold _ => true

/-- The transport will answer as in `evs`: its next answers are those of `evs`, in order. -/
def Answering (s : State) (evs : List Event) : Prop := ∃ rest, s.answers = answersOf evs ++ rest

/-- The speed traffic of a request (R152): none on a VERIFIED bank, else a speed-set and a presence check, both answered well. -/
def speedEvents (k : Bank) : List Event :=
  match k.speed with
  | .verified => []
  | .stale => [.call (.setSpeed k.cfg.desiredSpeed) .ok, .call (.isPresent k.cfg.devAddr) (.truth true)]

/-- `T.select(DEV_ADDR) -> true`. -/
def selectEvent (k : Bank) : Event := .call (.select k.cfg.devAddr) (.truth true)

/-- `T.exchange(sent) -> Ok(got)`. -/
def exchangeEvent (sent got : List Byte) : Event := .call (.exchange sent) (.bytes got)

/-- `T.get() -> Ok(b)`. -/
def getEvent (b : Byte) : Event := .call .get (.byte b)

/-- The powered tail `PT(x, t)` with every call answered Ok (R150). -/
def poweredTailEvents (x : Byte) (t : Duration) : List Event :=
  [.call (.powerDuration t) .ok, .call (.powerStart .afterNextByte) .ok, .call (.put x) .ok, .hold t, .call .powerNormal .ok]

/-- How many answer bytes the positions of a read's prefix take: all of it, or all but the byte that the powered tail sends. -/
def echoedLength (k : Bank) (pre : List Byte) : Nat := if readPowered k then pre.length - 1 else pre.length

/-- A prefixed read (43_password_bank.md R252) that answers `echoed` at the prefix positions and `ph` in the data phase. -/
def transferEvents (k : Bank) (pre echoed ph : List Byte) : List Event :=
  if readPowered k then
    exchangeEvent pre.dropLast echoed :: poweredTailEvents (pre.getLastD 0) k.cfg.tPwSettle ++
      [exchangeEvent (filler ph.length) ph]
  else [exchangeEvent (pre ++ filler ph.length) (echoed ++ ph)]

/-- A read that is addressed (C = 0) or continues the one before it (C = 1), with the command byte `cmd` at device address `a`. -/
def readEvents (k : Bank) (cont : Bool) (cmd : Byte) (a : Half) (echoed ph : List Byte) : List Event :=
  if cont then [exchangeEvent (filler ph.length) ph]
  else selectEvent k :: transferEvents k (sentPrefix k cmd a) echoed ph

/-- The frame bytes echoed by an addressed read have the length of what was sent; a continuation sends none. -/
def EchoFits (k : Bank) (cont : Bool) (cmd : Byte) (a : Half) (echoed : List Byte) : Prop :=
  cont = false → echoed.length = echoedLength k (sentPrefix k cmd a)

/-- A CRC page read of page p that answers the data phase `ph` (42_crc_bank.md R200). -/
def pageEvents (k : Bank) (p : Nat) (cont : Bool) (echoed ph : List Byte) : List Event :=
  readEvents k cont k.cfg.cmdReadCrc (deviceAddress k.cfg (p * k.cfg.pageLength)) echoed ph

/-- A data phase of page p is valid (R202): it has the exchanged length and its checked bytes give the residue. -/
def PageValid (f : Checksum) (k : Bank) (p : Nat) (cont : Bool) (ph : List Byte) : Prop :=
  ph.length = k.cfg.pageLength + k.cfg.extraLen + 2 + verifyOnly k cont ∧
  crcValid f (readSeed f k.cfg p cont) (ph.take (k.cfg.pageLength + k.cfg.extraLen + 2)) = true

/-- The data phases of the pages of a range read: the first is addressed unless the request continues, the others continue
(R210). -/
def rangeEvents (k : Bank) (cont : Bool) (echoed : List Byte) : List (Nat × List Byte) → List Event
  | [] => []
  | (p, ph) :: rest => pageEvents k p cont echoed ph ++ rangeEvents k true [] rest

/-- The page data of a range read's data phases, joined (R210). -/
def joinedData (k : Bank) (pages : List (Nat × List Byte)) : List Byte :=
  (pages.map fun g => slice g.2 0 k.cfg.pageLength).flatten

/-- Every data phase of a range read is valid. -/
def RangeValid (f : Checksum) (k : Bank) : Bool → List (Nat × List Byte) → Prop
  | _, [] => True
  | cont, (p, ph) :: rest => PageValid f k p cont ph ∧ RangeValid f k true rest

/-- The bytes of one byte of an echo write (41_plain_bank.md R176): the frame sent, the answer, the pulse where the bank needs one,
and the echoed byte. -/
def echoByteEvents (k : Bank) (sent got : List Byte) (e : Byte) : List Event :=
  exchangeEvent sent got :: (if needsProgramPulse k.cfg then [.call .programPulse .ok] else []) ++ [getEvent e]

/-- The bytes of an echo write after the first, each with the answer to its frame. -/
def echoRestEvents (k : Bank) : List (Byte × List Byte) → List Event
  | [] => []
  | (d, got) :: rest => echoByteEvents k [d, 0xFF, 0xFF] got d ++ echoRestEvents k rest

/-- An echo write of d0 and the bytes of `rest`. -/
def echoWriteEvents (k : Bank) (a : Half) (d0 : Byte) (got0 : List Byte) (rest : List (Byte × List Byte)) : List Event :=
  selectEvent k :: echoByteEvents k (sentPrefix k k.cfg.cmdWrite a ++ [d0, 0xFF, 0xFF]) got0 d0 ++ echoRestEvents k rest

/-- The check bytes of the echoed bytes after the first are valid (R176): three bytes answered, and the residue of the data byte
and the two check bytes from the seed of its address. -/
def EchoRestValid (f : Checksum) (k : Bank) : Half → List (Byte × List Byte) → Prop
  | _, [] => True
  | a, (d, got) :: rest =>
    got.length = 3 ∧ crcValid f (echoSeed k.cfg a) (d :: slice got 1 2) = true ∧ EchoRestValid f k (a + 1) rest

/-- The check bytes of an echo write's first byte are valid (R176): the checksum covers command, address and data byte, never the
credential. -/
def EchoFirstValid (f : Checksum) (k : Bank) (a : Half) (d0 : Byte) (got0 : List Byte) : Prop :=
  got0.length = (sentPrefix k k.cfg.cmdWrite a).length + 3 ∧
  crcValid f 0 (addressBytes k.cfg.cmdWrite a ++ d0 :: slice got0 ((sentPrefix k k.cfg.cmdWrite a).length + 1) 2) = true

/-- The bytes of a packet: the length byte n, the payload d, and the complement of their checksum from the page's seed, low byte first
(42_crc_bank.md R211, R214, 20_memory.md R74). -/
def packetBytes (f : Checksum) (k : BankConfig) (p : Half) (n : Byte) (d : List Byte) : List Byte :=
  n :: d ++ [(~~~ crc16 f (p + k.packetSeedOffset) (n :: d)).extractLsb' 0 8,
    (~~~ crc16 f (p + k.packetSeedOffset) (n :: d)).extractLsb' 8 8]

/-- A scratchpad read that answers `rx` after the command byte (44_scratchpad_commit.md R282). -/
def readSpEvents (k : Bank) (e : Byte) (rx : List Byte) : List Event :=
  [selectEvent k, exchangeEvent (k.cfg.cmdReadSp :: filler (k.cfg.spMetaLen + k.cfg.pageLength + 2)) (e :: rx)]

/-- The answer of a scratchpad read is valid (R282). -/
def ScratchpadValid (f : Checksum) (k : Bank) (rx : List Byte) : Prop :=
  rx.length = k.cfg.spMetaLen + k.cfg.pageLength + 2 ∧ crcValid f 0 (k.cfg.cmdReadSp :: rx) = true

/-- The metadata's last byte, the status byte of the copy (R284, R285). -/
def statusByte (k : Bank) (rx : List Byte) : Byte := (slice rx 0 k.cfg.spMetaLen).getD (k.cfg.spMetaLen - 1) 0

/-- The scratchpad data of an answer (R282). -/
def scratchpadData (k : Bank) (rx : List Byte) : List Byte := slice rx k.cfg.spMetaLen k.cfg.pageLength

/-- One segment's write: what the transport answers in its four steps. -/
structure SegmentRun where
  q : Nat
  ds : List Byte
  written : List Byte
  e : Byte
  rx : List Byte
  copied : List Byte
  confirm : Byte

/-- The four steps of a segment (R281 to R285). -/
def segmentEvents (k : Bank) (g : SegmentRun) : List Event :=
  [selectEvent k, exchangeEvent (addressBytes k.cfg.cmdWriteSp (deviceAddress k.cfg g.q) ++ g.ds) g.written] ++
  readSpEvents k g.e g.rx ++
  [selectEvent k, exchangeEvent (addressBytes k.cfg.cmdCopySp (deviceAddress k.cfg g.q)) g.copied] ++
  poweredTailEvents (statusByte k g.rx) k.cfg.tCopy ++ [getEvent g.confirm]

/-- A segment that succeeds: the answers have the lengths sent, the read-back is valid, it matches the data while WRITE_VERIFY is 1,
and the confirmation byte is not the erased sentinel. -/
def SegmentGood (f : Checksum) (k : Bank) (g : SegmentRun) : Prop :=
  g.written.length = 3 + g.ds.length ∧ ScratchpadValid f k g.rx ∧
  (k.writeVerify = true → scratchpadMatches k.cfg g.q g.ds (scratchpadData k g.rx) = true) ∧
  g.copied.length = 3 ∧ g.confirm ≠ 0xFF

/-- A page of the scratchpad read path: the recall where the bank needs one, then the scratchpad read (R286, R287). -/
structure SpPageRun where
  p : Nat
  recalled : List Byte
  e : Byte
  rx : List Byte

/-- The events of one page of the scratchpad read path. -/
def spPageEvents (k : Bank) (g : SpPageRun) : List Event :=
  (if k.cfg.hasRecall then
    [selectEvent k,
      exchangeEvent (addressBytes k.cfg.cmdRecall (deviceAddress k.cfg (g.p * k.cfg.pageLength))) g.recalled] else []) ++
  readSpEvents k g.e g.rx

/-- A page of the scratchpad read path that succeeds. -/
def SpPageGood (f : Checksum) (k : Bank) (g : SpPageRun) : Prop :=
  (k.cfg.hasRecall = true → g.recalled.length = 3) ∧ ScratchpadValid f k g.rx

/-! ### Requests -/

/-- ENGINE runs a request of client c (10_state.md R41). -/
def Busy (s : State) (c : Nat) : Prop := ∃ req n, s.engine = .busy c req n

/-- ENGINE runs a request of client c on bank index b, and k is that bank's context. -/
def Running (s : State) (c : Nat) (b : Byte) (k : Bank) : Prop := Busy s c ∧ s.bank? b.toNat = some k

/-- The requests that make transport calls (43_password_bank.md R250, 44_scratchpad_commit.md R289). -/
def touchesBus : Instr → Bool
  | .getSize _ => false
  | .getPageLength _ => false
  | .getMaxPacket _ => false
  | .getFlags _ => false
  | .getExtraLen _ => false
  | .read _ _ _ _ => true
  | .write _ _ _ => true
  | .readPage _ _ _ => true
  | .readPageExtra _ _ _ => true
  | .readPageCrc _ _ _ => true
  | .readPageCrcExtra _ _ _ => true
  | .readPagePacket _ _ _ => true
  | .writePagePacket _ _ _ => true
  | .setWriteVerify _ _ => false
  | .setPowered _ _ => false
  | .setCredRw _ _ => false
  | .setCredRo _ _ => false
  | .clearCreds _ => false
  | .acquire => false
  | .release => false

/-- The pointer a continuation of client c expects (42_crc_bank.md R204, R206, R210; 41_plain_bank.md R171); none where the request
is no continuation. -/
def continuationStart (c : Nat) (k : Bank) : Instr → Option ContPtr
  | .getSize _ => none
  | .getPageLength _ => none
  | .getMaxPacket _ => none
  | .getFlags _ => none
  | .getExtraLen _ => none
  | .read cont b a _ =>
    if cont then
      some (if k.cfg.hasNativeRead then ⟨c, b.toNat, .byte, a.toNat⟩
        else ⟨c, b.toNat, .page, pageOffset k.cfg (firstPage k.cfg a.toNat)⟩)
    else none
  | .write _ _ _ => none
  | .readPage cont b p =>
    if cont then
      some (if k.cfg.strategy = .plain then ⟨c, b.toNat, .byte, pageOffset k.cfg p.toNat⟩
        else ⟨c, b.toNat, .page, pageOffset k.cfg p.toNat⟩)
    else none
  | .readPageExtra cont b p => if cont then some ⟨c, b.toNat, .page, pageOffset k.cfg p.toNat⟩ else none
  | .readPageCrc cont b p => if cont then some ⟨c, b.toNat, .page, pageOffset k.cfg p.toNat⟩ else none
  | .readPageCrcExtra cont b p => if cont then some ⟨c, b.toNat, .page, pageOffset k.cfg p.toNat⟩ else none
  | .readPagePacket cont b p => if cont then some ⟨c, b.toNat, .page, pageOffset k.cfg p.toNat⟩ else none
  | .writePagePacket _ _ _ => none
  | .setWriteVerify _ _ => none
  | .setPowered _ _ => none
  | .setCredRw _ _ => none
  | .setCredRo _ _ => none
  | .clearCreds _ => none
  | .acquire => none
  | .release => none

/-- The response on client c's port. -/
def responseOf (s : State) (c : Nat) : Option Response := (s.port? c).bind Port.resp

/-- STATUS bits [3:0] of a response (10_state.md R47). -/
def statusCode (r : Response) : Nat := r.status.toNat % 16

/-- The codes of the bus-phase failures (60_exceptions.md R360, R361 (2)). -/
def busPhaseCode (n : Nat) : Bool := n == 1 || n == 2 || n == 3 || n == 4 || n == 7 || n == 8

/-- Whether the pull-up is on after an event, if it was `on` before it: a power start that answered Ok turns it on, a power-normal
call turns it off (40_transport_speed.md R147, R150). -/
def pullUpAfter (on : Bool) : Event → Bool
  | .call (.powerStart _) .ok => true
  | .call .powerNormal _ => false
  | _ => on

/-- Whether the pull-up is on after the events, if it was `on` before them. -/
def pullUp (on : Bool) (evs : List Event) : Bool := evs.foldl pullUpAfter on

/-- A speed-set or presence check (40_transport_speed.md R145, R146). -/
def speedTraffic : Event → Bool
  | .call (.setSpeed _) _ => true
  | .call (.isPresent _) _ => true
  | _ => false

/-- The error of the first check of a list that fails; `true` says that the check fails (60_exceptions.md R363, R364). -/
def firstFailure : List (Bool × Err) → Option Err
  | [] => none
  | (fails, e) :: rest => if fails then some e else firstFailure rest

/-- The checks of a request on bank index b; an index at or above NB is the last check of decode (30_encoding.md R106). -/
def withBank (s : State) (b : Byte) (checks : Bank → List (Bool × Err)) : List (Bool × Err) :=
  match s.bank? b.toNat with
  | some k => checks k
  | none => [(true, .unsupportedOperation)]

/-- C = 1 from a client that does not own the scope (R363, 5). -/
def scopeCheck (s : State) (c : Nat) (cont : Bool) : Bool × Err := (cont && s.owner != some c, .unsupportedOperation)

/-- A PASSWORD bank with no credential (R363, 6). -/
def credCheck (k : Bank) : Bool × Err := (k.cfg.strategy == .password && (!k.credRwValid && !k.credRoValid), .unsupportedOperation)

/-- A powered read without power (R363, 7). -/
def readPowerCheck (s : State) (k : Bank) : Bool × Err := (readPowered k && !s.canPower, .unsupportedOperation)

/-- The shared preconditions of the page reads on CRC and PASSWORD banks (42_crc_bank.md R206). -/
def pageReadChecks (s : State) (c : Nat) (cont : Bool) (k : Bank) (p : Half) : List (Bool × Err) :=
  [(decide (numPages k.cfg ≤ p.toNat), .outOfRange), scopeCheck s c cont, credCheck k, readPowerCheck s k]

/-- The precondition checks of every request, in the order of 60_exceptions.md R363, decode and eligibility left out. -/
def checksOf (s : State) (c : Nat) : Instr → List (Bool × Err)
  | .getSize b => withBank s b fun _ => []
  | .getPageLength b => withBank s b fun _ => []
  | .getMaxPacket b => withBank s b fun _ => []
  | .getFlags b => withBank s b fun _ => []
  | .getExtraLen b => withBank s b fun _ => []
  | .read cont b a l => withBank s b fun k =>
    [(cont && k.cfg.strategy == .scratchpad, .unsupportedOperation), (decide (k.cfg.size < a.toNat + l.toNat), .outOfRange),
     scopeCheck s c cont, credCheck k, readPowerCheck s k]
  | .write b a d => withBank s b fun k =>
    [(readOnly k.cfg, .unsupportedOperation), (decide (k.cfg.size < a.toNat + d.length), .outOfRange), credCheck k,
     ((needsPowerDelivery k.cfg || k.cfg.strategy == .scratchpad) && !s.canPower, .unsupportedOperation)]
  | .readPage cont b p => withBank s b fun k =>
    match k.cfg.strategy with
    | .plain => [(decide (numPages k.cfg ≤ p.toNat), .outOfRange), scopeCheck s c cont]
    | .crc => pageReadChecks s c cont k p
    | .password => pageReadChecks s c cont k p
    | .scratchpad => [(cont, .unsupportedOperation), (decide (numPages k.cfg ≤ p.toNat), .outOfRange)]
    | .reserved _ => [(true, .unsupportedOperation)]
  | .readPageExtra cont b p => withBank s b fun k =>
    (!hasExtraInfo k.cfg, .unsupportedOperation) :: pageReadChecks s c cont k p
  | .readPageCrc cont b p => withBank s b fun k =>
    (!hasPageAutoCrc k.cfg, .unsupportedOperation) :: pageReadChecks s c cont k p
  | .readPageCrcExtra cont b p => withBank s b fun k =>
    (!(hasPageAutoCrc k.cfg && hasExtraInfo k.cfg), .unsupportedOperation) :: pageReadChecks s c cont k p
  | .readPagePacket cont b p => withBank s b fun k =>
    (!crcStrategy k.cfg, .unsupportedOperation) :: pageReadChecks s c cont k p
  | .writePagePacket b p d => withBank s b fun k =>
    [(!crcStrategy k.cfg, .unsupportedOperation), (readOnly k.cfg, .unsupportedOperation),
     (decide (numPages k.cfg ≤ p.toNat), .outOfRange), (decide (maxPacket k.cfg < d.length), .outOfRange), credCheck k,
     (needsPowerDelivery k.cfg && !s.canPower, .unsupportedOperation)]
  | .setWriteVerify b a => withBank s b fun _ => [(decide (1 < a.toNat), .unsupportedOperation)]
  | .setPowered b a => withBank s b fun k =>
    [(k.cfg.strategy != .password, .unsupportedOperation), (decide (1 < a.toNat), .unsupportedOperation)]
  | .setCredRw b d => withBank s b fun k =>
    [(k.cfg.strategy != .password, .unsupportedOperation), (d.length != k.cfg.pwLen, .unsupportedOperation)]
  | .setCredRo b d => withBank s b fun k =>
    [(k.cfg.strategy != .password, .unsupportedOperation), (d.length != k.cfg.pwLen, .unsupportedOperation)]
  | .clearCreds b => withBank s b fun k => [(k.cfg.strategy != .password, .unsupportedOperation)]
  | .acquire => []
  | .release => [(s.owner != some c, .unsupportedOperation)]

/-- Every precondition check of the request passes. -/
def Passes (s : State) (c : Nat) (i : Instr) : Prop := firstFailure (checksOf s c i) = none

/-- The state after a bus-touching request of client c on bank b has completed with response r: the transcript has grown by `evs`,
whose answers are consumed; bank b is VERIFIED; CONT_PTR is `ptr`; HAZARD is set if the continuation did not match; the response is
delivered and ENGINE is IDLE. Nothing else has changed. -/
def completed (s : State) (c b : Nat) (evs : List Event) (ptr : Option ContPtr) (mismatch : Bool) (r : Response) : State :=
  { s with
    banks := s.banks.modify b (fun k => { k with speed := .verified })
    ports := s.ports.modify c (fun p => { p with resp := some r })
    contPtr := ptr
    hazard := s.hazard || mismatch
    engine := .idle
    pwrActive := false
    transcript := s.transcript ++ evs
    answers := s.answers.drop (answersOf evs).length
    draws := s.draws + (answersOf evs).length }

/-- The state after a bus-touching request of client c on bank b has failed with error e after the events `evs`: as `completed`,
but bank b is STALE, CONT_PTR is none, and the response carries the code, the credential hint and no data. -/
def failed (s : State) (c b : Nat) (k : Bank) (evs : List Event) (mismatch : Bool) (e : Err) : State :=
  { s with
    banks := s.banks.modify b (fun k => { k with speed := .stale })
    ports := s.ports.modify c (fun p => { p with resp := some (errResponse e (credHint (some k) e)) })
    contPtr := none
    hazard := s.hazard || mismatch
    engine := .idle
    pwrActive := false
    transcript := s.transcript ++ evs
    answers := s.answers.drop (answersOf evs).length
    draws := s.draws + (answersOf evs).length }

/-- The bytes `out`, which request i writes with echo from device address a on, stop at the first byte that fails (41_plain_bank.md
R176): ChecksumMismatch on its residue, else EchoMismatch on its echo; the bytes after it are not sent. -/
def EchoWriteFails (s : State) (c : Nat) (b : Byte) (k : Bank) (i : Instr) (a : Half) (out : List Byte) : Prop :=
  ∀ (d0 : Byte) (got0 pre : List Byte) (evs : List Event),
    pre = sentPrefix k k.cfg.cmdWrite a → got0.length = pre.length + 3 → Answering s evs →
    (∀ rest : List Byte, out = d0 :: rest →
      (¬ EchoFirstValid s.crc k a d0 got0 →
        evs = speedEvents k ++ [selectEvent k, exchangeEvent (pre ++ [d0, 0xFF, 0xFF]) got0] →
        exec i s = .next (failed s c b.toNat k evs false .checksumMismatch)) ∧
      (∀ echo : Byte, EchoFirstValid s.crc k a d0 got0 → echo ≠ d0 →
        evs = speedEvents k ++ selectEvent k :: echoByteEvents k (pre ++ [d0, 0xFF, 0xFF]) got0 echo →
        exec i s = .next (failed s c b.toNat k evs false .echoMismatch))) ∧
    (∀ (good : List (Byte × List Byte)) (d : Byte) (got later : List Byte), out = d0 :: good.map Prod.fst ++ d :: later →
      EchoFirstValid s.crc k a d0 got0 → EchoRestValid s.crc k (a + 1) good → got.length = 3 →
      (crcValid s.crc (echoSeed k.cfg (a + 1 + BitVec.ofNat 16 good.length)) (d :: slice got 1 2) = false →
        evs = speedEvents k ++ echoWriteEvents k a d0 got0 good ++ [exchangeEvent [d, 0xFF, 0xFF] got] →
        exec i s = .next (failed s c b.toNat k evs false .checksumMismatch)) ∧
      (∀ echo : Byte, crcValid s.crc (echoSeed k.cfg (a + 1 + BitVec.ofNat 16 good.length)) (d :: slice got 1 2) = true →
        echo ≠ d →
        evs = speedEvents k ++ echoWriteEvents k a d0 got0 good ++ echoByteEvents k [d, 0xFF, 0xFF] got echo →
        exec i s = .next (failed s c b.toNat k evs false .echoMismatch)))

/-- A continuation that does not start where CONT_PTR stands (R204 (2)). -/
def mismatched (s : State) (cont : Bool) (want : ContPtr) : Bool := cont && s.contPtr != some want

/-- Only the response is delivered and ENGINE returns to IDLE: the end of a request that changes nothing else. -/
def answered (s : State) (c : Nat) (r : Response) : State :=
  { s with ports := s.ports.modify c (fun p => { p with resp := some r }), engine := .idle }

/-- A precondition failure: UnsupportedOperation or OutOfRange, and nothing else (60_exceptions.md R361 (1)). -/
def turnedAway (s : State) (c : Nat) (e : Err) : State := answered s c ⟨errCode e, 0, [], []⟩

/-! ### The invariant -/

/-- What holds of every state between and inside steps of a block with an admitted configuration. -/
structure Inv (s : State) : Prop where
  /-- OWNER is none or a client id in [0, NC) (10_state.md R38). -/
  owner : ∀ c, s.owner = some c → c < s.nc
  /-- ENGINE holds a client id in [0, NC) (R41). -/
  engine : ∀ c req n, s.engine = .busy c req n → c < s.nc
  /-- CONT_PTR names a client, a bank that is VERIFIED and no SCRATCHPAD bank, and an offset in [0, SIZE] (R39, R205, R287). -/
  cont : ∀ p, s.contPtr = some p → p.client < s.nc ∧
    ∃ k, s.bank? p.bank = some k ∧ k.speed = .verified ∧ k.cfg.strategy ≠ .scratchpad ∧ p.off ≤ k.cfg.size
  /-- POWERED stays 0 on banks other than PASSWORD (R36). -/
  powered : ∀ b k, s.bank? b = some k → k.powered = true → k.cfg.strategy = .password
  /-- A valid credential belongs to a PASSWORD bank and has PW_LEN bytes (R37). -/
  creds : ∀ b k, s.bank? b = some k →
    (k.credRwValid = true → k.cfg.strategy = .password ∧ k.credRw.length = k.cfg.pwLen) ∧
    (k.credRoValid = true → k.cfg.strategy = .password ∧ k.credRo.length = k.cfg.pwLen)
  /-- `pwr_active` is false between requests: the model's choice, log 12 (10_state.md R42 leaves the value open there). -/
  power : s.pwrActive = false
  /-- Every event of the transcript has an answer of its call's type (R140, R142). -/
  events : ∀ e ∈ s.transcript, wellTyped e = true

end Sys2Proof.Machine
end

