-- ==== Sys2Proof/Certificates/Slice0/Obligations.lean ====
section
/-! DEFINITION. The statements for the provers. Each docstring names the rules of spec/ it formalises. -/

open Sys2Proof Sys2Proof.Machine

/-! ### Encoding -/

/-- 30_encoding.md R101, R103, R106 on request words written out from 95_test_vectors.md and R108. -/
def Obligations.SampleWordsDecode : Prop :=
  decode 6 ⟨0x00010001, 0, 0, []⟩ = .ok (.getSize 1) ∧
  decode 6 ⟨0x00010010, 0, 8, []⟩ = .ok (.read false 1 0 8) ∧
  decode 6 ⟨0x00010011, 0, 2, [0x01, 0x02]⟩ = .ok (.write 1 0 [0x01, 0x02]) ∧
  decode 6 ⟨0x00000122, 1, 0, []⟩ = .ok (.readPageCrc true 0 1) ∧
  decode 6 ⟨0x00000025, 0, 2, [0x68, 0x69]⟩ = .ok (.writePagePacket 0 0 [0x68, 0x69]) ∧
  decode 6 ⟨0x00020031, 1, 0, []⟩ = .ok (.setPowered 2 1) ∧
  decode 6 ⟨0x00000041, 0, 0, []⟩ = .ok .release ∧
  decode 6 ⟨0x00000006, 0, 0, []⟩ = .error .unlistedOpcode ∧
  decode 6 ⟨0x00000220, 0, 0, []⟩ = .error .reservedBits ∧
  decode 6 ⟨0x00060001, 0, 0, []⟩ = .error .bankOutOfRange

/-- 30_encoding.md R106, R108: decoding gives back every well-formed request, with every operand at every value. -/
def Obligations.DecodeOfEncode : Prop :=
  ∀ (nb : Nat) (i : Instr), i.wellFormed nb = true → decode nb (encode i) = .ok i

/-- 30_encoding.md R104, R106: which requests decode, and to what. -/
def Obligations.DecodeExactly : Prop :=
  ∀ (nb : Nat) (r : Request) (i : Instr), decode nb r = .ok i ↔
    ∃ op : Opcode,
      r.w &&& (if op.takesContinue then 0xFF00FEFF#32 else 0xFF00FFFF#32) = op.code.setWidth 32 ∧
      (if op.takesData then r.d.length = r.l.toNat else r.d = []) ∧
      (op.namesBank = true → (fieldBank r.w).toNat < nb) ∧
      i = op.build (fieldC r.w) (fieldBank r.w) r.a r.l r.d

/-- 30_encoding.md R102, R106, R108: what decodes is well-formed; its encoding has the same word but for the ignored BANK of ACQUIRE
and RELEASE, the same D, and the same L where D is taken; and decodes to the same. So an operand that the decoder drops is one that
the opcode ignores. -/
def Obligations.EncodeOfDecode : Prop :=
  ∀ (nb : Nat) (r : Request) (i : Instr), decode nb r = .ok i →
    i.wellFormed nb = true ∧ (encode i).d = r.d ∧ (i ≠ .acquire → i ≠ .release → (encode i).w = r.w) ∧
    (i.opcode.takesData = true → (encode i).l = r.l) ∧ decode nb (encode i) = .ok i

/-! ### The request loop -/

/-- 45_config_scope_ops.md R328: a request just taken runs the rule it decodes to; one that does not decode is answered with
UnsupportedOperation and changes nothing else (30_encoding.md R106). -/
def Obligations.StepRunsDecoded : Prop :=
  ∀ (s : State) (c : Nat) (req : Request), s.admitted = true → s.engine = .busy c req 0 →
    (∀ i, decode s.nb req = .ok i → step s = exec i s) ∧
    (∀ e, decode s.nb req = .error e → step s = .next (turnedAway s c .unsupportedOperation))

/-- 45_config_scope_ops.md R328: with ENGINE IDLE and the move to take client c, whose pending request is eligible, the step clears
PENDING[c], makes ENGINE BUSY(c, req, 0) and runs the decoded request, or answers one that does not decode. -/
def Obligations.StepTakesAndRuns : Prop :=
  ∀ (s : State) (c : Nat) (req : Request) (resp : Option Response) (rest : List Move),
    s.admitted = true → s.engine = .idle → s.schedule = .take c :: rest → s.port? c = some ⟨some req, resp⟩ →
    (s.owner = none ∨ s.owner = some c ∨ req.w.extractLsb' 0 8 = 0x41#8) →
    let taken : State := { s with
      schedule := rest
      ports := s.ports.modify c (fun p => { p with pending := none })
      engine := .busy c req 0 }
    (∀ i, decode s.nb req = .ok i → step s = exec i taken) ∧
    (∀ e, decode s.nb req = .error e → step s = .next (turnedAway taken c .unsupportedOperation))

/-- The model's choice (log 5): a request placed by `withFetchWord` is the one that the next step runs. -/
def Obligations.PlacedWordRunsNext : Prop :=
  ∀ (s : State) (nbits w : Nat) (i : Instr), s.admitted = true → fetchClient s < s.nc →
    decode s.nb (requestOfBits nbits w) = .ok i →
    step (s.withFetchWord nbits w) = exec i { s with
      ports := s.ports.modify (fetchClient s) (fun _ => ⟨none, none⟩)
      engine := .busy (fetchClient s) (requestOfBits nbits w) 0 }

/-- 10_state.md R43 and 45_config_scope_ops.md R328: a client writes PENDING[c] only when it is none and RESP[c] has been consumed; it
consumes RESP[c]; a request that is not eligible is held: it stays in PENDING[c] and gets no response. -/
def Obligations.IdleMoves : Prop :=
  ∀ (s : State) (c : Nat) (rest : List Move), s.admitted = true → s.engine = .idle →
    (∀ req, s.schedule = .issue c req :: rest → s.port? c = some ⟨none, none⟩ →
      step s = .next { s with schedule := rest, ports := s.ports.modify c (fun _ => ⟨some req, none⟩) }) ∧
    (∀ req p, s.schedule = .issue c req :: rest → s.port? c = some p → p ≠ ⟨none, none⟩ →
      step s = .next { s with schedule := rest }) ∧
    (s.schedule = .consume c :: rest →
      step s = .next { s with schedule := rest, ports := s.ports.modify c (fun p => { p with resp := none }) }) ∧
    (∀ req resp o, s.schedule = .take c :: rest → s.port? c = some ⟨some req, resp⟩ → s.owner = some o → o ≠ c →
      req.w.extractLsb' 0 8 ≠ 0x41#8 → step s = .next { s with schedule := rest })

/-- 20_memory.md R83, 45_config_scope_ops.md R331 (2): while a client owns the scope, every other client's pending request except
RELEASE stays pending through every step. -/
def Obligations.ScopeExcludesOthers : Prop :=
  ∀ (s t : State) (o c : Nat) (req : Request) (resp : Option Response),
    s.engine = .idle → s.owner = some o → c ≠ o → s.port? c = some ⟨some req, resp⟩ → req.w.extractLsb' 0 8 ≠ 0x41#8 →
    step s = .next t → ∃ resp', t.port? c = some ⟨some req, resp'⟩ ∧ (resp' = resp ∨ resp' = none)

/-- 45_config_scope_ops.md R328, R329, R331 (3): which eligible request runs next is open, and with no fairness it may be none. That the
choice is made past the end of the schedule, by a free value that is counted in `draws`, is the model's choice (log 4): there a step
waits if the value chooses none, and else takes the chosen client's eligible request, PENDING cleared and ENGINE BUSY, and runs it;
some value chooses none, and for every eligible client some value chooses it. -/
def Obligations.SchedulerTakesEligible : Prop :=
  ∀ s : State, s.admitted = true → s.engine = .idle → s.schedule = [] →
    (chooseClient (Config.freeChoice s.draws) s = none ∧ step s = .next { s with draws := s.draws + 1 } ∨
     ∃ c req resp, chooseClient (Config.freeChoice s.draws) s = some c ∧ s.port? c = some ⟨some req, resp⟩ ∧
      eligible s c req = true ∧
      step s = runTaken { s with
        draws := s.draws + 1
        ports := s.ports.modify c (fun p => { p with pending := none })
        engine := .busy c req 0 }) ∧
    (∃ v, chooseClient v s = none) ∧
    (∀ c req resp, s.port? c = some ⟨some req, resp⟩ → eligible s c req = true → ∃ v, chooseClient v s = some c)

/-- 00_scope.md R7: a configuration that fails a check is refused. -/
def Obligations.UnadmittedRefused : Prop :=
  ∀ (s : State) (k : Bank), k ∈ s.banks →
    (¬ (1 ≤ k.cfg.size ∧ 1 ≤ k.cfg.pageLength ∧ k.cfg.size % k.cfg.pageLength = 0 ∧ k.cfg.startPhys + k.cfg.size ≤ 65536) ∨
     ¬ (k.cfg.strategy = .crc ∨ k.cfg.strategy = .password → 3 + k.cfg.extraLen ≤ k.cfg.pageLength) ∨
     ¬ (readOnly k.cfg = true → readWrite k.cfg = false ∧ writeOnce k.cfg = false) ∨
     ¬ (hasExtraInfo k.cfg = true → (k.cfg.strategy = .crc ∨ k.cfg.strategy = .password) ∧ 1 ≤ k.cfg.extraLen) ∨
     ¬ (hasExtraInfo k.cfg = false → k.cfg.extraLen = 0) ∨
     ¬ (hasPageAutoCrc k.cfg = true ↔ k.cfg.strategy = .crc ∨ k.cfg.strategy = .password) ∨
     ¬ (k.cfg.strategy = .plain → k.cfg.hasNativeRead = true) ∨
     ¬ (k.cfg.strategy = .scratchpad → k.cfg.echoWrite = false ∧ 1 ≤ k.cfg.spMetaLen) ∨
     ¬ (k.cfg.strategy = .password → 1 ≤ k.cfg.pwLen) ∨
     ¬ (needsProgramPulse k.cfg = true → k.cfg.echoWrite = true) ∨
     strategyCode k.cfg.strategy = 4) →
    step s = .refused .configNotAdmitted

/-- 00_scope.md R6, R7, 10_state.md R33: exactly which configurations are admitted. That the ranges of R6 and the reserved strategies
belong to admission is the model's reading (log 17). -/
def Obligations.AdmittedExactly : Prop :=
  ∀ s : State, step s ≠ .refused .configNotAdmitted ↔
    (1 ≤ s.banks.length ∧ s.banks.length ≤ 256 ∧ 1 ≤ s.ports.length ∧ ∀ k ∈ s.banks,
      1 ≤ k.cfg.size ∧ k.cfg.size ≤ 65536 ∧ 1 ≤ k.cfg.pageLength ∧ k.cfg.pageLength ≤ k.cfg.size ∧
      k.cfg.extraLen ≤ 255 ∧ k.cfg.nvb ≤ 255 ∧ 1 ≤ k.cfg.spMetaLen ∧ k.cfg.spMetaLen ≤ 255 ∧
      1 ≤ k.cfg.pwLen ∧ k.cfg.pwLen ≤ 255 ∧ k.cfg.pwPoweredVerifyBytes ≤ 255 ∧
      k.cfg.size % k.cfg.pageLength = 0 ∧ k.cfg.startPhys + k.cfg.size ≤ 65536 ∧
      (k.cfg.strategy = .crc ∨ k.cfg.strategy = .password → 3 + k.cfg.extraLen ≤ k.cfg.pageLength) ∧
      (readOnly k.cfg = true → readWrite k.cfg = false ∧ writeOnce k.cfg = false) ∧
      (hasExtraInfo k.cfg = true → (k.cfg.strategy = .crc ∨ k.cfg.strategy = .password) ∧ 1 ≤ k.cfg.extraLen) ∧
      (hasExtraInfo k.cfg = false → k.cfg.extraLen = 0) ∧
      (hasPageAutoCrc k.cfg = true ↔ k.cfg.strategy = .crc ∨ k.cfg.strategy = .password) ∧
      (k.cfg.strategy = .plain → k.cfg.hasNativeRead = true) ∧
      (k.cfg.strategy = .scratchpad → k.cfg.echoWrite = false) ∧
      (needsProgramPulse k.cfg = true → k.cfg.echoWrite = true) ∧
      ∀ v, k.cfg.strategy ≠ .reserved v)

/-! ### Reset and the invariant -/

/-- 70_reset_and_hazards.md R401: the reset value of every register that has one, for every configuration. -/
def Obligations.ResetValues : Prop :=
  ∀ (cfg : BlockConfig) (s : State), s = State.resetWith cfg →
    s.canPower = cfg.canPower ∧ s.crc = cfg.crc ∧ s.banks.map Bank.cfg = cfg.banks ∧
    (∀ k ∈ s.banks, k.speed = .stale ∧ k.writeVerify = true ∧ k.powered = false ∧ k.credRwValid = false ∧
      k.credRoValid = false) ∧
    s.owner = none ∧ s.contPtr = none ∧ s.hazard = false ∧ s.engine = .idle ∧
    s.ports.length = cfg.clients ∧ ∀ p ∈ s.ports, p.pending = none ∧ p.resp = none

/-- The invariant holds after construction with any configuration (10_state.md R36 to R41, 70_reset_and_hazards.md R401). Its clause
`power`, that `pwr_active` is false at reset, is the model's choice (log 12): the spec leaves that value open. -/
def Obligations.ResetHasInv : Prop := ∀ cfg : BlockConfig, Inv (State.resetWith cfg)

/-- Every step keeps the invariant (10_state.md R36 to R41, 42_crc_bank.md R205). Its clause `power`, that `pwr_active` is false between
requests, is the model's choice (log 12): 10_state.md R42 leaves that value open. -/
def Obligations.StepKeepsInv : Prop := ∀ s t : State, Inv s → step s = .next t → Inv t

/-! ### What holds of every request -/

/-- 45_config_scope_ops.md R331 (1), 10_state.md R41: every request that the engine runs ends in exactly one response, delivered to its
own client, with ENGINE IDLE; the transcript only grows; configuration, schedule and every other port stay. -/
def Obligations.AnsweredOnce : Prop :=
  ∀ (i : Instr) (s : State) (c : Nat), Busy s c →
    ∃ (t : State) (r : Response) (evs : List Event), exec i s = .next t ∧
      t.ports = s.ports.modify c (fun p => { p with resp := some r }) ∧ t.engine = .idle ∧
      t.transcript = s.transcript ++ evs ∧ t.answers = s.answers.drop (answersOf evs).length ∧ t.schedule = s.schedule ∧
      t.canPower = s.canPower ∧ t.crc = s.crc ∧ t.banks.map Bank.cfg = s.banks.map Bank.cfg

/-- 10_state.md R47, 30_encoding.md R105 and R107 (e): codes 9 to 15 and STATUS bits [7:5] are never produced; on an error V = 0 and R
and X are empty. -/
def Obligations.StatusWellFormed : Prop :=
  ∀ (i : Instr) (s t : State) (c : Nat) (r : Response), Busy s c → c < s.nc → exec i s = .next t →
    responseOf t c = some r →
    statusCode r ≤ 8 ∧ r.status.extractLsb' 5 3 = 0#3 ∧ (r.status ≠ 0 → r.v = 0 ∧ r.r = [] ∧ r.x = [])

/-- 43_password_bank.md R254: CRED_HINT, STATUS bit 4, exactly. -/
def Obligations.CredHintExactly : Prop :=
  ∀ (i : Instr) (s t : State) (c : Nat) (r : Response), Busy s c → c < s.nc → exec i s = .next t →
    responseOf t c = some r →
    (r.status.getLsbD 4 = true ↔
      (∃ b k, i.bank? = some b ∧ s.bank? b.toNat = some k ∧ k.cfg.strategy = .password) ∧
      (statusCode r = 2 ∨ statusCode r = 3 ∨ statusCode r = 4))

/-- 60_exceptions.md R361 (1), R363: the first precondition that fails gives the code, and nothing else changes: no transport call,
no register. -/
def Obligations.PreconditionFailures : Prop :=
  ∀ (i : Instr) (s : State) (c : Nat) (e : Err), Busy s c → firstFailure (checksOf s c i) = some e →
    exec i s = .next (turnedAway s c e)

/-- 60_exceptions.md R361: a request whose preconditions pass raises neither OutOfRange nor UnsupportedOperation, and a bus-phase code
comes only after a transport call. -/
def Obligations.NoLatePrecondition : Prop :=
  ∀ (i : Instr) (s t : State) (c : Nat) (r : Response), Busy s c → c < s.nc → exec i s = .next t →
    responseOf t c = some r →
    (Passes s c i → statusCode r ≠ 5 ∧ statusCode r ≠ 6) ∧
    (busPhaseCode (statusCode r) = true → Passes s c i ∧ t.transcript ≠ s.transcript)

/-- 60_exceptions.md R362: taking an exception. After a bus-phase failure the bank is STALE, CONT_PTR is none, the pull-up is off, the
response carries the code, the hint and no data, and nothing else has changed but the transcript, the answers drawn and perhaps
HAZARD. -/
def Obligations.BusPhaseFailureAborts : Prop :=
  ∀ (i : Instr) (s t : State) (c : Nat) (r : Response), Busy s c → c < s.nc → exec i s = .next t →
    responseOf t c = some r → busPhaseCode (statusCode r) = true →
    ∃ (b : Byte) (k : Bank) (evs : List Event) (mismatch : Bool) (e : Err),
      i.bank? = some b ∧ s.bank? b.toNat = some k ∧ evs ≠ [] ∧ busPhase e = true ∧
      t = failed s c b.toNat k evs mismatch e

/-- 40_transport_speed.md R154, 70_reset_and_hazards.md R409: SPEED_STATE changes only on the request's own bank: to STALE only with a
bus-phase failure, to VERIFIED only after a speed-set answered Ok and a presence check answered true. -/
def Obligations.SpeedStateTransitions : Prop :=
  ∀ (i : Instr) (s t : State) (c j : Nat) (k k' : Bank) (r : Response), Busy s c → c < s.nc → exec i s = .next t →
    responseOf t c = some r → s.bank? j = some k → t.bank? j = some k' → k'.speed ≠ k.speed →
    (∃ b, i.bank? = some b ∧ b.toNat = j) ∧
    (k'.speed = .stale → busPhaseCode (statusCode r) = true) ∧
    (k'.speed = .verified → ∃ evs, t.transcript = s.transcript ++
      .call (.setSpeed k.cfg.desiredSpeed) .ok :: .call (.isPresent k.cfg.devAddr) (.truth true) :: evs)

/-- 40_transport_speed.md R152, R155: a request that makes transport calls begins with the speed traffic of a STALE bank, exactly once;
a request on a VERIFIED bank makes no speed traffic. -/
def Obligations.SpeedTrafficFirst : Prop :=
  ∀ (i : Instr) (s t : State) (c : Nat) (b : Byte) (k : Bank) (evs : List Event), Running s c b k → i.bank? = some b →
    exec i s = .next t → t.transcript = s.transcript ++ evs → evs ≠ [] →
    (k.speed = .verified → ∀ e ∈ evs, speedTraffic e = false) ∧
    (k.speed = .stale → ∃ a rest, evs = .call (.setSpeed k.cfg.desiredSpeed) a :: rest ∧
      (rest ≠ [] → a = .ok ∧ ∃ a' rest', rest = .call (.isPresent k.cfg.devAddr) a' :: rest' ∧
        (rest' ≠ [] → a' = .truth true) ∧ ∀ e ∈ rest', speedTraffic e = false))

/-- 40_transport_speed.md R151, 60_exceptions.md R364, R365: a failing answer ends the request with DeviceNotPresent; after it there is at
most the power-normal call of the abort procedure. DeviceNotPresent comes from a failing answer only. -/
def Obligations.FailedAnswerEnds : Prop :=
  ∀ (i : Instr) (s t : State) (c : Nat) (r : Response) (evs : List Event), Busy s c → c < s.nc → exec i s = .next t →
    responseOf t c = some r → t.transcript = s.transcript ++ evs →
    (∀ pre call a post, evs = pre ++ .call call a :: post → a.failed = true →
      statusCode r = 1 ∧ (post = [] ∨ ∃ a', post = [.call .powerNormal a'])) ∧
    (statusCode r = 1 → ∃ call a, .call call a ∈ evs ∧ a.failed = true)

/-- 60_exceptions.md R362 (c), 70_reset_and_hazards.md R407 (c): whatever the transport answers, a request leaves no pull-up on. -/
def Obligations.PullUpReleased : Prop :=
  ∀ (i : Instr) (s t : State) (c : Nat) (evs : List Event), Busy s c → exec i s = .next t →
    t.transcript = s.transcript ++ evs → pullUp false evs = false

/-- 10_state.md R40, 42_crc_bank.md R204: HAZARD is sticky, and set only by a continuation of the scope's owner that does not start
where CONT_PTR stands. -/
def Obligations.HazardOnlyByMismatch : Prop :=
  ∀ (i : Instr) (s t : State) (c : Nat), Busy s c → exec i s = .next t →
    (s.hazard = true → t.hazard = true) ∧
    (t.hazard = true → s.hazard = true ∨ ∃ b k w, i.bank? = some b ∧ s.bank? b.toNat = some k ∧
      continuationStart c k i = some w ∧ s.contPtr ≠ some w ∧ s.owner = some c)

/-- 10_state.md R31, R35 to R38: which requests write which registers. -/
def Obligations.RegisterWriters : Prop :=
  ∀ (i : Instr) (s t : State) (c : Nat), Busy s c → exec i s = .next t →
    (t.owner ≠ s.owner → i = .acquire ∨ i = .release) ∧
    ∀ (j : Nat) (k k' : Bank), s.bank? j = some k → t.bank? j = some k' →
      k'.cfg = k.cfg ∧
      (k'.writeVerify ≠ k.writeVerify → ∃ b a, i = .setWriteVerify b a ∧ b.toNat = j) ∧
      (k'.powered ≠ k.powered → ∃ b a, i = .setPowered b a ∧ b.toNat = j) ∧
      ((k'.credRw, k'.credRwValid) ≠ (k.credRw, k.credRwValid) →
        ∃ b, b.toNat = j ∧ (i = .clearCreds b ∨ ∃ d, i = .setCredRw b d)) ∧
      ((k'.credRo, k'.credRoValid) ≠ (k.credRo, k.credRoValid) →
        ∃ b, b.toNat = j ∧ (i = .clearCreds b ∨ ∃ d, i = .setCredRo b d))

/-- The frame of the requests that touch the bus (41_plain_bank.md R172 to R174, 42_crc_bank.md R206 to R209, R212, R213,
44_scratchpad_commit.md R288, each under "State written"): they write SPEED_STATE of their bank, CONT_PTR, HAZARD, the response and
ENGINE, draw answers, and nothing else. -/
def Obligations.BusRequestFrame : Prop :=
  ∀ (i : Instr) (s t : State) (c : Nat) (b : Byte), Busy s c → touchesBus i = true → i.bank? = some b →
    exec i s = .next t →
    ∃ (v : SpeedState) (ptr : Option ContPtr) (hz pw : Bool) (evs : List Event) (r : Response),
      t = { s with
        banks := s.banks.modify b.toNat (fun k => { k with speed := v })
        ports := s.ports.modify c (fun p => { p with resp := some r })
        contPtr := ptr
        hazard := hz
        engine := .idle
        pwrActive := pw
        transcript := s.transcript ++ evs
        answers := s.answers.drop (answersOf evs).length
        draws := s.draws + (answersOf evs).length }

/-- 40_transport_speed.md R155, 43_password_bank.md (section 4), 45_config_scope_ops.md (head): the other requests make no transport call
and change no SPEED_STATE and no HAZARD; only ACQUIRE and RELEASE change CONT_PTR. -/
def Obligations.QuietRequestFrame : Prop :=
  ∀ (i : Instr) (s t : State) (c : Nat), Busy s c → touchesBus i = false → exec i s = .next t →
    t.transcript = s.transcript ∧ t.answers = s.answers ∧ t.hazard = s.hazard ∧ t.pwrActive = s.pwrActive ∧
    t.banks.map Bank.speed = s.banks.map Bank.speed ∧
    (t.contPtr ≠ s.contPtr → i = .acquire ∨ i = .release)

/-! ### Requests that make no transport call -/

/-- 45_config_scope_ops.md R320 to R324, 00_scope.md R6: the five queries complete on every bank and answer the configuration register in
V, zero-extended. -/
def Obligations.QueriesAnswer : Prop :=
  ∀ (s : State) (c : Nat) (b : Byte) (k : Bank), Running s c b k →
    exec (.getSize b) s = .next (answered s c ⟨0, BitVec.ofNat 32 k.cfg.size, [], []⟩) ∧
    exec (.getPageLength b) s = .next (answered s c ⟨0, BitVec.ofNat 32 k.cfg.pageLength, [], []⟩) ∧
    exec (.getMaxPacket b) s =
      .next (answered s c ⟨0, BitVec.ofNat 32 (k.cfg.pageLength - (3 + k.cfg.extraLen)), [], []⟩) ∧
    exec (.getFlags b) s = .next (answered s c ⟨0, k.cfg.flags.setWidth 32, [], []⟩) ∧
    exec (.getExtraLen b) s = .next (answered s c ⟨0, BitVec.ofNat 32 k.cfg.extraLen, [], []⟩)

/-- 45_config_scope_ops.md R325. -/
def Obligations.SetWriteVerifyWrites : Prop :=
  ∀ (s : State) (c : Nat) (b : Byte) (a : Half) (k : Bank), Running s c b k →
    (a.extractLsb' 1 15 = 0#15 → exec (.setWriteVerify b a) s = .next (answered
      { s with banks := s.banks.modify b.toNat (fun k => { k with writeVerify := a.getLsbD 0 }) } c ⟨0, 0, [], []⟩)) ∧
    (a.extractLsb' 1 15 ≠ 0#15 → exec (.setWriteVerify b a) s = .next (turnedAway s c .unsupportedOperation))

/-- 43_password_bank.md R258. -/
def Obligations.SetPoweredWrites : Prop :=
  ∀ (s : State) (c : Nat) (b : Byte) (a : Half) (k : Bank), Running s c b k →
    (k.cfg.strategy = .password → a.extractLsb' 1 15 = 0#15 → exec (.setPowered b a) s = .next (answered
      { s with banks := s.banks.modify b.toNat (fun k => { k with powered := a.getLsbD 0 }) } c ⟨0, 0, [], []⟩)) ∧
    (k.cfg.strategy ≠ .password ∨ a.extractLsb' 1 15 ≠ 0#15 →
      exec (.setPowered b a) s = .next (turnedAway s c .unsupportedOperation))

/-- 43_password_bank.md R255, R256. -/
def Obligations.SetCredWrites : Prop :=
  ∀ (s : State) (c : Nat) (b : Byte) (d : List Byte) (k : Bank), Running s c b k →
    (k.cfg.strategy = .password → d.length = k.cfg.pwLen →
      exec (.setCredRw b d) s = .next (answered { s with
        banks := s.banks.modify b.toNat (fun k => { k with credRw := d, credRwValid := true }) } c ⟨0, 0, [], []⟩) ∧
      exec (.setCredRo b d) s = .next (answered { s with
        banks := s.banks.modify b.toNat (fun k => { k with credRo := d, credRoValid := true }) } c ⟨0, 0, [], []⟩)) ∧
    (k.cfg.strategy ≠ .password ∨ d.length ≠ k.cfg.pwLen →
      exec (.setCredRw b d) s = .next (turnedAway s c .unsupportedOperation) ∧
      exec (.setCredRo b d) s = .next (turnedAway s c .unsupportedOperation))

/-- 43_password_bank.md R257: both valid bits are cleared; the contents become unspecified, so the statement says only that there are
some, of PW_LEN bytes (log 11). -/
def Obligations.ClearCredsForgets : Prop :=
  ∀ (s : State) (c : Nat) (b : Byte) (k : Bank), Running s c b k →
    (k.cfg.strategy = .password → ∃ rw ro : List Byte, rw.length = k.cfg.pwLen ∧ ro.length = k.cfg.pwLen ∧
      exec (.clearCreds b) s = .next (answered { s with
        banks := s.banks.modify b.toNat
          (fun k => { k with credRw := rw, credRo := ro, credRwValid := false, credRoValid := false })
        draws := s.draws + 2 } c ⟨0, 0, [], []⟩)) ∧
    (k.cfg.strategy ≠ .password → exec (.clearCreds b) s = .next (turnedAway s c .unsupportedOperation))

/-- 45_config_scope_ops.md R326: ACQUIRE of a free scope takes it and clears CONT_PTR; by the owner it changes nothing. -/
def Obligations.AcquireTakesScope : Prop :=
  ∀ (s : State) (c : Nat), Busy s c →
    (s.owner = none → exec .acquire s = .next (answered { s with owner := some c, contPtr := none } c ⟨0, 0, [], []⟩)) ∧
    (s.owner = some c → exec .acquire s = .next (answered s c ⟨0, 0, [], []⟩))

/-- 45_config_scope_ops.md R327: RELEASE by the owner ends the scope and clears CONT_PTR; by any other client it fails and changes
nothing. -/
def Obligations.ReleaseEndsScope : Prop :=
  ∀ (s : State) (c : Nat), Busy s c →
    (s.owner = some c → exec .release s = .next (answered { s with owner := none, contPtr := none } c ⟨0, 0, [], []⟩)) ∧
    (s.owner ≠ some c → exec .release s = .next (turnedAway s c .unsupportedOperation))

/-- 41_plain_bank.md R172 and R174, corner cases (b); 60_exceptions.md R363 (8): READ and WRITE of no bytes succeed without bus traffic. -/
def Obligations.ZeroLengthSucceeds : Prop :=
  ∀ (s : State) (c : Nat) (cont : Bool) (b : Byte) (a : Half), Busy s c →
    (Passes s c (.read cont b a 0) → exec (.read cont b a 0) s = .next (answered s c ⟨0, 0, [], []⟩)) ∧
    (Passes s c (.write b a []) → exec (.write b a []) s = .next (answered s c ⟨0, 0, [], []⟩))

/-! ### Reads -/

/-- 41_plain_bank.md R170 to R172 and 43_password_bank.md R250 to R252: READ on a bank with a native read; `sentPrefix` spells out what
an addressed read sends, the credential of a PASSWORD bank included. -/
def Obligations.NativeReadCompletes : Prop :=
  ∀ (s : State) (c : Nat) (cont : Bool) (b : Byte) (a l : Half) (k : Bank) (echoed ph : List Byte) (evs : List Event),
    Running s c b k → Passes s c (.read cont b a l) → k.cfg.strategy ≠ .scratchpad → k.cfg.hasNativeRead = true →
    ph.length = l.toNat → ph ≠ [] → EchoFits k cont k.cfg.cmdRead (deviceAddress k.cfg a.toNat) echoed →
    evs = speedEvents k ++ readEvents k cont k.cfg.cmdRead (deviceAddress k.cfg a.toNat) echoed ph → Answering s evs →
    exec (.read cont b a l) s = .next (completed s c b.toNat evs (some ⟨c, b.toNat, .byte, a.toNat + l.toNat⟩)
      (mismatched s cont ⟨c, b.toNat, .byte, a.toNat⟩) ⟨0, 0, ph, []⟩)

/-- 41_plain_bank.md R173: READ_PAGE on a PLAIN bank. -/
def Obligations.PlainPageReadCompletes : Prop :=
  ∀ (s : State) (c : Nat) (cont : Bool) (b : Byte) (p : Half) (k : Bank) (echoed ph : List Byte) (evs : List Event),
    Running s c b k → Passes s c (.readPage cont b p) → k.cfg.strategy = .plain → ph.length = k.cfg.pageLength →
    EchoFits k cont k.cfg.cmdRead (deviceAddress k.cfg (p.toNat * k.cfg.pageLength)) echoed →
    evs = speedEvents k ++ readEvents k cont k.cfg.cmdRead (deviceAddress k.cfg (p.toNat * k.cfg.pageLength)) echoed ph →
    Answering s evs →
    exec (.readPage cont b p) s = .next (completed s c b.toNat evs
      (some ⟨c, b.toNat, .byte, p.toNat * k.cfg.pageLength + k.cfg.pageLength⟩)
      (mismatched s cont ⟨c, b.toNat, .byte, p.toNat * k.cfg.pageLength⟩) ⟨0, 0, ph, []⟩)

/-- 42_crc_bank.md R201, R210, 43_password_bank.md R250, R251: READ on a CRC or PASSWORD bank without a native read: the covering pages
in order, each checked from a seed that never covers the credential (`readSeed`), and the slice of their data. -/
def Obligations.RangeReadCompletes : Prop :=
  ∀ (s : State) (c : Nat) (cont : Bool) (b : Byte) (a l : Half) (k : Bank) (echoed : List Byte)
    (pages : List (Nat × List Byte)) (evs : List Event),
    Running s c b k → Passes s c (.read cont b a l) → k.cfg.strategy ≠ .scratchpad → k.cfg.hasNativeRead = false → l ≠ 0 →
    pages.map Prod.fst = coveringPages k.cfg a.toNat l.toNat → RangeValid s.crc k cont pages →
    EchoFits k cont k.cfg.cmdReadCrc (deviceAddress k.cfg (a.toNat / k.cfg.pageLength * k.cfg.pageLength)) echoed →
    evs = speedEvents k ++ rangeEvents k cont echoed pages → Answering s evs →
    exec (.read cont b a l) s = .next (completed s c b.toNat evs
      (some ⟨c, b.toNat, .page, ((a.toNat + l.toNat - 1) / k.cfg.pageLength + 1) * k.cfg.pageLength⟩)
      (mismatched s cont ⟨c, b.toNat, .page, a.toNat / k.cfg.pageLength * k.cfg.pageLength⟩)
      ⟨0, 0, slice (joinedData k pages) (a.toNat - a.toNat / k.cfg.pageLength * k.cfg.pageLength) l.toNat, []⟩)

/-- 44_scratchpad_commit.md R286, R287: READ on a SCRATCHPAD bank; CONT_PTR stays none. -/
def Obligations.ScratchpadReadCompletes : Prop :=
  ∀ (s : State) (c : Nat) (b : Byte) (a l : Half) (k : Bank) (gs : List SpPageRun) (evs : List Event),
    Running s c b k → Passes s c (.read false b a l) → k.cfg.strategy = .scratchpad → l ≠ 0 →
    gs.map SpPageRun.p = coveringPages k.cfg a.toNat l.toNat → (∀ g ∈ gs, SpPageGood s.crc k g) →
    evs = speedEvents k ++ (gs.map (spPageEvents k)).flatten → Answering s evs →
    exec (.read false b a l) s = .next (completed s c b.toNat evs none false
      ⟨0, 0, slice (gs.map fun g => scratchpadData k g.rx).flatten
        (a.toNat - a.toNat / k.cfg.pageLength * k.cfg.pageLength) l.toNat, []⟩)

/-- 42_crc_bank.md R200 to R203, R206 to R209, 43_password_bank.md R250 to R253: the page reads on CRC and PASSWORD banks return the data
of a valid page, and the EXTRA forms its extra info; `sentPrefix`, `readSeed` and `verifyOnly` spell out what is sent, seeded and left
unchecked. -/
def Obligations.PageReadsComplete : Prop :=
  ∀ (s : State) (c : Nat) (cont : Bool) (b : Byte) (p : Half) (k : Bank) (echoed ph : List Byte) (evs : List Event)
    (done : List Byte → State),
    Running s c b k → PageValid s.crc k p.toNat cont ph →
    EchoFits k cont k.cfg.cmdReadCrc (deviceAddress k.cfg (p.toNat * k.cfg.pageLength)) echoed →
    evs = speedEvents k ++ pageEvents k p.toNat cont echoed ph → Answering s evs →
    (∀ x, done x = completed s c b.toNat evs (some ⟨c, b.toNat, .page, (p.toNat + 1) * k.cfg.pageLength⟩)
      (mismatched s cont ⟨c, b.toNat, .page, p.toNat * k.cfg.pageLength⟩) ⟨0, 0, slice ph 0 k.cfg.pageLength, x⟩) →
    (Passes s c (.readPage cont b p) → crcStrategy k.cfg = true → exec (.readPage cont b p) s = .next (done [])) ∧
    (Passes s c (.readPageCrc cont b p) → exec (.readPageCrc cont b p) s = .next (done [])) ∧
    (Passes s c (.readPageExtra cont b p) →
      exec (.readPageExtra cont b p) s = .next (done (slice ph k.cfg.pageLength k.cfg.extraLen))) ∧
    (Passes s c (.readPageCrcExtra cont b p) →
      exec (.readPageCrcExtra cont b p) s = .next (done (slice ph k.cfg.pageLength k.cfg.extraLen)))

/-- 44_scratchpad_commit.md R288: READ_PAGE on a SCRATCHPAD bank. -/
def Obligations.ScratchpadPageReadCompletes : Prop :=
  ∀ (s : State) (c : Nat) (b : Byte) (p : Half) (k : Bank) (g : SpPageRun) (evs : List Event),
    Running s c b k → Passes s c (.readPage false b p) → k.cfg.strategy = .scratchpad → g.p = p.toNat →
    SpPageGood s.crc k g → evs = speedEvents k ++ spPageEvents k g → Answering s evs →
    exec (.readPage false b p) s = .next (completed s c b.toNat evs none false ⟨0, 0, scratchpadData k g.rx, []⟩)

/-- 42_crc_bank.md R211, R212, R215: READ_PAGE_PACKET of a valid page that holds a valid packet returns the payload and its length. -/
def Obligations.PacketReadCompletes : Prop :=
  ∀ (s : State) (c : Nat) (cont : Bool) (b : Byte) (p : Half) (k : Bank) (echoed ph : List Byte) (n : Byte)
    (evs : List Event),
    Running s c b k → Passes s c (.readPagePacket cont b p) → PageValid s.crc k p.toNat cont ph → ph.head? = some n →
    n.toNat ≤ k.cfg.pageLength - (3 + k.cfg.extraLen) → 3 + k.cfg.extraLen ≤ k.cfg.pageLength →
    crcValid s.crc (p + k.cfg.packetSeedOffset) (ph.take (n.toNat + 3)) = true →
    EchoFits k cont k.cfg.cmdReadCrc (deviceAddress k.cfg (p.toNat * k.cfg.pageLength)) echoed →
    evs = speedEvents k ++ pageEvents k p.toNat cont echoed ph → Answering s evs →
    exec (.readPagePacket cont b p) s = .next (completed s c b.toNat evs
      (some ⟨c, b.toNat, .page, (p.toNat + 1) * k.cfg.pageLength⟩)
      (mismatched s cont ⟨c, b.toNat, .page, p.toNat * k.cfg.pageLength⟩)
      ⟨0, n.setWidth 32, slice ph 1 n.toNat, []⟩)

/-! ### Writes -/

/-- 41_plain_bank.md R170, R174, R175, 43_password_bank.md R250, R251: WRITE without echo sends one frame: command, address low byte
first, on a PASSWORD bank the read-write credential while it is valid and else the read-only one, and the data. Its answer bytes are
ignored; CONT_PTR is none. -/
def Obligations.PlainWriteCompletes : Prop :=
  ∀ (s : State) (c : Nat) (b : Byte) (a x : Half) (d : List Byte) (k : Bank) (sent got : List Byte) (evs : List Event),
    Running s c b k → Passes s c (.write b a d) → k.cfg.strategy ≠ .scratchpad → k.cfg.echoWrite = false → d ≠ [] →
    x = BitVec.ofNat 16 (k.cfg.startPhys + a.toNat) →
    sent = [k.cfg.cmdWrite, x.extractLsb' 0 8, x.extractLsb' 8 8] ++
      (if k.cfg.strategy = .password then (if k.credRwValid = true then k.credRw else k.credRo) else []) ++ d →
    got.length = sent.length → evs = speedEvents k ++ [selectEvent k, exchangeEvent sent got] → Answering s evs →
    exec (.write b a d) s = .next (completed s c b.toNat evs none false ⟨0, 0, [], []⟩)

/-- 41_plain_bank.md R176: WRITE with echo, every byte's residue and echo good. -/
def Obligations.EchoWriteCompletes : Prop :=
  ∀ (s : State) (c : Nat) (b : Byte) (a : Half) (d0 : Byte) (got0 : List Byte) (rest : List (Byte × List Byte)) (k : Bank)
    (evs : List Event),
    Running s c b k → Passes s c (.write b a (d0 :: rest.map Prod.fst)) → k.cfg.strategy ≠ .scratchpad →
    k.cfg.echoWrite = true →
    EchoFirstValid s.crc k (deviceAddress k.cfg a.toNat) d0 got0 → EchoRestValid s.crc k (deviceAddress k.cfg a.toNat + 1) rest →
    evs = speedEvents k ++ echoWriteEvents k (deviceAddress k.cfg a.toNat) d0 got0 rest → Answering s evs →
    exec (.write b a (d0 :: rest.map Prod.fst)) s = .next (completed s c b.toNat evs none false ⟨0, 0, [], []⟩)

/-- 44_scratchpad_commit.md R280 to R285: WRITE on a SCRATCHPAD bank commits its segments in order, each in the four steps. -/
def Obligations.ScratchpadWriteCompletes : Prop :=
  ∀ (s : State) (c : Nat) (b : Byte) (a : Half) (d : List Byte) (k : Bank) (gs : List SegmentRun) (evs : List Event),
    Running s c b k → Passes s c (.write b a d) → k.cfg.strategy = .scratchpad → d ≠ [] →
    gs.map (fun g => (g.q, g.ds)) = segments k.cfg a.toNat d → (∀ g ∈ gs, SegmentGood s.crc k g) →
    evs = speedEvents k ++ (gs.map (segmentEvents k)).flatten → Answering s evs →
    exec (.write b a d) s = .next (completed s c b.toNat evs none false ⟨0, 0, [], []⟩)

/-- 42_crc_bank.md R211, R213, R214: WRITE_PAGE_PACKET writes the packet, seeded by the page number, at the page's offset, by one frame
or with echo. The length byte n of a payload of more than 255 bytes is not stated: it is some byte (log 13). -/
def Obligations.PacketWriteCompletes : Prop :=
  ∀ (s : State) (c : Nat) (b : Byte) (p : Half) (d : List Byte) (k : Bank) (a : Half),
    Running s c b k → Passes s c (.writePagePacket b p d) → a = deviceAddress k.cfg (p.toNat * k.cfg.pageLength) →
    ∃ n : Byte, (d.length < 256 → n = BitVec.ofNat 8 d.length) ∧ ∀ (frame : List Byte) (evs : List Event),
      frame = packetBytes s.crc k.cfg p n d → Answering s evs →
      (∀ got, k.cfg.echoWrite = false → got.length = (sentPrefix k k.cfg.cmdWrite a ++ frame).length →
        evs = speedEvents k ++ [selectEvent k, exchangeEvent (sentPrefix k k.cfg.cmdWrite a ++ frame) got] →
        exec (.writePagePacket b p d) s = .next (completed s c b.toNat evs none false ⟨0, 0, [], []⟩)) ∧
      (∀ d0 got0 rest, k.cfg.echoWrite = true → frame = d0 :: rest.map Prod.fst →
        EchoFirstValid s.crc k a d0 got0 → EchoRestValid s.crc k (a + 1) rest →
        evs = speedEvents k ++ echoWriteEvents k a d0 got0 rest →
        exec (.writePagePacket b p d) s = .next (completed s c b.toNat evs none false ⟨0, 0, [], []⟩))

/-! ### Bus-phase failures -/

/-- 42_crc_bank.md R202: a page whose checked bytes do not give the residue raises ChecksumMismatch in every page read and in
READ_PAGE_PACKET. -/
def Obligations.BadPageFails : Prop :=
  ∀ (s : State) (c : Nat) (cont : Bool) (b : Byte) (p : Half) (k : Bank) (echoed ph : List Byte) (evs : List Event)
    (i : Instr),
    Running s c b k → Passes s c i →
    (i = .readPage cont b p ∧ crcStrategy k.cfg = true ∨ i = .readPageCrc cont b p ∨ i = .readPageExtra cont b p ∨
      i = .readPageCrcExtra cont b p ∨ i = .readPagePacket cont b p) →
    ph.length = k.cfg.pageLength + k.cfg.extraLen + 2 + verifyOnly k cont →
    crc16 s.crc (readSeed s.crc k.cfg p.toNat cont) (ph.take (k.cfg.pageLength + k.cfg.extraLen + 2)) ≠ 0xB001#16 →
    EchoFits k cont k.cfg.cmdReadCrc (deviceAddress k.cfg (p.toNat * k.cfg.pageLength)) echoed →
    evs = speedEvents k ++ pageEvents k p.toNat cont echoed ph → Answering s evs →
    exec i s = .next (failed s c b.toNat k evs (mismatched s cont ⟨c, b.toNat, .page, p.toNat * k.cfg.pageLength⟩)
      .checksumMismatch)

/-- 42_crc_bank.md R210: in a range read the first bad page ends the request, and no data is returned. -/
def Obligations.BadPageEndsRange : Prop :=
  ∀ (s : State) (c : Nat) (cont : Bool) (b : Byte) (a l : Half) (k : Bank) (echoed : List Byte)
    (good : List (Nat × List Byte)) (p : Nat) (bad : List Byte) (later : List Nat) (evs : List Event),
    Running s c b k → Passes s c (.read cont b a l) → k.cfg.strategy ≠ .scratchpad → k.cfg.hasNativeRead = false → l ≠ 0 →
    good.map Prod.fst ++ p :: later = coveringPages k.cfg a.toNat l.toNat → RangeValid s.crc k cont good →
    bad.length = k.cfg.pageLength + k.cfg.extraLen + 2 + verifyOnly k (cont || good ≠ []) →
    crcValid s.crc (readSeed s.crc k.cfg p (cont || good ≠ [])) (bad.take (k.cfg.pageLength + k.cfg.extraLen + 2)) = false →
    EchoFits k cont k.cfg.cmdReadCrc (deviceAddress k.cfg (a.toNat / k.cfg.pageLength * k.cfg.pageLength)) echoed →
    evs = speedEvents k ++ rangeEvents k cont echoed (good ++ [(p, bad)]) → Answering s evs →
    exec (.read cont b a l) s = .next (failed s c b.toNat k evs
      (mismatched s cont ⟨c, b.toNat, .page, a.toNat / k.cfg.pageLength * k.cfg.pageLength⟩) .checksumMismatch)

/-- 42_crc_bank.md R212, R215: after a valid page, a length byte above MAX_PACKET raises InvalidPacketLength, and else a wrong packet
residue ChecksumMismatch; the length check comes first (60_exceptions.md R364). -/
def Obligations.BadPacketFails : Prop :=
  ∀ (s : State) (c : Nat) (cont : Bool) (b : Byte) (p : Half) (k : Bank) (echoed ph : List Byte) (n : Byte)
    (evs : List Event) (e : Err),
    Running s c b k → Passes s c (.readPagePacket cont b p) → PageValid s.crc k p.toNat cont ph → ph.head? = some n →
    3 + k.cfg.extraLen ≤ k.cfg.pageLength →
    (k.cfg.pageLength - (3 + k.cfg.extraLen) < n.toNat ∧ e = .invalidPacketLength ∨
     n.toNat ≤ k.cfg.pageLength - (3 + k.cfg.extraLen) ∧
      crcValid s.crc (p + k.cfg.packetSeedOffset) (ph.take (n.toNat + 3)) = false ∧ e = .checksumMismatch) →
    EchoFits k cont k.cfg.cmdReadCrc (deviceAddress k.cfg (p.toNat * k.cfg.pageLength)) echoed →
    evs = speedEvents k ++ pageEvents k p.toNat cont echoed ph → Answering s evs →
    exec (.readPagePacket cont b p) s = .next (failed s c b.toNat k evs
      (mismatched s cont ⟨c, b.toNat, .page, p.toNat * k.cfg.pageLength⟩) e)

/-- 41_plain_bank.md R176, 42_crc_bank.md R213: WRITE and WRITE_PAGE_PACKET with echo stop at the first byte that fails:
ChecksumMismatch on its residue, else EchoMismatch on its echo; later bytes are not sent. The length byte n of a payload of more than
255 bytes is not stated: it is some byte (log 13). -/
def Obligations.EchoWriteStops : Prop :=
  ∀ (s : State) (c : Nat) (b : Byte) (k : Bank), Running s c b k → k.cfg.echoWrite = true →
    (∀ o d, k.cfg.strategy ≠ .scratchpad → Passes s c (.write b o d) →
      EchoWriteFails s c b k (.write b o d) (deviceAddress k.cfg o.toNat) d) ∧
    (∀ p d, Passes s c (.writePagePacket b p d) → ∃ n : Byte, (d.length < 256 → n = BitVec.ofNat 8 d.length) ∧
      EchoWriteFails s c b k (.writePagePacket b p d) (deviceAddress k.cfg (p.toNat * k.cfg.pageLength))
        (packetBytes s.crc k.cfg p n d))

/-- 44_scratchpad_commit.md R282 to R285: a SCRATCHPAD write stops at the first segment that fails: ChecksumMismatch on the read-back's
residue, else ScratchpadVerifyFailed on the compare while WRITE_VERIFY is 1, else CopyNotConfirmed on a confirmation byte 0xFF. -/
def Obligations.ScratchpadWriteStops : Prop :=
  ∀ (s : State) (c : Nat) (b : Byte) (a : Half) (d : List Byte) (k : Bank) (good : List SegmentRun) (g : SegmentRun)
    (later : List (Nat × List Byte)) (evs : List Event),
    Running s c b k → Passes s c (.write b a d) → k.cfg.strategy = .scratchpad → d ≠ [] →
    good.map (fun g => (g.q, g.ds)) ++ (g.q, g.ds) :: later = segments k.cfg a.toNat d →
    (∀ h ∈ good, SegmentGood s.crc k h) → g.written.length = 3 + g.ds.length →
    g.rx.length = k.cfg.spMetaLen + k.cfg.pageLength + 2 → g.copied.length = 3 → Answering s evs →
    (∀ e, (crcValid s.crc 0 (k.cfg.cmdReadSp :: g.rx) = false ∧ e = .checksumMismatch ∨
        crcValid s.crc 0 (k.cfg.cmdReadSp :: g.rx) = true ∧ k.writeVerify = true ∧
          scratchpadMatches k.cfg g.q g.ds (scratchpadData k g.rx) = false ∧ e = .scratchpadVerifyFailed) →
      evs = speedEvents k ++ (good.map (segmentEvents k)).flatten ++
        [selectEvent k, exchangeEvent (addressBytes k.cfg.cmdWriteSp (deviceAddress k.cfg g.q) ++ g.ds) g.written] ++
        readSpEvents k g.e g.rx →
      exec (.write b a d) s = .next (failed s c b.toNat k evs false e)) ∧
    (crcValid s.crc 0 (k.cfg.cmdReadSp :: g.rx) = true →
      (k.writeVerify = true → scratchpadMatches k.cfg g.q g.ds (scratchpadData k g.rx) = true) → g.confirm = 0xFF →
      evs = speedEvents k ++ (good.map (segmentEvents k)).flatten ++ segmentEvents k g →
      exec (.write b a d) s = .next (failed s c b.toNat k evs false .copyNotConfirmed))

/-- 44_scratchpad_commit.md R282, R287, R288: a scratchpad read whose bytes do not give the residue ends READ and READ_PAGE with
ChecksumMismatch. -/
def Obligations.BadScratchpadReadFails : Prop :=
  ∀ (s : State) (c : Nat) (b : Byte) (k : Bank) (good : List SpPageRun) (g : SpPageRun) (evs : List Event),
    Running s c b k → k.cfg.strategy = .scratchpad → (∀ h ∈ good, SpPageGood s.crc k h) →
    (k.cfg.hasRecall = true → g.recalled.length = 3) → g.rx.length = k.cfg.spMetaLen + k.cfg.pageLength + 2 →
    crcValid s.crc 0 (k.cfg.cmdReadSp :: g.rx) = false → Answering s evs →
    evs = speedEvents k ++ (good.map (spPageEvents k)).flatten ++ spPageEvents k g →
    (∀ a l later, Passes s c (.read false b a l) → l ≠ 0 →
      good.map SpPageRun.p ++ g.p :: later = coveringPages k.cfg a.toNat l.toNat →
      exec (.read false b a l) s = .next (failed s c b.toNat k evs false .checksumMismatch)) ∧
    (∀ p, Passes s c (.readPage false b p) → good = [] → g.p = p.toNat →
      exec (.readPage false b p) s = .next (failed s c b.toNat k evs false .checksumMismatch))

/-! ### Checksums, packets and segments -/

/-- 00_scope.md R10: the reference function of R9 has the residue law: bytes with the complement of their checksum appended, low byte
first, give the residue, for every seed. -/
def Obligations.ResidueLaw : Prop :=
  ∀ (seed : Half) (bs : List Byte),
    crc16 .reference seed (bs ++ [(~~~ crc16 .reference seed bs).extractLsb' 0 8, (~~~ crc16 .reference seed bs).extractLsb' 8 8]) =
      0xB001#16

/-- 42_crc_bank.md R216 (2), for any change of one byte (not one bit only), of the reference function of 00_scope.md R9. Of another
function, one flipped bit is a named property, `BitFlipLawOf` (FlippedPageFails). -/
def Obligations.ByteChangeDetected : Prop :=
  ∀ (seed : Half) (pre post : List Byte) (x y : Byte), x ≠ y →
    crcValid .reference seed (pre ++ x :: post) = true → crcValid .reference seed (pre ++ y :: post) = false

/-- 42_crc_bank.md R216 (1): what PKT_ENCODE builds, PKT_DECODE reads back, whatever follows it in the page: under the reference
function of 00_scope.md R9, and under any other that has the residue law, the named property of R10. -/
def Obligations.PacketRoundTrip : Prop :=
  ∀ (f : Checksum) (k : BankConfig) (p draw : Nat) (payload padding : List Byte),
    f = .reference ∨ ResidueLawOf f → payload.length ≤ maxPacket k → payload.length < 256 →
    packetDecode f k p (packetEncode f k p draw payload ++ padding) = .ok (payload, payload.length)

/-- 42_crc_bank.md R216 (3): a packet written for one page does not decode at another page: under the reference function of 00_scope.md
R9, and under any other that has the residue law and the named property of page binding. -/
def Obligations.PacketBinding : Prop :=
  ∀ (f : Checksum) (k : BankConfig) (p q draw : Nat) (payload padding : List Byte),
    f = .reference ∨ ResidueLawOf f ∧ SeedBindingLawOf f →
    p < 65536 → q < 65536 → p ≠ q → payload.length ≤ maxPacket k → payload.length < 256 →
    packetDecode f k q (packetEncode f k p draw payload ++ padding) = .error .checksumMismatch

/-- 44_scratchpad_commit.md R280: the segments cover the data in order, without gap or overlap, and each lies in one page. -/
def Obligations.SegmentsPartition : Prop :=
  ∀ (k : BankConfig) (o : Nat) (d : List Byte), 1 ≤ k.pageLength →
    ((segments k o d).map Prod.snd).flatten = d ∧
    (∀ g ∈ segments k o d, g.2 ≠ [] ∧ g.1 / k.pageLength = (g.1 + g.2.length - 1) / k.pageLength) ∧
    (∀ pre g post, segments k o d = pre ++ g :: post → g.1 = o + ((pre.map Prod.snd).flatten).length) ∧
    (∀ pre g h post, segments k o d = pre ++ g :: h :: post → h.1 % k.pageLength = 0)

/-- 42_crc_bank.md R216 (2), R202: a valid page with any single bit of its checked bytes flipped raises ChecksumMismatch in every page
read and in READ_PAGE_PACKET: under the reference function of 00_scope.md R9, and under any other that has the named property of
checksum rejection. -/
def Obligations.FlippedPageFails : Prop :=
  ∀ (s : State) (c : Nat) (cont : Bool) (b : Byte) (p : Half) (k : Bank) (echoed ph : List Byte) (j n : Nat)
    (evs : List Event) (i : Instr),
    s.crc = .reference ∨ BitFlipLawOf s.crc → Running s c b k → Passes s c i →
    (i = .readPage cont b p ∧ crcStrategy k.cfg = true ∨ i = .readPageCrc cont b p ∨ i = .readPageExtra cont b p ∨
      i = .readPageCrcExtra cont b p ∨ i = .readPagePacket cont b p) →
    PageValid s.crc k p.toNat cont ph → j < k.cfg.pageLength + k.cfg.extraLen + 2 → n < 8 →
    EchoFits k cont k.cfg.cmdReadCrc (deviceAddress k.cfg (p.toNat * k.cfg.pageLength)) echoed →
    evs = speedEvents k ++ pageEvents k p.toNat cont echoed (flipBit ph j n) → Answering s evs →
    exec i s = .next (failed s c b.toNat k evs (mismatched s cont ⟨c, b.toNat, .page, p.toNat * k.cfg.pageLength⟩)
      .checksumMismatch)
end

