-- ==== Sys2Proof/Laws/State.lean ====
section
/-! SUPPORT. One lemma per field per update of State, each true by rfl, so that no later proof unfolds a record update. -/

namespace Sys2Proof.Machine

/-! ### updateBank -/

@[simp] theorem updateBank_canPower (s : State) (b : Nat) (f : Bank → Bank) : (s.updateBank b f).canPower = s.canPower := rfl
@[simp] theorem updateBank_crc (s : State) (b : Nat) (f : Bank → Bank) : (s.updateBank b f).crc = s.crc := rfl
@[simp] theorem updateBank_banks (s : State) (b : Nat) (f : Bank → Bank) : (s.updateBank b f).banks = s.banks.modify b f := rfl
@[simp] theorem updateBank_ports (s : State) (b : Nat) (f : Bank → Bank) : (s.updateBank b f).ports = s.ports := rfl
@[simp] theorem updateBank_owner (s : State) (b : Nat) (f : Bank → Bank) : (s.updateBank b f).owner = s.owner := rfl
@[simp] theorem updateBank_contPtr (s : State) (b : Nat) (f : Bank → Bank) : (s.updateBank b f).contPtr = s.contPtr := rfl
@[simp] theorem updateBank_hazard (s : State) (b : Nat) (f : Bank → Bank) : (s.updateBank b f).hazard = s.hazard := rfl
@[simp] theorem updateBank_engine (s : State) (b : Nat) (f : Bank → Bank) : (s.updateBank b f).engine = s.engine := rfl
@[simp] theorem updateBank_pwrActive (s : State) (b : Nat) (f : Bank → Bank) : (s.updateBank b f).pwrActive = s.pwrActive := rfl
@[simp] theorem updateBank_transcript (s : State) (b : Nat) (f : Bank → Bank) : (s.updateBank b f).transcript = s.transcript := rfl
@[simp] theorem updateBank_answers (s : State) (b : Nat) (f : Bank → Bank) : (s.updateBank b f).answers = s.answers := rfl
@[simp] theorem updateBank_schedule (s : State) (b : Nat) (f : Bank → Bank) : (s.updateBank b f).schedule = s.schedule := rfl
@[simp] theorem updateBank_draws (s : State) (b : Nat) (f : Bank → Bank) : (s.updateBank b f).draws = s.draws := rfl

/-! ### updatePort -/

@[simp] theorem updatePort_canPower (s : State) (c : Nat) (f : Port → Port) : (s.updatePort c f).canPower = s.canPower := rfl
@[simp] theorem updatePort_crc (s : State) (c : Nat) (f : Port → Port) : (s.updatePort c f).crc = s.crc := rfl
@[simp] theorem updatePort_banks (s : State) (c : Nat) (f : Port → Port) : (s.updatePort c f).banks = s.banks := rfl
@[simp] theorem updatePort_ports (s : State) (c : Nat) (f : Port → Port) : (s.updatePort c f).ports = s.ports.modify c f := rfl
@[simp] theorem updatePort_owner (s : State) (c : Nat) (f : Port → Port) : (s.updatePort c f).owner = s.owner := rfl
@[simp] theorem updatePort_contPtr (s : State) (c : Nat) (f : Port → Port) : (s.updatePort c f).contPtr = s.contPtr := rfl
@[simp] theorem updatePort_hazard (s : State) (c : Nat) (f : Port → Port) : (s.updatePort c f).hazard = s.hazard := rfl
@[simp] theorem updatePort_engine (s : State) (c : Nat) (f : Port → Port) : (s.updatePort c f).engine = s.engine := rfl
@[simp] theorem updatePort_pwrActive (s : State) (c : Nat) (f : Port → Port) : (s.updatePort c f).pwrActive = s.pwrActive := rfl
@[simp] theorem updatePort_transcript (s : State) (c : Nat) (f : Port → Port) : (s.updatePort c f).transcript = s.transcript := rfl
@[simp] theorem updatePort_answers (s : State) (c : Nat) (f : Port → Port) : (s.updatePort c f).answers = s.answers := rfl
@[simp] theorem updatePort_schedule (s : State) (c : Nat) (f : Port → Port) : (s.updatePort c f).schedule = s.schedule := rfl
@[simp] theorem updatePort_draws (s : State) (c : Nat) (f : Port → Port) : (s.updatePort c f).draws = s.draws := rfl

/-! ### setSpeed -/

@[simp] theorem setSpeed_canPower (s : State) (b : Nat) (v : SpeedState) : (s.setSpeed b v).canPower = s.canPower := rfl
@[simp] theorem setSpeed_crc (s : State) (b : Nat) (v : SpeedState) : (s.setSpeed b v).crc = s.crc := rfl
@[simp] theorem setSpeed_banks (s : State) (b : Nat) (v : SpeedState) : (s.setSpeed b v).banks = s.banks.modify b (fun k => { k with speed := v }) := rfl
@[simp] theorem setSpeed_ports (s : State) (b : Nat) (v : SpeedState) : (s.setSpeed b v).ports = s.ports := rfl
@[simp] theorem setSpeed_owner (s : State) (b : Nat) (v : SpeedState) : (s.setSpeed b v).owner = s.owner := rfl
@[simp] theorem setSpeed_contPtr (s : State) (b : Nat) (v : SpeedState) : (s.setSpeed b v).contPtr = s.contPtr := rfl
@[simp] theorem setSpeed_hazard (s : State) (b : Nat) (v : SpeedState) : (s.setSpeed b v).hazard = s.hazard := rfl
@[simp] theorem setSpeed_engine (s : State) (b : Nat) (v : SpeedState) : (s.setSpeed b v).engine = s.engine := rfl
@[simp] theorem setSpeed_pwrActive (s : State) (b : Nat) (v : SpeedState) : (s.setSpeed b v).pwrActive = s.pwrActive := rfl
@[simp] theorem setSpeed_transcript (s : State) (b : Nat) (v : SpeedState) : (s.setSpeed b v).transcript = s.transcript := rfl
@[simp] theorem setSpeed_answers (s : State) (b : Nat) (v : SpeedState) : (s.setSpeed b v).answers = s.answers := rfl
@[simp] theorem setSpeed_schedule (s : State) (b : Nat) (v : SpeedState) : (s.setSpeed b v).schedule = s.schedule := rfl
@[simp] theorem setSpeed_draws (s : State) (b : Nat) (v : SpeedState) : (s.setSpeed b v).draws = s.draws := rfl

/-! ### setCont -/

@[simp] theorem setCont_canPower (s : State) (v : Option ContPtr) : (s.setCont v).canPower = s.canPower := rfl
@[simp] theorem setCont_crc (s : State) (v : Option ContPtr) : (s.setCont v).crc = s.crc := rfl
@[simp] theorem setCont_banks (s : State) (v : Option ContPtr) : (s.setCont v).banks = s.banks := rfl
@[simp] theorem setCont_ports (s : State) (v : Option ContPtr) : (s.setCont v).ports = s.ports := rfl
@[simp] theorem setCont_owner (s : State) (v : Option ContPtr) : (s.setCont v).owner = s.owner := rfl
@[simp] theorem setCont_contPtr (s : State) (v : Option ContPtr) : (s.setCont v).contPtr = v := rfl
@[simp] theorem setCont_hazard (s : State) (v : Option ContPtr) : (s.setCont v).hazard = s.hazard := rfl
@[simp] theorem setCont_engine (s : State) (v : Option ContPtr) : (s.setCont v).engine = s.engine := rfl
@[simp] theorem setCont_pwrActive (s : State) (v : Option ContPtr) : (s.setCont v).pwrActive = s.pwrActive := rfl
@[simp] theorem setCont_transcript (s : State) (v : Option ContPtr) : (s.setCont v).transcript = s.transcript := rfl
@[simp] theorem setCont_answers (s : State) (v : Option ContPtr) : (s.setCont v).answers = s.answers := rfl
@[simp] theorem setCont_schedule (s : State) (v : Option ContPtr) : (s.setCont v).schedule = s.schedule := rfl
@[simp] theorem setCont_draws (s : State) (v : Option ContPtr) : (s.setCont v).draws = s.draws := rfl

/-! ### setOwner -/

@[simp] theorem setOwner_canPower (s : State) (v : Option Nat) : (s.setOwner v).canPower = s.canPower := rfl
@[simp] theorem setOwner_crc (s : State) (v : Option Nat) : (s.setOwner v).crc = s.crc := rfl
@[simp] theorem setOwner_banks (s : State) (v : Option Nat) : (s.setOwner v).banks = s.banks := rfl
@[simp] theorem setOwner_ports (s : State) (v : Option Nat) : (s.setOwner v).ports = s.ports := rfl
@[simp] theorem setOwner_owner (s : State) (v : Option Nat) : (s.setOwner v).owner = v := rfl
@[simp] theorem setOwner_contPtr (s : State) (v : Option Nat) : (s.setOwner v).contPtr = s.contPtr := rfl
@[simp] theorem setOwner_hazard (s : State) (v : Option Nat) : (s.setOwner v).hazard = s.hazard := rfl
@[simp] theorem setOwner_engine (s : State) (v : Option Nat) : (s.setOwner v).engine = s.engine := rfl
@[simp] theorem setOwner_pwrActive (s : State) (v : Option Nat) : (s.setOwner v).pwrActive = s.pwrActive := rfl
@[simp] theorem setOwner_transcript (s : State) (v : Option Nat) : (s.setOwner v).transcript = s.transcript := rfl
@[simp] theorem setOwner_answers (s : State) (v : Option Nat) : (s.setOwner v).answers = s.answers := rfl
@[simp] theorem setOwner_schedule (s : State) (v : Option Nat) : (s.setOwner v).schedule = s.schedule := rfl
@[simp] theorem setOwner_draws (s : State) (v : Option Nat) : (s.setOwner v).draws = s.draws := rfl

/-! ### setHazard -/

@[simp] theorem setHazard_canPower (s : State) : (s.setHazard).canPower = s.canPower := rfl
@[simp] theorem setHazard_crc (s : State) : (s.setHazard).crc = s.crc := rfl
@[simp] theorem setHazard_banks (s : State) : (s.setHazard).banks = s.banks := rfl
@[simp] theorem setHazard_ports (s : State) : (s.setHazard).ports = s.ports := rfl
@[simp] theorem setHazard_owner (s : State) : (s.setHazard).owner = s.owner := rfl
@[simp] theorem setHazard_contPtr (s : State) : (s.setHazard).contPtr = s.contPtr := rfl
@[simp] theorem setHazard_hazard (s : State) : (s.setHazard).hazard = true := rfl
@[simp] theorem setHazard_engine (s : State) : (s.setHazard).engine = s.engine := rfl
@[simp] theorem setHazard_pwrActive (s : State) : (s.setHazard).pwrActive = s.pwrActive := rfl
@[simp] theorem setHazard_transcript (s : State) : (s.setHazard).transcript = s.transcript := rfl
@[simp] theorem setHazard_answers (s : State) : (s.setHazard).answers = s.answers := rfl
@[simp] theorem setHazard_schedule (s : State) : (s.setHazard).schedule = s.schedule := rfl
@[simp] theorem setHazard_draws (s : State) : (s.setHazard).draws = s.draws := rfl

/-! ### setPower -/

@[simp] theorem setPower_canPower (s : State) (v : Bool) : (s.setPower v).canPower = s.canPower := rfl
@[simp] theorem setPower_crc (s : State) (v : Bool) : (s.setPower v).crc = s.crc := rfl
@[simp] theorem setPower_banks (s : State) (v : Bool) : (s.setPower v).banks = s.banks := rfl
@[simp] theorem setPower_ports (s : State) (v : Bool) : (s.setPower v).ports = s.ports := rfl
@[simp] theorem setPower_owner (s : State) (v : Bool) : (s.setPower v).owner = s.owner := rfl
@[simp] theorem setPower_contPtr (s : State) (v : Bool) : (s.setPower v).contPtr = s.contPtr := rfl
@[simp] theorem setPower_hazard (s : State) (v : Bool) : (s.setPower v).hazard = s.hazard := rfl
@[simp] theorem setPower_engine (s : State) (v : Bool) : (s.setPower v).engine = s.engine := rfl
@[simp] theorem setPower_pwrActive (s : State) (v : Bool) : (s.setPower v).pwrActive = v := rfl
@[simp] theorem setPower_transcript (s : State) (v : Bool) : (s.setPower v).transcript = s.transcript := rfl
@[simp] theorem setPower_answers (s : State) (v : Bool) : (s.setPower v).answers = s.answers := rfl
@[simp] theorem setPower_schedule (s : State) (v : Bool) : (s.setPower v).schedule = s.schedule := rfl
@[simp] theorem setPower_draws (s : State) (v : Bool) : (s.setPower v).draws = s.draws := rfl

/-! ### record -/

@[simp] theorem record_canPower (s : State) (e : Event) : (s.record e).canPower = s.canPower := rfl
@[simp] theorem record_crc (s : State) (e : Event) : (s.record e).crc = s.crc := rfl
@[simp] theorem record_banks (s : State) (e : Event) : (s.record e).banks = s.banks := rfl
@[simp] theorem record_ports (s : State) (e : Event) : (s.record e).ports = s.ports := rfl
@[simp] theorem record_owner (s : State) (e : Event) : (s.record e).owner = s.owner := rfl
@[simp] theorem record_contPtr (s : State) (e : Event) : (s.record e).contPtr = s.contPtr := rfl
@[simp] theorem record_hazard (s : State) (e : Event) : (s.record e).hazard = s.hazard := rfl
@[simp] theorem record_engine (s : State) (e : Event) : (s.record e).engine = s.engine.advance := rfl
@[simp] theorem record_pwrActive (s : State) (e : Event) : (s.record e).pwrActive = s.pwrActive := rfl
@[simp] theorem record_transcript (s : State) (e : Event) : (s.record e).transcript = s.transcript ++ [e] := rfl
@[simp] theorem record_answers (s : State) (e : Event) : (s.record e).answers = s.answers := rfl
@[simp] theorem record_schedule (s : State) (e : Event) : (s.record e).schedule = s.schedule := rfl
@[simp] theorem record_draws (s : State) (e : Event) : (s.record e).draws = s.draws := rfl

/-! ### deliver -/

@[simp] theorem deliver_canPower (s : State) (c : Nat) (r : Response) : (s.deliver c r).canPower = s.canPower := rfl
@[simp] theorem deliver_crc (s : State) (c : Nat) (r : Response) : (s.deliver c r).crc = s.crc := rfl
@[simp] theorem deliver_banks (s : State) (c : Nat) (r : Response) : (s.deliver c r).banks = s.banks := rfl
@[simp] theorem deliver_ports (s : State) (c : Nat) (r : Response) : (s.deliver c r).ports = s.ports.modify c (fun p => { p with resp := some r }) := rfl
@[simp] theorem deliver_owner (s : State) (c : Nat) (r : Response) : (s.deliver c r).owner = s.owner := rfl
@[simp] theorem deliver_contPtr (s : State) (c : Nat) (r : Response) : (s.deliver c r).contPtr = s.contPtr := rfl
@[simp] theorem deliver_hazard (s : State) (c : Nat) (r : Response) : (s.deliver c r).hazard = s.hazard := rfl
@[simp] theorem deliver_engine (s : State) (c : Nat) (r : Response) : (s.deliver c r).engine = .idle := rfl
@[simp] theorem deliver_pwrActive (s : State) (c : Nat) (r : Response) : (s.deliver c r).pwrActive = s.pwrActive := rfl
@[simp] theorem deliver_transcript (s : State) (c : Nat) (r : Response) : (s.deliver c r).transcript = s.transcript := rfl
@[simp] theorem deliver_answers (s : State) (c : Nat) (r : Response) : (s.deliver c r).answers = s.answers := rfl
@[simp] theorem deliver_schedule (s : State) (c : Nat) (r : Response) : (s.deliver c r).schedule = s.schedule := rfl
@[simp] theorem deliver_draws (s : State) (c : Nat) (r : Response) : (s.deliver c r).draws = s.draws := rfl

/-! ### afterCall -/

@[simp] theorem afterCall_canPower (s : State) (call : Call) : (afterCall call s).canPower = s.canPower := rfl
@[simp] theorem afterCall_crc (s : State) (call : Call) : (afterCall call s).crc = s.crc := rfl
@[simp] theorem afterCall_banks (s : State) (call : Call) : (afterCall call s).banks = s.banks := rfl
@[simp] theorem afterCall_ports (s : State) (call : Call) : (afterCall call s).ports = s.ports := rfl
@[simp] theorem afterCall_owner (s : State) (call : Call) : (afterCall call s).owner = s.owner := rfl
@[simp] theorem afterCall_contPtr (s : State) (call : Call) : (afterCall call s).contPtr = s.contPtr := rfl
@[simp] theorem afterCall_hazard (s : State) (call : Call) : (afterCall call s).hazard = s.hazard := rfl
@[simp] theorem afterCall_engine (s : State) (call : Call) : (afterCall call s).engine = s.engine.advance := rfl
@[simp] theorem afterCall_pwrActive (s : State) (call : Call) : (afterCall call s).pwrActive = s.pwrActive := rfl
@[simp] theorem afterCall_transcript (s : State) (call : Call) : (afterCall call s).transcript = s.transcript ++ [.call call (answerTo call s)] := rfl
@[simp] theorem afterCall_answers (s : State) (call : Call) : (afterCall call s).answers = s.answers.tail := rfl
@[simp] theorem afterCall_schedule (s : State) (call : Call) : (afterCall call s).schedule = s.schedule := rfl
@[simp] theorem afterCall_draws (s : State) (call : Call) : (afterCall call s).draws = s.draws + 1 := rfl

/-! ### takeRequest -/

@[simp] theorem takeRequest_canPower (s : State) (c : Nat) (req : Request) : (takeRequest s c req).canPower = s.canPower := rfl
@[simp] theorem takeRequest_crc (s : State) (c : Nat) (req : Request) : (takeRequest s c req).crc = s.crc := rfl
@[simp] theorem takeRequest_banks (s : State) (c : Nat) (req : Request) : (takeRequest s c req).banks = s.banks := rfl
@[simp] theorem takeRequest_ports (s : State) (c : Nat) (req : Request) : (takeRequest s c req).ports = s.ports.modify c (fun p => { p with pending := none }) := rfl
@[simp] theorem takeRequest_owner (s : State) (c : Nat) (req : Request) : (takeRequest s c req).owner = s.owner := rfl
@[simp] theorem takeRequest_contPtr (s : State) (c : Nat) (req : Request) : (takeRequest s c req).contPtr = s.contPtr := rfl
@[simp] theorem takeRequest_hazard (s : State) (c : Nat) (req : Request) : (takeRequest s c req).hazard = s.hazard := rfl
@[simp] theorem takeRequest_engine (s : State) (c : Nat) (req : Request) : (takeRequest s c req).engine = .busy c req 0 := rfl
@[simp] theorem takeRequest_pwrActive (s : State) (c : Nat) (req : Request) : (takeRequest s c req).pwrActive = s.pwrActive := rfl
@[simp] theorem takeRequest_transcript (s : State) (c : Nat) (req : Request) : (takeRequest s c req).transcript = s.transcript := rfl
@[simp] theorem takeRequest_answers (s : State) (c : Nat) (req : Request) : (takeRequest s c req).answers = s.answers := rfl
@[simp] theorem takeRequest_schedule (s : State) (c : Nat) (req : Request) : (takeRequest s c req).schedule = s.schedule := rfl
@[simp] theorem takeRequest_draws (s : State) (c : Nat) (req : Request) : (takeRequest s c req).draws = s.draws := rfl

/-! ### afterChoice -/

@[simp] theorem afterChoice_canPower (s : State) : (afterChoice s).canPower = s.canPower := rfl
@[simp] theorem afterChoice_crc (s : State) : (afterChoice s).crc = s.crc := rfl
@[simp] theorem afterChoice_banks (s : State) : (afterChoice s).banks = s.banks := rfl
@[simp] theorem afterChoice_ports (s : State) : (afterChoice s).ports = s.ports := rfl
@[simp] theorem afterChoice_owner (s : State) : (afterChoice s).owner = s.owner := rfl
@[simp] theorem afterChoice_contPtr (s : State) : (afterChoice s).contPtr = s.contPtr := rfl
@[simp] theorem afterChoice_hazard (s : State) : (afterChoice s).hazard = s.hazard := rfl
@[simp] theorem afterChoice_engine (s : State) : (afterChoice s).engine = s.engine := rfl
@[simp] theorem afterChoice_pwrActive (s : State) : (afterChoice s).pwrActive = s.pwrActive := rfl
@[simp] theorem afterChoice_transcript (s : State) : (afterChoice s).transcript = s.transcript := rfl
@[simp] theorem afterChoice_answers (s : State) : (afterChoice s).answers = s.answers := rfl
@[simp] theorem afterChoice_schedule (s : State) : (afterChoice s).schedule = s.schedule := rfl
@[simp] theorem afterChoice_draws (s : State) : (afterChoice s).draws = s.draws + 1 := rfl

/-! ### consumeResponse -/

@[simp] theorem consumeResponse_canPower (s : State) (c : Nat) : (consumeResponse s c).canPower = s.canPower := rfl
@[simp] theorem consumeResponse_crc (s : State) (c : Nat) : (consumeResponse s c).crc = s.crc := rfl
@[simp] theorem consumeResponse_banks (s : State) (c : Nat) : (consumeResponse s c).banks = s.banks := rfl
@[simp] theorem consumeResponse_ports (s : State) (c : Nat) : (consumeResponse s c).ports = s.ports.modify c (fun p => { p with resp := none }) := rfl
@[simp] theorem consumeResponse_owner (s : State) (c : Nat) : (consumeResponse s c).owner = s.owner := rfl
@[simp] theorem consumeResponse_contPtr (s : State) (c : Nat) : (consumeResponse s c).contPtr = s.contPtr := rfl
@[simp] theorem consumeResponse_hazard (s : State) (c : Nat) : (consumeResponse s c).hazard = s.hazard := rfl
@[simp] theorem consumeResponse_engine (s : State) (c : Nat) : (consumeResponse s c).engine = s.engine := rfl
@[simp] theorem consumeResponse_pwrActive (s : State) (c : Nat) : (consumeResponse s c).pwrActive = s.pwrActive := rfl
@[simp] theorem consumeResponse_transcript (s : State) (c : Nat) : (consumeResponse s c).transcript = s.transcript := rfl
@[simp] theorem consumeResponse_answers (s : State) (c : Nat) : (consumeResponse s c).answers = s.answers := rfl
@[simp] theorem consumeResponse_schedule (s : State) (c : Nat) : (consumeResponse s c).schedule = s.schedule := rfl
@[simp] theorem consumeResponse_draws (s : State) (c : Nat) : (consumeResponse s c).draws = s.draws := rfl

end Sys2Proof.Machine
end

