-- ==== Sys2Proof/Laws/Bus.lean ====
section
/-! SUPPORT. How pieces of pseudocode compose: the equations of bind and pure, what every piece may do (`Ends`), and what a piece
does when the transport answers as a given list of events says (`Plays`). -/

namespace Sys2Proof.Machine

/-! ### Equations -/

theorem bind_apply {α β : Type} (m : Bus α) (f : α → Bus β) (s : State) :
    (m >>= f) s = match m s with
      | .ok a t => f a t
      | .error e t => .error e t := by
  change EStateM.bind m f s = _
  unfold EStateM.bind
  cases m s <;> rfl

@[simp] theorem pure_apply {α : Type} (a : α) (s : State) : (pure a : Bus α) s = .ok a s := rfl

@[simp] theorem raise_apply {α : Type} (e : Err) (s : State) : (raise e : Bus α) s = .error e s := rfl

@[simp] theorem readState_apply (s : State) : readState s = .ok s s := rfl

@[simp] theorem update_apply (f : State → State) (s : State) : update f s = .ok () (f s) := rfl

theorem require_apply (p : Bool) (e : Err) (s : State) :
    require p e s = if p then .ok () s else .error e s := rfl

theorem bind_ok {α β : Type} {m : Bus α} {f : α → Bus β} {s t : State} {a : α} (h : m s = .ok a t) :
    (m >>= f) s = f a t := by rw [bind_apply, h]

theorem bind_error {α β : Type} {m : Bus α} {f : α → Bus β} {s t : State} {e : Err} (h : m s = .error e t) :
    (m >>= f) s = .error e t := by rw [bind_apply, h]

theorem require_true {p : Bool} {e : Err} {s : State} (h : p = true) : require p e s = .ok () s := by
  rw [require_apply, h]; rfl

theorem require_false {p : Bool} {e : Err} {s : State} (h : p = false) : require p e s = .error e s := by
  rw [require_apply, h]; rfl

theorem bankContext_some {b : Nat} {s : State} {k : Bank} (h : s.bank? b = some k) : bankContext b s = .ok k s := by
  simp [bankContext, h]

theorem bankContext_none {b : Nat} {s : State} (h : s.bank? b = none) :
    bankContext b s = .error .unsupportedOperation s := by
  simp [bankContext, h]

theorem bankContext_setPower (b : Nat) (s : State) (v : Bool) : (s.setPower v).bank? b = s.bank? b := rfl

theorem freeAnswer_admits (c : Call) (n : Nat) : c.admits (c.freeAnswer n) = true := by
  unfold Call.freeAnswer
  split
  · cases c <;> simp [Call.admits]
  · cases c <;> rfl

/-- Every answer is of its call's answer type (40_transport_speed.md R140, R142). -/
theorem answerTo_admits (c : Call) (s : State) : c.admits (answerTo c s) = true := by
  unfold answerTo
  split
  · exact freeAnswer_admits c _
  · split
    · assumption
    · exact freeAnswer_admits c _

theorem transport_apply (c : Call) (s : State) :
    transport c s = if (answerTo c s).failed then .error .deviceNotPresent (afterCall c s)
      else .ok (answerTo c s) (afterCall c s) := rfl

theorem checkResidue_apply (seed : Half) (bs : List Byte) (s : State) :
    checkResidue seed bs s = if crcValid s.crc seed bs then .ok () s else .error .checksumMismatch s := rfl

/-! ### What a piece may do -/

/-- From s, the piece ends either well, in a state related to s by R, or with an error, in a state related to s by S. -/
def EndsAt {α : Type} (R : State → State → Prop) (S : Err → State → State → Prop) (m : Bus α) (s : State) : Prop :=
  match m s with
  | .ok _ t => R s t
  | .error e t => S e s t

/-- `EndsAt` from every state. -/
def Ends {α : Type} (R : State → State → Prop) (S : Err → State → State → Prop) (m : Bus α) : Prop :=
  ∀ s, EndsAt R S m s

variable {R : State → State → Prop} {S : Err → State → State → Prop}

theorem EndsAt.of_ok {α : Type} {m : Bus α} {s t : State} {a : α} (h : EndsAt R S m s) (ha : m s = .ok a t) : R s t := by
  unfold EndsAt at h
  rwa [ha] at h

theorem EndsAt.of_error {α : Type} {m : Bus α} {s t : State} {e : Err} (h : EndsAt R S m s) (ha : m s = .error e t) :
    S e s t := by
  unfold EndsAt at h
  rwa [ha] at h

theorem EndsAt.ok {α : Type} {m : Bus α} {s t : State} {a : α} (ha : m s = .ok a t) (h : R s t) : EndsAt R S m s := by
  unfold EndsAt
  rwa [ha]

theorem EndsAt.error {α : Type} {m : Bus α} {s t : State} {e : Err} (ha : m s = .error e t) (h : S e s t) :
    EndsAt R S m s := by
  unfold EndsAt
  rwa [ha]

theorem EndsAt.weaken {α : Type} {R' : State → State → Prop} {S' : Err → State → State → Prop} {m : Bus α} {s t : State}
    (hR : ∀ u, R t u → R' s u) (hS : ∀ e u, S e t u → S' e s u) (hm : EndsAt R S m t) :
    match m t with
    | .ok _ u => R' s u
    | .error e u => S' e s u := by
  unfold EndsAt at hm
  revert hm
  cases m t with
  | ok a u => exact hR u
  | error e u => exact hS e u

theorem EndsAt.mono {α : Type} {R' : State → State → Prop} {S' : Err → State → State → Prop} {m : Bus α} {s : State}
    (hm : EndsAt R S m s) (hR : ∀ u, R s u → R' s u) (hS : ∀ e u, S e s u → S' e s u) : EndsAt R' S' m s :=
  EndsAt.weaken hR hS hm

/-- Two relations that go through a sequence of pieces. -/
structure Composes (R : State → State → Prop) (S : Err → State → State → Prop) : Prop where
  refl : ∀ s, R s s
  trans : ∀ s t u, R s t → R t u → R s u
  err : ∀ e s t u, R s t → S e t u → S e s u

theorem EndsAt.bind {α β : Type} {m : Bus α} {f : α → Bus β} {s : State} (hC : Composes R S) (hm : EndsAt R S m s)
    (hf : ∀ a t, m s = .ok a t → EndsAt R S (f a) t) : EndsAt R S (m >>= f) s := by
  unfold EndsAt
  rw [bind_apply]
  cases hms : m s with
  | ok a t =>
    have h := hm.of_ok hms
    exact (hf a t hms).weaken (fun u => hC.trans s t u h) (fun e u => hC.err e s t u h)
  | error e t => exact hm.of_error hms

/-- A check before the rest, which fails without a change. -/
theorem EndsAt.guard {β : Type} {p : Bool} {e : Err} {f : Unit → Bus β} {s : State} (he : S e s s)
    (hf : p = true → EndsAt R S (f ()) s) : EndsAt R S (require p e >>= f) s := by
  unfold EndsAt
  cases hp : p with
  | true =>
    rw [bind_ok (require_true rfl)]
    exact hf hp
  | false =>
    rw [bind_error (require_false rfl)]
    exact he

theorem EndsAt.after {α β : Type} {m : Bus α} {f : α → Bus β} {s : State} {a : α} (hm : m s = .ok a s)
    (hf : EndsAt R S (f a) s) : EndsAt R S (m >>= f) s := by
  unfold EndsAt
  rw [bind_ok hm]
  exact hf

theorem Ends.bind {α β : Type} {m : Bus α} {f : α → Bus β} (hC : Composes R S) (hm : Ends R S m)
    (hf : ∀ a, Ends R S (f a)) : Ends R S (m >>= f) := fun s => (hm s).bind hC fun a t _ => hf a t

theorem Ends.pure {α : Type} (hC : Composes R S) (a : α) : Ends R S (pure a : Bus α) := fun s => hC.refl s

theorem Ends.update {f : State → State} (h : ∀ s, R s (f s)) : Ends R S (update f) := h

theorem Ends.require (hC : Composes R S) (p : Bool) {e : Err} (he : ∀ s, S e s s) : Ends R S (require p e) := by
  intro s
  unfold EndsAt
  rw [require_apply]
  cases p with
  | true => exact hC.refl s
  | false => exact he s

theorem Ends.readState (hC : Composes R S) : Ends R S readState := fun s => hC.refl s

/-- Every value the piece ends with has the property. -/
def Values {α : Type} (V : α → Prop) (m : Bus α) : Prop := ∀ s a t, m s = .ok a t → V a

theorem Values.pure {α : Type} {V : α → Prop} {a : α} (h : V a) : Values V (pure a : Bus α) := by
  rintro s b t hb
  cases hb
  exact h

theorem Values.raise {α : Type} {V : α → Prop} (e : Err) : Values V (raise e : Bus α) := by
  rintro s b t hb
  cases hb

theorem Values.bind {α β : Type} {V : β → Prop} {m : Bus α} {f : α → Bus β} (hf : ∀ a, Values V (f a)) :
    Values V (m >>= f) := by
  intro s b u h
  rw [bind_apply] at h
  cases hm : m s with
  | ok a t =>
    rw [hm] at h
    exact hf a t b u h
  | error e t =>
    rw [hm] at h
    cases h

/-! ### What a piece does on given answers -/

/-- The state after the events `evs`: the transcript has grown, the answers are consumed, ENGINE's position has moved on. -/
def afterEvents : List Event → State → State
  | [], s => s
  | .call c a :: evs, s =>
    afterEvents evs { s.record (.call c a) with answers := s.answers.tail, draws := s.draws + 1 }
  | .hold t :: evs, s => afterEvents evs (s.record (.hold t))

@[simp] theorem answersOf_nil : answersOf [] = [] := rfl

@[simp] theorem answersOf_call (c : Call) (a : Answer) (evs : List Event) :
    answersOf (.call c a :: evs) = a :: answersOf evs := rfl

@[simp] theorem answersOf_hold (t : Duration) (evs : List Event) : answersOf (.hold t :: evs) = answersOf evs := rfl

theorem afterEvents_append (xs ys : List Event) (s : State) :
    afterEvents (xs ++ ys) s = afterEvents ys (afterEvents xs s) := by
  induction xs generalizing s with
  | nil => rfl
  | cons e xs ih => cases e <;> exact ih _

/-- With the answers of `evs` next, and the pull-up off, the piece makes exactly the events `evs` and ends with `a`. -/
def Plays {α : Type} (f : Checksum) (evs : List Event) (m : Bus α) (a : α) : Prop :=
  ∀ s rest, s.crc = f → s.pwrActive = false → s.answers = answersOf evs ++ rest → m s = .ok a (afterEvents evs s)

@[simp] theorem afterEvents_crc (evs : List Event) (s : State) : (afterEvents evs s).crc = s.crc := by
  induction evs generalizing s with
  | nil => rfl
  | cons e evs ih => cases e <;> exact ih _

@[simp] theorem afterEvents_pwrActive (evs : List Event) (s : State) : (afterEvents evs s).pwrActive = s.pwrActive := by
  induction evs generalizing s with
  | nil => rfl
  | cons e evs ih => cases e <;> exact ih _

@[simp] theorem afterEvents_banks (evs : List Event) (s : State) : (afterEvents evs s).banks = s.banks := by
  induction evs generalizing s with
  | nil => rfl
  | cons e evs ih => cases e <;> exact ih _

@[simp] theorem afterEvents_canPower (evs : List Event) (s : State) : (afterEvents evs s).canPower = s.canPower := by
  induction evs generalizing s with
  | nil => rfl
  | cons e evs ih => cases e <;> exact ih _

@[simp] theorem afterEvents_ports (evs : List Event) (s : State) : (afterEvents evs s).ports = s.ports := by
  induction evs generalizing s with
  | nil => rfl
  | cons e evs ih => cases e <;> exact ih _

@[simp] theorem afterEvents_owner (evs : List Event) (s : State) : (afterEvents evs s).owner = s.owner := by
  induction evs generalizing s with
  | nil => rfl
  | cons e evs ih => cases e <;> exact ih _

@[simp] theorem afterEvents_contPtr (evs : List Event) (s : State) : (afterEvents evs s).contPtr = s.contPtr := by
  induction evs generalizing s with
  | nil => rfl
  | cons e evs ih => cases e <;> exact ih _

@[simp] theorem afterEvents_hazard (evs : List Event) (s : State) : (afterEvents evs s).hazard = s.hazard := by
  induction evs generalizing s with
  | nil => rfl
  | cons e evs ih => cases e <;> exact ih _

@[simp] theorem afterEvents_schedule (evs : List Event) (s : State) : (afterEvents evs s).schedule = s.schedule := by
  induction evs generalizing s with
  | nil => rfl
  | cons e evs ih => cases e <;> exact ih _

@[simp] theorem afterEvents_transcript (evs : List Event) (s : State) :
    (afterEvents evs s).transcript = s.transcript ++ evs := by
  induction evs generalizing s with
  | nil => simp [afterEvents]
  | cons e evs ih => cases e <;> simp [afterEvents, ih, List.append_assoc]

@[simp] theorem afterEvents_answers (evs : List Event) (s : State) :
    (afterEvents evs s).answers = s.answers.drop (answersOf evs).length := by
  induction evs generalizing s with
  | nil => rfl
  | cons e evs ih =>
    cases e with
    | call c a => simp [afterEvents, ih, List.drop_tail]
    | hold t => simp [afterEvents, ih]

@[simp] theorem afterEvents_draws (evs : List Event) (s : State) :
    (afterEvents evs s).draws = s.draws + (answersOf evs).length := by
  induction evs generalizing s with
  | nil => rfl
  | cons e evs ih =>
    cases e with
    | call c a => simp [afterEvents, ih]; omega
    | hold t => simp [afterEvents, ih]

theorem answersOf_append (xs ys : List Event) : answersOf (xs ++ ys) = answersOf xs ++ answersOf ys :=
  List.filterMap_append

theorem Plays.pure {α : Type} (f : Checksum) (a : α) : Plays f [] (pure a : Bus α) a := fun _ _ _ _ _ => rfl

theorem Plays.bind {α β : Type} {f : Checksum} {xs ys : List Event} {m : Bus α} {g : α → Bus β} {a : α} {b : β}
    (hm : Plays f xs m a) (hg : Plays f ys (g a) b) : Plays f (xs ++ ys) (m >>= g) b := by
  intro s rest hf hp ha
  rw [answersOf_append, List.append_assoc] at ha
  rw [bind_ok (hm s _ hf hp ha), afterEvents_append]
  refine hg _ rest (by simp [hf]) (by simp [hp]) ?_
  simp [ha]

/-- A piece that makes no event, before one that does. -/
theorem Plays.bind_nil {α β : Type} {f : Checksum} {ys : List Event} {m : Bus α} {g : α → Bus β} {a : α} {b : β}
    (hm : Plays f [] m a) (hg : Plays f ys (g a) b) : Plays f ys (m >>= g) b := Plays.bind hm hg

/-- A piece that makes events, then one that makes none. -/
theorem Plays.bind_last {α β : Type} {f : Checksum} {xs : List Event} {m : Bus α} {g : α → Bus β} {a : α} {b : β}
    (hm : Plays f xs m a) (hg : Plays f [] (g a) b) : Plays f xs (m >>= g) b := by
  have h := Plays.bind hm hg
  rwa [List.append_nil] at h

theorem transport_answered {c : Call} {a : Answer} {s : State} {as : List Answer} (h : s.answers = a :: as)
    (ht : c.admits a = true) (ha : a.failed = false) : transport c s = .ok a (afterEvents [.call c a] s) := by
  have h1 : answerTo c s = a := by simp [answerTo, h, ht]
  simp [transport_apply, h1, ha, afterEvents, afterCall]

theorem transport_refused {c : Call} {a : Answer} {s : State} {as : List Answer} (h : s.answers = a :: as)
    (ht : c.admits a = true) (ha : a.failed = true) :
    transport c s = .error .deviceNotPresent (afterEvents [.call c a] s) := by
  have h1 : answerTo c s = a := by simp [answerTo, h, ht]
  simp [transport_apply, h1, ha, afterEvents, afterCall]

theorem Plays.transport {f : Checksum} {c : Call} {a : Answer} (ht : c.admits a = true) (ha : a.failed = false) :
    Plays f [.call c a] (transport c) a := fun _ _ _ _ h => transport_answered h ht ha

theorem Plays.hold (f : Checksum) (t : Duration) : Plays f [.hold t] (hold t) () := fun _ _ _ _ _ => rfl

theorem Plays.require {f : Checksum} {p : Bool} {e : Err} (h : p = true) : Plays f [] (require p e) () :=
  fun _ _ _ _ _ => require_true h

theorem Plays.checkResidue {f : Checksum} {seed : Half} {bs : List Byte} (h : crcValid f seed bs = true) :
    Plays f [] (checkResidue seed bs) () := by
  intro s rest hf _ _
  simp [Machine.checkResidue, hf, h, afterEvents]

end Sys2Proof.Machine
end

