-- ==== Sys2Proof/Laws/Checksum.lean ====
section
/-! SUPPORT. What each named property of `crc16` (00_scope.md R10, 42_crc_bank.md R216) says of the validity of bytes. -/

namespace Sys2Proof.Machine

theorem crcValid_iff (f : Checksum) (seed : Half) (bs : List Byte) : crcValid f seed bs = true ↔ crc16 f seed bs = validResidue :=
  beq_iff_eq

theorem crcValid_checkBytes {f : Checksum} (h : ResidueLawOf f) (seed : Half) (bs : List Byte) :
    crcValid f seed (bs ++ checkBytes f seed bs) = true := (crcValid_iff f seed _).mpr (h seed bs)

theorem crcValid_eq_false_iff (f : Checksum) (seed : Half) (bs : List Byte) :
    crcValid f seed bs = false ↔ crc16 f seed bs ≠ validResidue := beq_eq_false_iff_ne

theorem crcValid_flipBit {f : Checksum} (h : BitFlipLawOf f) {seed : Half} {bs : List Byte} {j n : Nat} (hj : j < bs.length) (hn : n < 8)
    (hv : crcValid f seed bs = true) : crcValid f seed (flipBit bs j n) = false :=
  (crcValid_eq_false_iff f seed _).mpr (h seed bs j n hj hn ((crcValid_iff f seed bs).mp hv))

theorem crcValid_otherSeed {f : Checksum} (h : SeedBindingLawOf f) {s t : Half} {bs : List Byte} (hst : s ≠ t)
    (hv : crcValid f s bs = true) : crcValid f t bs = false :=
  (crcValid_eq_false_iff f t bs).mpr (h s t bs hst ((crcValid_iff f s bs).mp hv))

@[simp] theorem length_flipBit (bs : List Byte) (j n : Nat) : (flipBit bs j n).length = bs.length := List.length_modify _ _ _

theorem take_flipBit {bs : List Byte} {j n m : Nat} : (flipBit bs j n).take m = flipBit (bs.take m) j n := List.take_modify _ _ _ _

end Sys2Proof.Machine
end

