-- ==== Sys2Proof/Laws/Choice.lean ====
section
/-! SUPPORT. Which clients the scheduler may choose (45_config_scope_ops.md R328, R329). -/

namespace Sys2Proof.Machine

theorem takeable_some_iff (s : State) (c : Nat) (req : Request) :
    takeable s c = some req ↔ ∃ resp, s.port? c = some ⟨some req, resp⟩ ∧ eligible s c req = true := by
  unfold takeable
  split
  case h_1 r resp h => by_cases he : eligible s c r <;> simp [h, he] <;> rintro rfl <;> simp_all
  case h_2 h => exact ⟨fun h => (nomatch h), fun ⟨resp, hp, _⟩ => (h req resp hp).elim⟩

theorem mem_eligibleClients (s : State) (c : Nat) : c ∈ eligibleClients s ↔ ∃ req, takeable s c = some req := by
  rw [eligibleClients, List.mem_filter, List.mem_range, Option.isSome_iff_exists]
  refine ⟨And.right, fun h => ⟨?_, h⟩⟩
  obtain ⟨req, h⟩ := h
  obtain ⟨resp, hp, -⟩ := (takeable_some_iff s c req).mp h
  exact (List.getElem?_eq_some_iff.mp hp).1

theorem chooseClient_mem {v : Nat} {s : State} {c : Nat} (h : chooseClient v s = some c) : c ∈ eligibleClients s :=
  List.mem_of_getElem? h

end Sys2Proof.Machine
end

