-- ==== Sys2Proof/Laws/Config.lean ====
section
/-! SUPPORT. Each check of a configuration (00_scope.md R6, R7) as a proposition. -/

namespace Sys2Proof.Machine

theorem crcStrategy_iff {k : BankConfig} : crcStrategy k = true ↔ k.strategy = .crc ∨ k.strategy = .password := by
  simp [crcStrategy]

theorem rangesOk_iff {k : BankConfig} : rangesOk k = true ↔
    1 ≤ k.size ∧ k.size ≤ 65536 ∧ 1 ≤ k.pageLength ∧ k.pageLength ≤ k.size ∧ k.startPhys ≤ 65535 ∧ k.extraLen ≤ 255 ∧
    k.nvb ≤ 255 ∧ 1 ≤ k.spMetaLen ∧ k.spMetaLen ≤ 255 ∧ 1 ≤ k.pwLen ∧ k.pwLen ≤ 255 ∧ k.pwPoweredVerifyBytes ≤ 255 := by
  simp [rangesOk, and_assoc]

theorem checkW1_iff {k : BankConfig} : checkW1 k = true ↔
    1 ≤ k.size ∧ 1 ≤ k.pageLength ∧ k.size % k.pageLength = 0 ∧ k.startPhys + k.size ≤ 65536 := by
  simp [checkW1, and_assoc]

theorem checkW2_iff {k : BankConfig} : checkW2 k = true ↔ (crcStrategy k = true → 3 + k.extraLen ≤ k.pageLength) := by
  cases h : crcStrategy k <;> simp [checkW2, h]

theorem checkW3_iff {k : BankConfig} : checkW3 k = true ↔
    (readOnly k = true → readWrite k = false ∧ writeOnce k = false) := by
  cases h : readOnly k <;> simp [checkW3, h]

theorem checkW4_iff {k : BankConfig} : checkW4 k = true ↔
    (hasExtraInfo k = true → crcStrategy k = true ∧ 1 ≤ k.extraLen) ∧ (hasExtraInfo k = false → k.extraLen = 0) := by
  cases h : hasExtraInfo k <;> simp [checkW4, h]

theorem checkW5_iff {k : BankConfig} : checkW5 k = true ↔ (hasPageAutoCrc k = true ↔ crcStrategy k = true) := by
  cases h : hasPageAutoCrc k <;> cases g : crcStrategy k <;> simp [checkW5, h, g]

theorem checkW6_iff {k : BankConfig} : checkW6 k = true ↔ (k.strategy = .plain → k.hasNativeRead = true) := by
  cases h : k.hasNativeRead <;> simp [checkW6, h]

theorem checkW7_iff {k : BankConfig} : checkW7 k = true ↔
    (k.strategy = .scratchpad → k.echoWrite = false ∧ 1 ≤ k.spMetaLen) := by
  by_cases h : k.strategy = .scratchpad <;> simp [checkW7, h]

theorem checkW8_iff {k : BankConfig} : checkW8 k = true ↔ (k.strategy = .password → 1 ≤ k.pwLen) := by
  by_cases h : k.strategy = .password <;> simp [checkW8, h]

theorem checkW9_iff {k : BankConfig} : checkW9 k = true ↔ (needsProgramPulse k = true → k.echoWrite = true) := by
  cases h : needsProgramPulse k <;> simp [checkW9, h]

theorem checkW10_iff {k : BankConfig} : checkW10 k = true ↔ ∀ v, k.strategy ≠ .reserved v := by
  cases h : k.strategy <;> simp [checkW10, h]

theorem bankAdmitted_iff {k : BankConfig} : bankAdmitted k = true ↔
    rangesOk k = true ∧ checkW1 k = true ∧ checkW2 k = true ∧ checkW3 k = true ∧ checkW4 k = true ∧ checkW5 k = true ∧
    checkW6 k = true ∧ checkW7 k = true ∧ checkW8 k = true ∧ checkW9 k = true ∧ checkW10 k = true := by
  simp [bankAdmitted, and_assoc]

end Sys2Proof.Machine
end

