-- ==== Sys2Proof/Laws/Decode.lean ====
section
/-! SUPPORT. The fields of a request word, the mask of an opcode, and what the decoder answers in terms of them. -/

namespace Sys2Proof

theorem ofCode_code (op : Opcode) : Opcode.ofCode op.code = some op := by cases op <;> decide +kernel

theorem code_ofCode {v : Byte} {op : Opcode} (h : Opcode.ofCode v = some op) : op.code = v := by
  have := List.find?_some h
  simpa using this

theorem fieldOp_requestWord (op : Opcode) (c : Bool) (b : Byte) : fieldOp (requestWord op c b) = op.code := by
  unfold fieldOp requestWord
  ext i hi
  simp [hi, show i < 32 by omega, show i < 16 by omega]

theorem fieldC_requestWord (op : Opcode) (c : Bool) (b : Byte) : fieldC (requestWord op c b) = c := by
  simp [fieldC, requestWord]

theorem fieldBank_requestWord (op : Opcode) (c : Bool) (b : Byte) : fieldBank (requestWord op c b) = b := by
  unfold fieldBank requestWord
  ext i hi
  have h1 : ¬ 16 + i - 8 = 0 := by omega
  have h2 : op.code.getLsbD (16 + i) = false := BitVec.getLsbD_of_ge _ _ (by omega)
  simp [hi, h1, h2, show 16 + i < 32 by omega, show ¬ 16 + i < 8 by omega]

theorem fieldReservedLow_requestWord (op : Opcode) (c : Bool) (b : Byte) :
    fieldReservedLow (requestWord op c b) = 0 := by
  unfold fieldReservedLow requestWord
  ext i hi
  have h1 : ¬ 9 + i - 8 = 0 := by omega
  have h2 : op.code.getLsbD (9 + i) = false := BitVec.getLsbD_of_ge _ _ (by omega)
  simp [h1, h2, show 9 + i < 16 by omega]

theorem fieldReservedHigh_requestWord (op : Opcode) (c : Bool) (b : Byte) :
    fieldReservedHigh (requestWord op c b) = 0 := by
  unfold fieldReservedHigh requestWord
  ext i hi
  have h1 : ¬ 24 + i - 8 = 0 := by omega
  have h2 : op.code.getLsbD (24 + i) = false := BitVec.getLsbD_of_ge _ _ (by omega)
  have h3 : b.getLsbD (24 + i - 16) = false := BitVec.getLsbD_of_ge _ _ (by omega)
  simp [h1, h2, h3, show ¬ 24 + i < 16 by omega]

/-- A word is the request word of its fields when its reserved fields are 0 (R101, R108). -/
theorem requestWord_fields {w : Word} {op : Opcode} (ho : fieldOp w = op.code) (hl : fieldReservedLow w = 0)
    (hh : fieldReservedHigh w = 0) : requestWord op (fieldC w) (fieldBank w) = w := by
  have bit (i : Nat) (h : i < 8) : op.code.getLsbD i = w.getLsbD i := by
    rw [← ho]
    simp [fieldOp, h]
  have low (i : Nat) (h : i < 7) : w.getLsbD (9 + i) = false := by
    have := congrArg (fun x => x.getLsbD i) hl
    simpa [fieldReservedLow, h] using this
  have high (i : Nat) (h : i < 8) : w.getLsbD (24 + i) = false := by
    have := congrArg (fun x => x.getLsbD i) hh
    simpa [fieldReservedHigh, h] using this
  apply BitVec.eq_of_getLsbD_eq
  intro i hi
  simp only [requestWord, fieldC, fieldBank, BitVec.getLsbD_or, BitVec.getLsbD_setWidth, BitVec.getLsbD_shiftLeft,
    BitVec.getLsbD_extractLsb', BitVec.getLsbD_ofBool]
  by_cases h8 : i < 8
  · simpa [hi, h8, show i < 16 by omega] using bit i h8
  · by_cases h9 : i = 8
    · subst h9
      simp
    · by_cases h16 : i < 16
      · obtain ⟨j, rfl⟩ : ∃ j, i = 9 + j := ⟨i - 9, by omega⟩
        simp [h16, low j (by omega), show ¬ 9 + j - 8 = 0 by omega, show 8 ≤ 9 + j by omega]
      · by_cases h24 : i < 24
        · simp [hi, h8, h16, show ¬ i - 8 = 0 by omega, show 8 ≤ i by omega, show i - 16 < 8 by omega,
            show i - 16 < 32 by omega, show 16 + (i - 16) = i by omega]
        · obtain ⟨j, rfl⟩ : ∃ j, i = 24 + j := ⟨i - 24, by omega⟩
          simp [high j (by omega), show ¬ 24 + j - 8 = 0 by omega, show 8 ≤ 24 + j by omega,
            show ¬ 24 + j - 16 < 8 by omega]

/-- The mask of an opcode's row (R104). -/
def maskOf (op : Opcode) : Word := if op.takesContinue then 0xFF00FEFF#32 else 0xFF00FFFF#32

theorem maskOf_bits (op : Opcode) :
    (∀ i < 8, (maskOf op).getLsbD i = true) ∧ (maskOf op).getLsbD 8 = !op.takesContinue ∧
    (∀ i < 7, (maskOf op).getLsbD (9 + i) = true) ∧ (∀ i < 8, (maskOf op).getLsbD (16 + i) = false) ∧
    (∀ i < 8, (maskOf op).getLsbD (24 + i) = true) := by
  cases op <;> decide +kernel

/-- A word matches its opcode's row iff its fields are right (R101, R104). -/
theorem mask_matches (op : Opcode) (w : Word) : w &&& maskOf op = op.code.setWidth 32 ↔
    fieldOp w = op.code ∧ fieldReservedLow w = 0 ∧ fieldReservedHigh w = 0 ∧
    (op.takesContinue = false → fieldC w = false) := by
  obtain ⟨m0, m8, m9, m16, m24⟩ := maskOf_bits op
  constructor
  · intro h
    have bit (i : Nat) : (w.getLsbD i && (maskOf op).getLsbD i) = (op.code.setWidth 32).getLsbD i := by
      rw [← BitVec.getLsbD_and, h]
    have above (i : Nat) (hi : 8 ≤ i) : (op.code.setWidth 32).getLsbD i = false := by
      rw [BitVec.getLsbD_setWidth, BitVec.getLsbD_of_ge op.code i hi, Bool.and_false]
    refine ⟨?_, ?_, ?_, fun hc => ?_⟩
    · apply BitVec.eq_of_getLsbD_eq
      intro i hi
      have hb := bit i
      rw [m0 i hi, Bool.and_true] at hb
      rw [fieldOp, BitVec.getLsbD_extractLsb', Nat.zero_add, hb, BitVec.getLsbD_setWidth]
      simp [hi, show i < 32 by omega]
    · apply BitVec.eq_of_getLsbD_eq
      intro i hi
      have hb := bit (9 + i)
      rw [m9 i hi, Bool.and_true, above _ (by omega)] at hb
      simp [fieldReservedLow, hb]
    · apply BitVec.eq_of_getLsbD_eq
      intro i hi
      have hb := bit (24 + i)
      rw [m24 i hi, Bool.and_true, above _ (by omega)] at hb
      simp [fieldReservedHigh, hb]
    · have hb := bit 8
      rw [m8, hc, Bool.not_false, Bool.and_true, above _ (le_refl _)] at hb
      exact hb
  · rintro ⟨ho, hl, hh, hc⟩
    have hw := requestWord_fields ho hl hh
    have bank (i : Nat) : w.getLsbD i = (requestWord op (fieldC w) (fieldBank w)).getLsbD i := by rw [hw]
    apply BitVec.eq_of_getLsbD_eq
    intro i hi
    rw [BitVec.getLsbD_and, bank]
    simp only [requestWord, BitVec.getLsbD_or, BitVec.getLsbD_setWidth, BitVec.getLsbD_shiftLeft, BitVec.getLsbD_ofBool]
    by_cases h8 : i < 8
    · simp [hi, h8, m0 i h8, show i < 16 by omega]
    have hz : op.code.getLsbD i = false := BitVec.getLsbD_of_ge _ _ (by omega)
    by_cases h9 : i = 8
    · subst h9
      rw [m8]
      cases ht : op.takesContinue with
      | true => simp
      | false => simp [hc ht]
    have h1 : ¬ i - 8 = 0 := by omega
    by_cases h16 : i < 16
    · simp [hz, h1, h16]
    by_cases h24 : i < 24
    · obtain ⟨j, rfl⟩ : ∃ j, i = 16 + j := ⟨i - 16, by omega⟩
      simp [hz, m16 j (by omega)]
    · have hb : (fieldBank w).getLsbD (i - 16) = false := BitVec.getLsbD_of_ge _ _ (by omega)
      simp [hz, h1, hb]

/-- What the decoder accepts, and what it answers (R106). -/
theorem decode_ok_iff {nb : Nat} {r : Request} {i : Instr} : decode nb r = .ok i ↔
    ∃ op : Opcode, fieldOp r.w = op.code ∧ fieldReservedLow r.w = 0 ∧ fieldReservedHigh r.w = 0 ∧
      (op.takesContinue = false → fieldC r.w = false) ∧ (op.takesData = true → r.d.length = r.l.toNat) ∧
      (op.takesData = false → r.d = []) ∧ (op.namesBank = true → (fieldBank r.w).toNat < nb) ∧
      i = op.build (fieldC r.w) (fieldBank r.w) r.a r.l r.d := by
  constructor
  · intro h
    unfold decode at h
    cases ho : Opcode.ofCode (fieldOp r.w) with
    | none =>
      rw [ho] at h
      cases h
    | some op =>
      rw [ho] at h
      dsimp only at h
      split at h
      · cases h
      split at h
      · cases h
      split at h
      · cases h
      split at h
      · cases h
      split at h
      · cases h
      rename_i h1 h2 h3 h4 h5
      cases h
      rw [not_or, not_not, not_not] at h1
      refine ⟨op, (code_ofCode ho).symm, h1.1, h1.2, fun hc => ?_, fun hd => ?_, fun hd => ?_, fun hb => ?_, rfl⟩
      · simpa [hc] using h2
      · simpa [hd] using h3
      · simpa [hd] using h4
      · simpa [hb] using h5
  · rintro ⟨op, ho, hl, hh, hc, hd, he, hb, rfl⟩
    unfold decode
    rw [ho, ofCode_code]
    dsimp only
    rw [if_neg (by simp [hl, hh]), if_neg, if_neg, if_neg, if_neg]
    · rintro ⟨h1, h2⟩
      have := hb h1
      omega
    · rintro ⟨h1, h2⟩
      exact h2 (he (by simpa using h1))
    · rintro ⟨h1, h2⟩
      exact h2 (hd h1)
    · rintro ⟨h1, h2⟩
      have := hc (by simpa using h2)
      rw [this] at h1
      cases h1

end Sys2Proof
end

