-- ==== Sys2Proof/Laws/Ends.lean ====
section
/-! SUPPORT. One lemma per shared operation: what relates the state it ends in to the state it began in. `Traffic` names what the
relation must allow: calls, checks that fail, and the powered tail. `Body` adds what a request writes around its traffic, CONT_CHECK
and CONT_SET; `Touch` adds BEGIN_BUS. -/

namespace Sys2Proof.Machine

/-- The calls made outside `ensure_speed` and the powered tail (40_transport_speed.md R141, R142, R144, R148). -/
def bodyCall : Call → Bool
  | .select _ => true
  | .exchange _ => true
  | .get => true
  | .programPulse => true
  | _ => false

/-- The calls of the powered tail (R143, R147, R150). -/
def tailCall : Call → Bool
  | .powerDuration _ => true
  | .powerStart _ => true
  | .put _ => true
  | .powerNormal => true
  | _ => false

/-- The errors of a check on received bytes: every bus-phase failure but DeviceNotPresent (60_exceptions.md R360). -/
def checkErr (e : Err) : Bool := busPhase e && e != .deviceNotPresent

/-- What two relations must allow so that every transfer keeps them. -/
structure Traffic (R : State → State → Prop) (S : Err → State → State → Prop) : Prop extends Composes R S where
  call : ∀ c s, bodyCall c = true → (answerTo c s).failed = false → R s (afterCall c s)
  fail : ∀ c s, bodyCall c = true → (answerTo c s).failed = true → S .deviceNotPresent s (afterCall c s)
  check : ∀ e s, checkErr e = true → S e s s
  tail : ∀ x t, Ends R S (poweredTail x t)

variable {R : State → State → Prop} {S : Err → State → State → Prop}

theorem ends_call {c : Call} (call : ∀ s, (answerTo c s).failed = false → R s (afterCall c s))
    (fail : ∀ s, (answerTo c s).failed = true → S .deviceNotPresent s (afterCall c s)) : Ends R S (transport c) := by
  intro s
  unfold EndsAt
  rw [transport_apply]
  cases h : (answerTo c s).failed with
  | true => exact fail s h
  | false => exact call s h

/-- The powered tail keeps relations that allow holds and any write of `pwr_active`. -/
theorem ends_poweredTail (hC : Composes R S)
    (call : ∀ c s, tailCall c = true → (answerTo c s).failed = false → R s (afterCall c s))
    (fail : ∀ c s, tailCall c = true → (answerTo c s).failed = true → S .deviceNotPresent s (afterCall c s))
    (hold : ∀ t s, R s (s.record (.hold t))) (power : ∀ v s, R s (s.setPower v)) (x : Byte) (t : Duration) :
    Ends R S (poweredTail x t) :=
  have tr (c : Call) (h : tailCall c = true) : Ends R S (transport c) :=
    ends_call (fun s => call c s h) (fun s => fail c s h)
  (tr _ rfl).bind hC fun _ => (tr _ rfl).bind hC fun _ => (Ends.update (power true)).bind hC fun _ =>
    (tr _ rfl).bind hC fun _ => (Ends.update (hold t)).bind hC fun _ => (tr _ rfl).bind hC fun _ =>
    Ends.update (power false)

namespace Traffic

variable (hT : Traffic R S)

include hT

theorem transport {c : Call} (hc : bodyCall c = true) : Ends R S (transport c) :=
  ends_call (fun s => hT.call c s hc) (fun s => hT.fail c s hc)

theorem select (k : BankConfig) : Ends R S (select k) :=
  (hT.transport rfl).bind hT.toComposes fun _ => Ends.pure hT.toComposes _

theorem exchange (bs : List Byte) : Ends R S (exchange bs) :=
  (hT.transport rfl).bind hT.toComposes fun _ => Ends.pure hT.toComposes _

theorem getByte : Ends R S getByte :=
  (hT.transport rfl).bind hT.toComposes fun _ => Ends.pure hT.toComposes _

theorem require (p : Bool) {e : Err} (he : checkErr e = true) : Ends R S (require p e) :=
  Ends.require hT.toComposes p fun s => hT.check e s he

theorem checkResidue (seed : Half) (bs : List Byte) : Ends R S (checkResidue seed bs) := by
  intro s
  unfold EndsAt
  rw [checkResidue_apply]
  cases crcValid s.crc seed bs with
  | true => exact hT.refl s
  | false => exact hT.check _ s rfl

theorem xferRead (k : Bank) (pre : List Byte) (n : Nat) : Ends R S (xferRead k pre n) := by
  unfold Machine.xferRead
  split
  · exact (hT.exchange _).bind hT.toComposes fun _ => (hT.tail _ _).bind hT.toComposes fun _ => hT.exchange _
  · exact (hT.exchange _).bind hT.toComposes fun _ => Ends.pure hT.toComposes _

theorem fetchData (k : Bank) (cont : Bool) (cmd : Byte) (a : Half) (n : Nat) : Ends R S (fetchData k cont cmd a n) := by
  unfold Machine.fetchData
  split
  · exact hT.exchange _
  · exact (hT.select _).bind hT.toComposes fun _ => hT.xferRead _ _ _

theorem programPulse (k : Bank) : Ends R S (programPulse k) := by
  unfold Machine.programPulse
  split
  · exact (hT.transport rfl).bind hT.toComposes fun _ => Ends.pure hT.toComposes _
  · exact Ends.pure hT.toComposes _

theorem echoVerify (k : Bank) (seed : Half) (bs : List Byte) (d : Byte) : Ends R S (echoVerify k seed bs d) :=
  (hT.checkResidue _ _).bind hT.toComposes fun _ => (hT.programPulse _).bind hT.toComposes fun _ =>
    hT.getByte.bind hT.toComposes fun _ => hT.require _ rfl

theorem echoRest (k : Bank) (a : Half) (ds : List Byte) : Ends R S (echoRest k a ds) := by
  induction ds generalizing a with
  | nil => exact Ends.pure hT.toComposes _
  | cons d ds ih =>
    exact (hT.exchange _).bind hT.toComposes fun _ => (hT.echoVerify _ _ _ _).bind hT.toComposes fun _ => ih _

theorem writeBytes (k : Bank) (o : Nat) (d : List Byte) : Ends R S (writeBytes k o d) := by
  unfold Machine.writeBytes Machine.echoWriteSeq
  split
  · refine (hT.select _).bind hT.toComposes fun _ => ?_
    cases d with
    | nil => exact Ends.pure hT.toComposes _
    | cons d0 ds =>
      exact (hT.exchange _).bind hT.toComposes fun _ => (hT.echoVerify _ _ _ _).bind hT.toComposes fun _ =>
        hT.echoRest _ _ _
  · exact (hT.select _).bind hT.toComposes fun _ => (hT.exchange _).bind hT.toComposes fun _ => Ends.pure hT.toComposes _

theorem crcPage (k : Bank) (p : Nat) (cont : Bool) : Ends R S (crcPage k p cont) :=
  (hT.fetchData _ _ _ _ _).bind hT.toComposes fun _ => (Ends.readState hT.toComposes).bind hT.toComposes fun _ =>
    (hT.checkResidue _ _).bind hT.toComposes fun _ => Ends.pure hT.toComposes _

theorem crcPages (k : Bank) (cont : Bool) (ps : List Nat) : Ends R S (crcPages k cont ps) := by
  induction ps generalizing cont with
  | nil => exact Ends.pure hT.toComposes _
  | cons p ps ih =>
    exact (hT.crcPage _ _ _).bind hT.toComposes fun ⟨_, _⟩ => (ih _).bind hT.toComposes fun _ => Ends.pure hT.toComposes _

theorem writeSp (k : Bank) (q : Nat) (ds : List Byte) : Ends R S (writeSp k q ds) :=
  (hT.select _).bind hT.toComposes fun _ => (hT.exchange _).bind hT.toComposes fun _ => Ends.pure hT.toComposes _

theorem readSp (k : Bank) : Ends R S (readSp k) :=
  (hT.select _).bind hT.toComposes fun _ => (hT.exchange _).bind hT.toComposes fun _ =>
    (hT.checkResidue _ _).bind hT.toComposes fun _ => Ends.pure hT.toComposes _

theorem compareSp (k : Bank) (q : Nat) (ds sp : List Byte) : Ends R S (compareSp k q ds sp) := hT.require _ rfl

theorem copySp (k : Bank) (q : Nat) (st : Byte) : Ends R S (copySp k q st) :=
  (hT.select _).bind hT.toComposes fun _ => (hT.exchange _).bind hT.toComposes fun _ =>
    (hT.tail _ _).bind hT.toComposes fun _ => hT.getByte.bind hT.toComposes fun _ => hT.require _ rfl

theorem spSegment (k : Bank) (q : Nat) (ds : List Byte) : Ends R S (spSegment k q ds) :=
  (hT.writeSp _ _ _).bind hT.toComposes fun _ => (hT.readSp _).bind hT.toComposes fun ⟨_, _⟩ =>
    (hT.compareSp _ _ _ _).bind hT.toComposes fun _ => hT.copySp _ _ _

theorem spSegments (k : Bank) (gs : List (Nat × List Byte)) : Ends R S (spSegments k gs) := by
  induction gs with
  | nil => exact Ends.pure hT.toComposes _
  | cons g gs ih =>
    obtain ⟨q, ds⟩ := g
    exact (hT.spSegment _ _ _).bind hT.toComposes fun _ => ih

theorem writeTransfer (k : Bank) (o : Nat) (d : List Byte) : Ends R S (writeTransfer k o d) := by
  unfold Machine.writeTransfer
  split
  · exact hT.spSegments _ _
  · exact hT.writeBytes _ _ _

theorem recallPage (k : Bank) (p : Nat) : Ends R S (recallPage k p) := by
  unfold Machine.recallPage
  split
  · exact (hT.select _).bind hT.toComposes fun _ => (hT.exchange _).bind hT.toComposes fun _ => Ends.pure hT.toComposes _
  · exact Ends.pure hT.toComposes _

theorem spReadPage (k : Bank) (p : Nat) : Ends R S (spReadPage k p) :=
  (hT.recallPage _ _).bind hT.toComposes fun _ => (hT.readSp _).bind hT.toComposes fun ⟨_, _⟩ => Ends.pure hT.toComposes _

theorem spReadPages (k : Bank) (ps : List Nat) : Ends R S (spReadPages k ps) := by
  induction ps with
  | nil => exact Ends.pure hT.toComposes _
  | cons p ps ih =>
    exact (hT.spReadPage _ _).bind hT.toComposes fun _ => ih.bind hT.toComposes fun _ => Ends.pure hT.toComposes _

theorem spReadRange (k : Bank) (o n : Nat) : Ends R S (spReadRange k o n) :=
  (hT.spReadPages _ _).bind hT.toComposes fun _ => Ends.pure hT.toComposes _

end Traffic

/-- What two relations must allow so that a request keeps them after its BEGIN_BUS: it saw the pointer `prev`, `want` are the pointers
that it may check, with its C bit, and `next` those that it may leave. -/
structure Body (prev : Option ContPtr) (want : Bool → ContPtr → Prop) (next : ContPtr → Prop) (R : State → State → Prop)
    (S : Err → State → State → Prop) : Prop extends Traffic R S where
  checks : ∀ cont w, want cont w → Ends R S (contCheck cont w prev)
  sets : ∀ s p, next p → R s (s.setCont (some p))

/-- What two relations must allow so that a whole request on bank b keeps them. -/
structure Touch (b : Nat) (prev : Option ContPtr) (want : Bool → ContPtr → Prop) (next : ContPtr → Prop) (R : State → State → Prop)
    (S : Err → State → State → Prop) : Prop extends Body prev want next R S where
  begins : ∀ s k, s.bank? b = some k → EndsAt R S (beginBus b) s

/-- BEGIN_BUS answers the pointer the request saw. -/
theorem beginBus_value {b : Nat} {s t : State} {prev : Option ContPtr} (h : beginBus b s = .ok prev t) :
    prev = s.contPtr := by
  rw [beginBus, bind_ok (readState_apply s), bind_ok (update_apply _ s), bind_apply] at h
  cases hb : ensureSpeed b ((s.setCont none).setPower false) with
  | ok a u =>
    rw [hb] at h
    cases h
    rfl
  | error e u =>
    rw [hb] at h
    cases h

/-- `ensure_speed`, on a bank that is there. -/
theorem ends_ensureSpeed (hC : Composes R S) {b : Nat} {k : Bank} {s : State} (h : s.bank? b = some k)
    (call : ∀ c s, (answerTo c s).failed = false → R s (afterCall c s))
    (fail : ∀ c s, (answerTo c s).failed = true → S .deviceNotPresent s (afterCall c s))
    (speed : ∀ s, R s (s.setSpeed b .verified)) : EndsAt R S (ensureSpeed b) s := by
  refine EndsAt.after (bankContext_some h) ?_
  by_cases hv : k.speed = .verified
  · rw [if_pos hv]
    exact Ends.pure hC _ s
  · rw [if_neg hv]
    exact ((ends_call (call _) (fail _)).bind hC fun _ => (ends_call (call _) (fail _)).bind hC fun _ =>
      Ends.update speed) s

/-- BEGIN_BUS, on a bank that is there. -/
theorem ends_beginBus (hC : Composes R S) {b : Nat} {k : Bank} {s : State} (h : s.bank? b = some k)
    (call : ∀ c s, (answerTo c s).failed = false → R s (afterCall c s))
    (fail : ∀ c s, (answerTo c s).failed = true → S .deviceNotPresent s (afterCall c s))
    (speed : ∀ s, R s (s.setSpeed b .verified)) (clear : ∀ s, R s ((s.setCont none).setPower false)) :
    EndsAt R S (beginBus b) s := by
  refine EndsAt.after (readState_apply s) (EndsAt.bind hC (Ends.update clear s) ?_)
  intro _ t ht
  cases ht
  refine EndsAt.bind hC (ends_ensureSpeed hC (k := k) h call fail speed) ?_
  exact fun _ t _ => Ends.pure hC _ t

/-- What a page read does after BEGIN_BUS (42_crc_bank.md R206). -/
def pageReadTail {α : Type} (c : Nat) (cont : Bool) (b : Nat) (k : Bank) (p : Nat) (use : List Byte × List Byte → Bus α)
    (prev : Option ContPtr) : Bus α := do
  contCheck cont ⟨c, b, .page, pageOffset k.cfg p⟩ prev
  let page ← crcPage k p cont
  let out ← use page
  contSet ⟨c, b, .page, pageOffset k.cfg (p + 1)⟩
  pure out

theorem pageReadBody_eq {α : Type} {c : Nat} {cont : Bool} {b : Nat} {k : Bank} {p : Nat}
    {use : List Byte × List Byte → Bus α} :
    pageReadBody c cont b k p use = beginBus b >>= pageReadTail c cont b k p use := rfl

namespace Body

variable {prev : Option ContPtr} {want : Bool → ContPtr → Prop} {next : ContPtr → Prop} (hT : Body prev want next R S)

include hT

theorem contSet {p : ContPtr} (hp : next p) : Ends R S (contSet p) := fun s => hT.sets s p hp

theorem nativeRead {c b : Nat} {o n : Nat} (k : Bank) (cont : Bool) (hw : want cont ⟨c, b, .byte, o⟩)
    (hn : next ⟨c, b, .byte, o + n⟩) : Ends R S (nativeRead c b k o n cont prev) :=
  (hT.checks _ _ hw).bind hT.toComposes fun _ => (hT.fetchData _ _ _ _ _).bind hT.toComposes fun _ =>
    (hT.contSet hn).bind hT.toComposes fun _ => Ends.pure hT.toComposes _

theorem crcReadRange {c b : Nat} {o n : Nat} (k : Bank) (cont : Bool)
    (hw : want cont ⟨c, b, .page, pageOffset k.cfg (firstPage k.cfg o)⟩)
    (hn : next ⟨c, b, .page, pageOffset k.cfg (lastPage k.cfg o n + 1)⟩) :
    Ends R S (crcReadRange c b k o n cont prev) :=
  (hT.checks _ _ hw).bind hT.toComposes fun _ => (hT.crcPages _ _ _).bind hT.toComposes fun _ =>
    (hT.contSet hn).bind hT.toComposes fun _ => Ends.pure hT.toComposes _

theorem pageReadTail {α : Type} {c b p : Nat} (k : Bank) (cont : Bool) {use : List Byte × List Byte → Bus α}
    (hw : want cont ⟨c, b, .page, pageOffset k.cfg p⟩) (hn : next ⟨c, b, .page, pageOffset k.cfg (p + 1)⟩)
    (hu : ∀ x, Ends R S (use x)) : Ends R S (pageReadTail c cont b k p use prev) :=
  (hT.checks _ _ hw).bind hT.toComposes fun _ => (hT.crcPage _ _ _).bind hT.toComposes fun _ =>
    (hu _).bind hT.toComposes fun _ => (hT.contSet hn).bind hT.toComposes fun _ => Ends.pure hT.toComposes _

end Body

end Sys2Proof.Machine
end

