-- ==== Sys2Proof/Laws/Plays.lean ====
section
/-! SUPPORT. One lemma per shared operation: the value it ends in when the transport answers as a given list of events says, and
the events are exactly those. `Breaks` says the same of a piece that ends in an error. -/

namespace Sys2Proof.Machine

variable {f : Checksum}

/-! ### Pieces that end in an error -/

/-- When the transport answers as in `evs`, the piece makes exactly the events `evs` and raises e. -/
def Breaks {α : Type} (f : Checksum) (evs : List Event) (m : Bus α) (e : Err) : Prop :=
  ∀ s rest, s.crc = f → s.pwrActive = false → s.answers = answersOf evs ++ rest → m s = .error e (afterEvents evs s)

theorem Plays.cast {α : Type} {xs ys : List Event} {m : Bus α} {a : α} (h : ys = xs) (hm : Plays f xs m a) :
    Plays f ys m a := h ▸ hm

theorem Breaks.cast {α : Type} {xs ys : List Event} {m : Bus α} {e : Err} (h : ys = xs) (hm : Breaks f xs m e) :
    Breaks f ys m e := h ▸ hm

theorem Breaks.bind {α β : Type} {xs : List Event} {m : Bus α} {g : α → Bus β} {e : Err} (hm : Breaks f xs m e) :
    Breaks f xs (m >>= g) e := fun s rest hf hp ha => bind_error (hm s rest hf hp ha)

theorem Plays.breaks {α β : Type} {xs ys : List Event} {m : Bus α} {g : α → Bus β} {a : α} {e : Err}
    (hm : Plays f xs m a) (hg : Breaks f ys (g a) e) : Breaks f (xs ++ ys) (m >>= g) e := by
  intro s rest hf hp ha
  rw [answersOf_append, List.append_assoc] at ha
  rw [bind_ok (hm s _ hf hp ha), afterEvents_append]
  refine hg _ rest (by simp [hf]) (by simp [hp]) ?_
  simp [ha]

theorem Breaks.require {p : Bool} {e : Err} (h : p = false) : Breaks f [] (require p e) e :=
  fun _ _ _ _ _ => require_false h

theorem Breaks.checkResidue {seed : Half} {bs : List Byte} (h : crcValid f seed bs = false) :
    Breaks f [] (checkResidue seed bs) .checksumMismatch := by
  intro s rest hf _ _
  simp [Machine.checkResidue, hf, h, afterEvents]

/-! ### Transport calls -/

theorem plays_select (k : Bank) : Plays f [selectEvent k] (select k.cfg) () :=
  Plays.bind_last (Plays.transport rfl rfl) (Plays.pure f ())

theorem plays_exchange {sent got : List Byte} (h : got.length = sent.length) :
    Plays f [exchangeEvent sent got] (exchange sent) got :=
  Plays.bind_last (a := .bytes got) (Plays.transport (by simp [Call.admits, h]) rfl) (Plays.pure f _)

theorem plays_getByte (e : Byte) : Plays f [getEvent e] getByte e :=
  Plays.bind_last (a := .byte e) (Plays.transport rfl rfl) (Plays.pure f _)

theorem plays_readState_bind {α : Type} {evs : List Event} {g : Checksum → Bus α} {a : α} (h : Plays f evs (g f) a) :
    Plays f evs (readState >>= fun s => g s.crc) a := by
  intro s rest hf hp ha
  rw [bind_ok (readState_apply s), hf]
  exact h s rest hf hp ha

theorem breaks_readState_bind {α : Type} {evs : List Event} {g : Checksum → Bus α} {e : Err} (h : Breaks f evs (g f) e) :
    Breaks f evs (readState >>= fun s => g s.crc) e := by
  intro s rest hf hp ha
  rw [bind_ok (readState_apply s), hf]
  exact h s rest hf hp ha

/-- The powered tail sets `pwr_active` and clears it again. -/
theorem plays_poweredTail (x : Byte) (t : Duration) : Plays f (poweredTailEvents x t) (poweredTail x t) () := by
  intro s rest hf hp ha
  simp only [poweredTailEvents, answersOf_call, answersOf_hold, answersOf_nil, List.cons_append, List.nil_append] at ha
  unfold poweredTail
  rw [bind_ok (transport_answered (a := .ok) ha rfl rfl),
    bind_ok (transport_answered (a := .ok) (as := .ok :: .ok :: rest) (by simp [ha]) rfl rfl),
    bind_ok (update_apply _ _),
    bind_ok (transport_answered (a := .ok) (as := .ok :: rest) (by simp [State.setPower, ha]) rfl rfl)]
  rw [hold, bind_ok (update_apply _ _),
    bind_ok (transport_answered (a := .ok) (as := rest) (by simp [State.setPower, State.record, ha]) rfl rfl),
    update_apply]
  cases s
  subst hp
  rfl

/-! ### Reads -/

theorem length_filler (n : Nat) : (filler n).length = n := List.length_replicate

theorem slice_append_right (xs ys : List Byte) : slice (xs ++ ys) xs.length ys.length = ys := by
  simp [slice]

/-- The machine's prefix is the one the claims spell out (41_plain_bank.md R170). -/
theorem framePrefix_eq_sent (k : Bank) (cmd : Byte) (a : Half) : framePrefix k cmd a = sentPrefix k cmd a := by
  unfold framePrefix sentPrefix sentCredential
  split
  · rfl
  · exact (List.append_nil _).symm

theorem seedBytes_eq_sent (cmd : Byte) (a : Half) : seedBytes cmd a = addressBytes cmd a := rfl
theorem phys_eq_sent (k : BankConfig) (o : Nat) : phys k o = deviceAddress k o := rfl
theorem pageSeed_eq_sent (f : Checksum) (k : BankConfig) (p : Nat) (cont : Bool) : pageSeed f k p cont = readSeed f k p cont := rfl
theorem verifyBytes_eq_sent (k : Bank) (cont : Bool) : verifyBytes k cont = verifyOnly k cont := rfl
theorem poweredMode_eq_sent (k : Bank) : poweredMode k = readPowered k := rfl

/-- The prefixed read (43_password_bank.md R252). -/
theorem plays_xferRead {k : Bank} {pre echoed ph : List Byte} (h : echoed.length = echoedLength k pre) :
    Plays f (transferEvents k pre echoed ph) (xferRead k pre ph.length) ph := by
  rw [xferRead, poweredMode_eq_sent]
  unfold transferEvents
  by_cases hm : readPowered k = true
  · rw [if_pos hm, if_pos hm]
    rw [echoedLength, if_pos hm] at h
    refine Plays.cast ?_ (Plays.bind (plays_exchange (got := echoed) ?_)
      (Plays.bind (plays_poweredTail _ _) (plays_exchange (got := ph) ?_)))
    · rfl
    · rw [h, List.length_dropLast]
    · rw [length_filler]
  · rw [if_neg hm, if_neg hm]
    rw [echoedLength, if_neg hm] at h
    have hs : slice (echoed ++ ph) pre.length ph.length = ph := by rw [← h, slice_append_right]
    refine Plays.bind_last (plays_exchange (by simp [h, length_filler])) ?_
    rw [hs]
    exact Plays.pure f ph

/-- The data phase of an addressed or a continued read. -/
theorem plays_fetchData {k : Bank} {cont : Bool} {cmd : Byte} {a : Half} {echoed ph : List Byte} {n : Nat}
    (h : EchoFits k cont cmd a echoed) (hn : ph.length = n) :
    Plays f (readEvents k cont cmd a echoed ph) (fetchData k cont cmd a n) ph := by
  subst hn
  rw [fetchData, framePrefix_eq_sent]
  unfold readEvents
  cases cont with
  | true => exact plays_exchange (by rw [length_filler])
  | false => exact Plays.bind (plays_select k) (plays_xferRead (h rfl))

/-- A CRC page read whose data phase is valid (42_crc_bank.md R200). -/
theorem plays_crcPage {k : Bank} {p : Nat} {cont : Bool} {echoed ph : List Byte}
    (he : EchoFits k cont k.cfg.cmdReadCrc (phys k.cfg (pageOffset k.cfg p)) echoed) (hv : PageValid f k p cont ph) :
    Plays f (pageEvents k p cont echoed ph) (crcPage k p cont)
      (slice ph 0 k.cfg.pageLength, slice ph k.cfg.pageLength k.cfg.extraLen) :=
  Plays.bind_last (plays_fetchData he hv.1)
    (plays_readState_bind (g := fun c => checkResidue (pageSeed c k.cfg p cont) (slice ph 0 (checkedLength k.cfg)) >>=
      fun _ => pure (slice ph 0 k.cfg.pageLength, slice ph k.cfg.pageLength k.cfg.extraLen))
      (Plays.bind_nil (Plays.checkResidue hv.2) (Plays.pure f _)))

/-- A CRC page read whose checked bytes do not give the residue (42_crc_bank.md R202). -/
theorem breaks_crcPage {k : Bank} {p : Nat} {cont : Bool} {echoed ph : List Byte}
    (he : EchoFits k cont k.cfg.cmdReadCrc (phys k.cfg (pageOffset k.cfg p)) echoed)
    (hl : ph.length = checkedLength k.cfg + verifyBytes k cont)
    (hv : crcValid f (pageSeed f k.cfg p cont) (slice ph 0 (checkedLength k.cfg)) = false) :
    Breaks f (pageEvents k p cont echoed ph) (crcPage k p cont) .checksumMismatch := by
  refine Breaks.cast (List.append_nil _).symm (Plays.breaks (plays_fetchData he hl) ?_)
  exact breaks_readState_bind (g := fun c => checkResidue (pageSeed c k.cfg p cont) (slice ph 0 (checkedLength k.cfg)) >>=
      fun _ => pure (slice ph 0 k.cfg.pageLength, slice ph k.cfg.pageLength k.cfg.extraLen))
    (Breaks.bind (Breaks.checkResidue hv))

/-- The pages of a range read (42_crc_bank.md R210). -/
theorem plays_crcPages {k : Bank} {cont : Bool} {echoed : List Byte} {pages : List (Nat × List Byte)}
    (he : ∀ g, pages.head? = some g →
      EchoFits k cont k.cfg.cmdReadCrc (phys k.cfg (pageOffset k.cfg g.1)) echoed)
    (hv : RangeValid f k cont pages) :
    Plays f (rangeEvents k cont echoed pages) (crcPages k cont (pages.map Prod.fst)) (joinedData k pages) := by
  induction pages generalizing cont echoed with
  | nil => exact Plays.pure f _
  | cons g rest ih =>
    obtain ⟨p, ph⟩ := g
    have h1 := plays_crcPage (f := f) (he (p, ph) rfl) hv.1
    have h2 := ih (cont := true) (echoed := []) (fun _ _ h => nomatch h) hv.2
    exact Plays.bind h1 (Plays.bind_last h2 (Plays.pure f _))

/-- The scratchpad read (44_scratchpad_commit.md R282). -/
theorem plays_readSp {k : Bank} {e : Byte} {rx : List Byte} (h : ScratchpadValid f k rx) :
    Plays f (readSpEvents k e rx) (readSp k) (slice rx 0 k.cfg.spMetaLen, scratchpadData k rx) := by
  have hs : slice (e :: rx) 1 (k.cfg.spMetaLen + k.cfg.pageLength + 2) = rx := by
    rw [← h.1]
    exact slice_append_right [e] rx
  refine Plays.bind (xs := [selectEvent k]) (plays_select k)
    (Plays.bind_last (plays_exchange (by simp [h.1, length_filler])) ?_)
  rw [hs]
  exact Plays.bind_nil (Plays.checkResidue h.2) (Plays.pure f _)

/-- The recall, where the bank needs one (44_scratchpad_commit.md R286). -/
theorem plays_recallPage {k : Bank} {g : SpPageRun} (h : k.cfg.hasRecall = true → g.recalled.length = 3) :
    Plays f (if k.cfg.hasRecall then
      [selectEvent k, exchangeEvent (seedBytes k.cfg.cmdRecall (phys k.cfg (pageOffset k.cfg g.p))) g.recalled] else [])
      (recallPage k g.p) () := by
  unfold recallPage
  by_cases hr : k.cfg.hasRecall = true
  · rw [if_pos hr, if_pos hr]
    exact Plays.bind (xs := [selectEvent k]) (plays_select k)
      (Plays.bind_last (plays_exchange (by rw [h hr]; rfl)) (Plays.pure f _))
  · rw [if_neg hr, if_neg hr]
    exact Plays.pure f _

/-- One page of the scratchpad read path (44_scratchpad_commit.md R287). -/
theorem plays_spReadPage {k : Bank} {g : SpPageRun} (h : SpPageGood f k g) :
    Plays f (spPageEvents k g) (spReadPage k g.p) (scratchpadData k g.rx) :=
  Plays.bind (plays_recallPage h.1) (Plays.bind_last (plays_readSp h.2) (Plays.pure f _))

/-- The pages of a scratchpad range read (44_scratchpad_commit.md R287). -/
theorem plays_spReadPages {k : Bank} {gs : List SpPageRun} (h : ∀ g ∈ gs, SpPageGood f k g) :
    Plays f (gs.map (spPageEvents k)).flatten (spReadPages k (gs.map SpPageRun.p))
      (gs.map fun g => scratchpadData k g.rx).flatten := by
  induction gs with
  | nil => exact Plays.pure f _
  | cons g gs ih =>
    exact Plays.bind (plays_spReadPage (h g (by simp)))
      (Plays.bind_last (ih fun x hx => h x (by simp [hx])) (Plays.pure f _))

/-! ### Writes -/

theorem plays_programPulse (k : Bank) :
    Plays f (if needsProgramPulse k.cfg then [.call .programPulse .ok] else []) (programPulse k) () := by
  unfold programPulse
  by_cases h : needsProgramPulse k.cfg = true
  · rw [if_pos h, if_pos h]
    exact Plays.bind_last (a := .ok) (Plays.transport rfl rfl) (Plays.pure f _)
  · rw [if_neg h, if_neg h]
    exact Plays.pure f _

/-- The checks of one byte of an echo write, when they pass (41_plain_bank.md R176). -/
theorem plays_echoVerify {k : Bank} {seed : Half} {checked : List Byte} {d : Byte} (hv : crcValid f seed checked = true) :
    Plays f ((if needsProgramPulse k.cfg then [.call .programPulse .ok] else []) ++ [getEvent d])
      (echoVerify k seed checked d) () :=
  Plays.bind_nil (Plays.checkResidue hv)
    (Plays.bind (plays_programPulse k) (Plays.bind_last (plays_getByte d) (Plays.require (by simp))))

/-- The bytes of an echo write after the first (41_plain_bank.md R176). -/
theorem plays_echoRest {k : Bank} {a : Half} {rest : List (Byte × List Byte)} (hv : EchoRestValid f k a rest) :
    Plays f (echoRestEvents k rest) (echoRest k a (rest.map Prod.fst)) () := by
  induction rest generalizing a with
  | nil => exact Plays.pure f _
  | cons g rest ih =>
    obtain ⟨d, got⟩ := g
    obtain ⟨hl, hc, hr⟩ := hv
    refine Plays.cast ?_ (Plays.bind (plays_exchange (got := got) hl) (Plays.bind (plays_echoVerify hc) (ih hr)))
    simp [echoRestEvents, echoByteEvents]

/-- An echo write (41_plain_bank.md R176). -/
theorem plays_echoWrite {k : Bank} {o : Nat} {d0 : Byte} {got0 : List Byte} {rest : List (Byte × List Byte)}
    (h0 : EchoFirstValid f k (phys k.cfg o) d0 got0) (hr : EchoRestValid f k (phys k.cfg o + 1) rest) :
    Plays f (echoWriteEvents k (phys k.cfg o) d0 got0 rest) (echoWriteSeq k o (d0 :: rest.map Prod.fst)) () := by
  simp only [echoWriteSeq, framePrefix_eq_sent]
  refine Plays.cast ?_ (Plays.bind (plays_select k) (Plays.bind (plays_exchange (got := got0) ?_)
    (Plays.bind (plays_echoVerify h0.2) (plays_echoRest hr))))
  · simp [echoWriteEvents, echoByteEvents]
  · simp [h0.1]

/-- A write without echo: one frame (41_plain_bank.md R175). -/
theorem plays_plainWrite {k : Bank} {o : Nat} {d got : List Byte} (he : k.cfg.echoWrite = false)
    (hl : got.length = (sentPrefix k k.cfg.cmdWrite (phys k.cfg o) ++ d).length) :
    Plays f [selectEvent k, exchangeEvent (sentPrefix k k.cfg.cmdWrite (phys k.cfg o) ++ d) got] (writeBytes k o d) () := by
  unfold writeBytes
  rw [if_neg (by simp [he]), framePrefix_eq_sent]
  exact Plays.bind (xs := [selectEvent k]) (plays_select k) (Plays.bind_last (plays_exchange hl) (Plays.pure f _))

/-- Step (1) of a segment (44_scratchpad_commit.md R281). -/
theorem plays_writeSp {k : Bank} {q : Nat} {ds got : List Byte} (h : got.length = 3 + ds.length) :
    Plays f [selectEvent k, exchangeEvent (seedBytes k.cfg.cmdWriteSp (phys k.cfg q) ++ ds) got] (writeSp k q ds) () :=
  Plays.bind (xs := [selectEvent k]) (plays_select k)
    (Plays.bind_last (plays_exchange (by simp [h, seedBytes]; omega)) (Plays.pure f _))

/-- The copy up to its confirmation byte (44_scratchpad_commit.md R284). -/
def copyEvents (k : Bank) (q : Nat) (copied : List Byte) (st confirm : Byte) : List Event :=
  [selectEvent k, exchangeEvent (seedBytes k.cfg.cmdCopySp (phys k.cfg q)) copied] ++
  poweredTailEvents st k.cfg.tCopy ++ [getEvent confirm]

/-- Step (4) of a segment (44_scratchpad_commit.md R284). -/
theorem plays_copySp {k : Bank} {q : Nat} {copied : List Byte} {st confirm : Byte} (h : copied.length = 3)
    (hc : confirm ≠ 0xFF) : Plays f (copyEvents k q copied st confirm) (copySp k q st) () := by
  have hc' : (confirm != 0xFF) = true := by
    rw [bne_iff_ne]
    exact hc
  refine Plays.cast ?_ (Plays.bind (plays_select k) (Plays.bind (plays_exchange (got := copied) ?_)
    (Plays.bind (plays_poweredTail st _) (Plays.bind_last (plays_getByte confirm) (Plays.require hc')))))
  · simp [copyEvents]
  · rw [h]
    rfl

/-- A segment that succeeds (44_scratchpad_commit.md R285). -/
theorem plays_spSegment {k : Bank} {g : SegmentRun} (h : SegmentGood f k g) :
    Plays f (segmentEvents k g) (spSegment k g.q g.ds) () := by
  obtain ⟨hw, hs, hm, hc, hb⟩ := h
  have hm' : (!k.writeVerify || scratchpadMatches k.cfg g.q g.ds (scratchpadData k g.rx)) = true := by
    cases hv : k.writeVerify with
    | true => rw [hm hv]; rfl
    | false => rfl
  refine Plays.cast ?_ (Plays.bind (plays_writeSp (got := g.written) hw) (Plays.bind (plays_readSp (e := g.e) hs)
    (Plays.bind_nil (Plays.require hm') (plays_copySp (copied := g.copied) (confirm := g.confirm) hc hb))))
  simp [segmentEvents, copyEvents, statusByte, seedBytes_eq_sent, phys_eq_sent]

/-- The segments of a SCRATCHPAD write (44_scratchpad_commit.md R285). -/
theorem plays_spSegments {k : Bank} {gs : List SegmentRun} (h : ∀ g ∈ gs, SegmentGood f k g) :
    Plays f (gs.map (segmentEvents k)).flatten (spSegments k (gs.map fun g => (g.q, g.ds))) () := by
  induction gs with
  | nil => exact Plays.pure f _
  | cons g gs ih => exact Plays.bind (plays_spSegment (h g (by simp))) (ih fun x hx => h x (by simp [hx]))

end Sys2Proof.Machine
end

