-- ==== Sys2Proof/Laws/Requests.lean ====
section
/-! SUPPORT. Requests as a whole: every meaning runs a rule for the client that ENGINE holds; how a rule goes through its
preconditions and BEGIN_BUS; and the state it leaves when its bus phase goes as given events say. -/

namespace Sys2Proof.Machine

/-- The rule of a request. -/
def ruleOf : Instr → Nat → Bus Response
  | .getSize b => fun _ => getRequest b.toNat (fun k => BitVec.ofNat 32 k.size)
  | .getPageLength b => fun _ => getRequest b.toNat (fun k => BitVec.ofNat 32 k.pageLength)
  | .getMaxPacket b => fun _ => getRequest b.toNat (fun k => BitVec.ofNat 32 (maxPacket k))
  | .getFlags b => fun _ => getRequest b.toNat (fun k => k.flags.setWidth 32)
  | .getExtraLen b => fun _ => getRequest b.toNat (fun k => BitVec.ofNat 32 k.extraLen)
  | .read cont b a l => fun c => readRequest c cont b.toNat a.toNat l.toNat
  | .write b a d => fun _ => writeRequest b.toNat a.toNat d
  | .readPage cont b p => fun c => readPageRequest c cont b.toNat p.toNat
  | .readPageExtra cont b p => fun c => readPageExtraRequest c cont b.toNat p.toNat
  | .readPageCrc cont b p => fun c => readPageCrcRequest c cont b.toNat p.toNat
  | .readPageCrcExtra cont b p => fun c => readPageCrcExtraRequest c cont b.toNat p.toNat
  | .readPagePacket cont b p => fun c => readPagePacketRequest c cont b.toNat p.toNat
  | .writePagePacket b p d => fun _ => writePagePacketRequest b.toNat p.toNat d
  | .setWriteVerify b a => fun _ => setWriteVerifyRequest b.toNat a
  | .setPowered b a => fun _ => setPoweredRequest b.toNat a
  | .setCredRw b d => fun _ => setCredRwRequest b.toNat d
  | .setCredRo b d => fun _ => setCredRoRequest b.toNat d
  | .clearCreds b => fun _ => clearCredsRequest b.toNat
  | .acquire => acquireRequest
  | .release => releaseRequest

/-- The bank index of a request. -/
def bankOf (i : Instr) : Option Nat := i.bank?.map BitVec.toNat

theorem exec_eq (i : Instr) (s : State) : exec i s = runRequest (bankOf i) (ruleOf i) s := by
  cases i <;> rfl

theorem exec_busy {i : Instr} {s : State} {c : Nat} {req : Request} {n : Nat} (h : s.engine = .busy c req n) :
    exec i s = .next (conclude c (bankOf i) (ruleOf i c s)) := by
  rw [exec_eq, runRequest, h]

theorem exec_idle {i : Instr} {s : State} (h : s.engine = .idle) : exec i s = .fault .noRequest := by
  rw [exec_eq, runRequest, h]

theorem exec_ok {i : Instr} {s t : State} {c : Nat} {req : Request} {n : Nat} {r : Response}
    (h : s.engine = .busy c req n) (hr : ruleOf i c s = .ok r t) : exec i s = .next (t.deliver c r) := by
  rw [exec_busy h, hr]
  rfl

theorem exec_error {i : Instr} {s t : State} {c : Nat} {req : Request} {n : Nat} {e : Err}
    (h : s.engine = .busy c req n) (hr : ruleOf i c s = .error e t) :
    exec i s = .next (abort c (bankOf i) e t) := by
  rw [exec_busy h, hr]
  rfl

/-- A precondition failure (60_exceptions.md R361 (1)). -/
theorem abort_precondition {c : Nat} {b : Option Nat} {e : Err} {s : State} (h : busPhase e = false) :
    abort c b e s = turnedAway s c e := by
  have hi : integrityFailure e = false := by
    cases e with
    | outOfRange => rfl
    | unsupportedOperation => rfl
    | _ => cases h
  have hh : credHint (b.bind s.bank?) e = false := by
    unfold credHint
    cases b.bind s.bank? with
    | none => rfl
    | some k => simp [hi]
  unfold abort
  rw [h, hh]
  simp [turnedAway, answered, State.deliver, errResponse, statusOf]

/-! ### The preconditions -/

theorem require_bind {α : Type} {p q : Bool} {e : Err} {f : Unit → Bus α} {s : State} (h : p = !q) :
    (require p e >>= f) s = if q then .error e s else f () s := by
  subst h
  cases q <;> rfl

/-- What a rule does from s, given its checks and what it does when they pass. -/
def guarded (checks : List (Bool × Err)) (s : State) (r : EStateM.Result Err State Response) :
    EStateM.Result Err State Response :=
  match firstFailure checks with
  | some e => .error e s
  | none => r

theorem guarded_cons (q : Bool) (e : Err) (rest : List (Bool × Err)) (s : State)
    (r : EStateM.Result Err State Response) :
    guarded ((q, e) :: rest) s r = if q then .error e s else guarded rest s r := by
  cases q <;> rfl

theorem guarded_nil (s : State) (r : EStateM.Result Err State Response) : guarded [] s r = r := rfl

theorem not_decide_lt (a b : Nat) : decide (a < b) = !decide (b ≤ a) := by
  simp only [← decide_not, Nat.not_le]

theorem not_decide_le (a b : Nat) : decide (a ≤ b) = !decide (b < a) := by
  simp only [← decide_not, Nat.not_lt]

theorem scope_bool (cont : Bool) (o : Option Nat) (c : Nat) : (!cont || o == some c) = !(cont && o != some c) := by
  cases cont <;> simp [bne]

/-- The bus phase of READ, or its zero-length end (41_plain_bank.md R172). -/
def readBody (c : Nat) (cont : Bool) (b : Nat) (k : Bank) (o n : Nat) : Bus Response :=
  if n = 0 then pure (okResponse 0 [] [])
  else do
    let prev ← beginBus b
    let r ← readTransfer c b k o n cont prev
    pure (okResponse 0 r [])

theorem readRequest_guarded {s : State} {c : Nat} {cont : Bool} {b : Byte} {a l : Half} {k : Bank}
    (h : s.bank? b.toNat = some k) : readRequest c cont b.toNat a.toNat l.toNat s =
      guarded (checksOf s c (.read cont b a l)) s (readBody c cont b.toNat k a.toNat l.toNat s) := by
  rw [readRequest, bind_ok (bankContext_some h), bind_ok (readState_apply s), checksOf, withBank, h]
  simp only [guarded_cons, guarded_nil, scopeCheck, credCheck, readPowerCheck]
  rw [require_bind rfl, require_bind (not_decide_le _ _), require_bind (scope_bool _ _ _), require_bind rfl,
    require_bind rfl]
  rfl

/-- The bus phase of WRITE, or its zero-length end (41_plain_bank.md R174). -/
def writeBody (b : Nat) (k : Bank) (o : Nat) (d : List Byte) : Bus Response :=
  if d.length = 0 then pure (okResponse 0 [] [])
  else do
    let _ ← beginBus b
    writeTransfer k o d
    pure (okResponse 0 [] [])

theorem writeRequest_guarded {s : State} {c : Nat} {b : Byte} {a : Half} {d : List Byte} {k : Bank}
    (h : s.bank? b.toNat = some k) : writeRequest b.toNat a.toNat d s =
      guarded (checksOf s c (.write b a d)) s (writeBody b.toNat k a.toNat d s) := by
  rw [writeRequest, bind_ok (bankContext_some h), bind_ok (readState_apply s), checksOf, withBank, h]
  simp only [guarded_cons, guarded_nil, credCheck]
  rw [require_bind rfl, require_bind (not_decide_le _ _), require_bind rfl, require_bind rfl]
  rfl

/-- The bus phase of the page reads on CRC and PASSWORD banks (42_crc_bank.md R206 to R209). -/
def pageReadEnd (c : Nat) (cont : Bool) (b : Nat) (k : Bank) (p : Nat) (withExtra : Bool) : Bus Response := do
  let (data, extra) ← pageReadBody c cont b k p pure
  pure (okResponse 0 data (if withExtra then extra else []))

/-- The shared preconditions in the machine's own words. -/
theorem pageReadChecks_eq (s : State) (c : Nat) (cont : Bool) (k : Bank) (p : Half) : pageReadChecks s c cont k p =
    [(decide (numPages k.cfg ≤ p.toNat), .outOfRange), (cont && s.owner != some c, .unsupportedOperation),
      (k.cfg.strategy == .password && credNone k, .unsupportedOperation),
      (poweredMode k && !s.canPower, .unsupportedOperation)] := rfl

theorem pageReadPre_bind {s : State} {c : Nat} {cont : Bool} {k : Bank} {p : Half} {f : Unit → Bus Response} :
    (pageReadPre c cont k p.toNat >>= f) s = guarded (pageReadChecks s c cont k p) s (f () s) := by
  have h : pageReadPre c cont k p.toNat s = match firstFailure (pageReadChecks s c cont k p) with
      | some e => .error e s
      | none => .ok () s := by
    rw [pageReadPre, bind_ok (readState_apply s), pageReadChecks_eq]
    rw [require_bind (not_decide_lt _ _), require_bind (scope_bool _ _ _), require_bind rfl, require_apply]
    simp only [firstFailure]
    cases decide (numPages k.cfg ≤ p.toNat) <;> cases (cont && s.owner != some c) <;>
      cases (k.cfg.strategy == .password && credNone k) <;> cases (poweredMode k && !s.canPower) <;> rfl
  rw [bind_apply, h, guarded]
  cases firstFailure (pageReadChecks s c cont k p) <;> rfl

theorem pageReadRequest_guarded {s : State} {c : Nat} {cont : Bool} {b : Nat} {p : Half} {k : Bank} {x : Bool} :
    pageReadRequest c cont b k p.toNat x s =
      guarded (pageReadChecks s c cont k p) s (pageReadEnd c cont b k p.toNat x s) := by
  rw [pageReadRequest, pageReadPre_bind]
  rfl

theorem readPageExtraRequest_guarded {s : State} {c : Nat} {cont : Bool} {b : Byte} {p : Half} {k : Bank}
    (h : s.bank? b.toNat = some k) : readPageExtraRequest c cont b.toNat p.toNat s =
      guarded (checksOf s c (.readPageExtra cont b p)) s (pageReadEnd c cont b.toNat k p.toNat true s) := by
  rw [readPageExtraRequest, bind_ok (bankContext_some h), checksOf, withBank, h]
  simp only [guarded_cons]
  rw [require_bind (Bool.not_not _).symm, pageReadRequest_guarded]

theorem readPageCrcRequest_guarded {s : State} {c : Nat} {cont : Bool} {b : Byte} {p : Half} {k : Bank}
    (h : s.bank? b.toNat = some k) : readPageCrcRequest c cont b.toNat p.toNat s =
      guarded (checksOf s c (.readPageCrc cont b p)) s (pageReadEnd c cont b.toNat k p.toNat false s) := by
  rw [readPageCrcRequest, bind_ok (bankContext_some h), checksOf, withBank, h]
  simp only [guarded_cons]
  rw [require_bind (Bool.not_not _).symm, pageReadRequest_guarded]

theorem readPageCrcExtraRequest_guarded {s : State} {c : Nat} {cont : Bool} {b : Byte} {p : Half} {k : Bank}
    (h : s.bank? b.toNat = some k) : readPageCrcExtraRequest c cont b.toNat p.toNat s =
      guarded (checksOf s c (.readPageCrcExtra cont b p)) s (pageReadEnd c cont b.toNat k p.toNat true s) := by
  rw [readPageCrcExtraRequest, bind_ok (bankContext_some h), checksOf, withBank, h]
  simp only [guarded_cons]
  rw [require_bind (Bool.not_not _).symm, pageReadRequest_guarded]

/-- The bus phase of READ_PAGE_PACKET (42_crc_bank.md R212). -/
def packetReadBody (c : Nat) (cont : Bool) (b : Nat) (k : Bank) (p : Nat) : Bus Response := do
  let (payload, n) ← pageReadBody c cont b k p (packetRead k p)
  pure (okResponse (BitVec.ofNat 32 n) payload [])

theorem readPagePacketRequest_guarded {s : State} {c : Nat} {cont : Bool} {b : Byte} {p : Half} {k : Bank}
    (h : s.bank? b.toNat = some k) : readPagePacketRequest c cont b.toNat p.toNat s =
      guarded (checksOf s c (.readPagePacket cont b p)) s (packetReadBody c cont b.toNat k p.toNat s) := by
  rw [readPagePacketRequest, bind_ok (bankContext_some h), checksOf, withBank, h]
  simp only [guarded_cons]
  rw [require_bind (Bool.not_not _).symm, pageReadPre_bind]
  rfl

/-- The bus phase of WRITE_PAGE_PACKET (42_crc_bank.md R213). -/
def packetWriteBody (b : Nat) (k : Bank) (p : Nat) (frame : List Byte) : Bus Response := do
  let _ ← beginBus b
  writeBytes k (pageOffset k.cfg p) frame
  pure (okResponse 0 [] [])

theorem writePagePacketRequest_guarded {s : State} {c : Nat} {b : Byte} {p : Half} {d : List Byte} {k : Bank}
    (h : s.bank? b.toNat = some k) : writePagePacketRequest b.toNat p.toNat d s =
      guarded (checksOf s c (.writePagePacket b p d)) s
        (packetWriteBody b.toNat k p.toNat (packetEncode s.crc k.cfg p.toNat s.draws d) s) := by
  rw [writePagePacketRequest, bind_ok (bankContext_some h), bind_ok (readState_apply s), checksOf, withBank, h]
  simp only [guarded_cons, guarded_nil, credCheck]
  rw [require_bind (Bool.not_not _).symm, require_bind rfl, require_bind (not_decide_lt _ _),
    require_bind (not_decide_le _ _), require_bind rfl, require_bind rfl]
  rfl

/-- The bus phase of READ_PAGE on a PLAIN bank (41_plain_bank.md R173). -/
def plainPageBody (c : Nat) (cont : Bool) (b : Nat) (k : Bank) (p : Nat) : Bus Response := do
  let prev ← beginBus b
  let r ← nativeRead c b k (pageOffset k.cfg p) k.cfg.pageLength cont prev
  pure (okResponse 0 r [])

/-- The bus phase of READ_PAGE on a SCRATCHPAD bank (44_scratchpad_commit.md R288). -/
def spPageBody (b : Nat) (k : Bank) (p : Nat) : Bus Response := do
  let _ ← beginBus b
  let r ← spReadPage k p
  pure (okResponse 0 r [])

/-- The bus phase of READ_PAGE, by strategy (41_plain_bank.md R173). -/
def readPageBody (c : Nat) (cont : Bool) (b : Nat) (k : Bank) (p : Nat) : Bus Response :=
  match k.cfg.strategy with
  | .plain => plainPageBody c cont b k p
  | .crc => pageReadEnd c cont b k p false
  | .password => pageReadEnd c cont b k p false
  | .scratchpad => spPageBody b k p
  | .reserved _ => raise .unsupportedOperation

theorem readPageRequest_guarded {s : State} {c : Nat} {cont : Bool} {b : Byte} {p : Half} {k : Bank}
    (h : s.bank? b.toNat = some k) : readPageRequest c cont b.toNat p.toNat s =
      guarded (checksOf s c (.readPage cont b p)) s (readPageBody c cont b.toNat k p.toNat s) := by
  rw [readPageRequest, bind_ok (bankContext_some h), checksOf, withBank, h, readPageBody]
  cases hs : k.cfg.strategy with
  | plain =>
    simp only [hs, guarded_cons, guarded_nil, scopeCheck]
    rw [readPagePlain, bind_ok (readState_apply s), require_bind (not_decide_lt _ _), require_bind (scope_bool _ _ _)]
    rfl
  | crc =>
    simp only [hs]
    exact pageReadRequest_guarded
  | password =>
    simp only [hs]
    exact pageReadRequest_guarded
  | scratchpad =>
    simp only [hs, guarded_cons, guarded_nil]
    rw [readPageSp, require_bind rfl, require_bind (not_decide_lt _ _)]
    rfl
  | reserved v =>
    simp only [hs]
    rfl

theorem guarded_passes {s : State} {c : Nat} {i : Instr} {r : EStateM.Result Err State Response} (h : Passes s c i) :
    guarded (checksOf s c i) s r = r := by
  rw [Passes] at h
  rw [guarded, h]

/-! ### The bus phase -/

theorem modify_same {b : Nat} {l : List Bank} {k : Bank} {f : Bank → Bank} (h : l[b]? = some k) (hf : f k = k) :
    l.modify b f = l := by
  apply List.ext_getElem?
  intro i
  rw [List.getElem?_modify]
  by_cases hi : b = i
  · subst hi
    simp [h, hf]
  · simp [hi]

/-- The state when the bus phase of a request on bank b begins, after its speed traffic. -/
def begun (s : State) (b : Nat) (k : Bank) : State :=
  (afterEvents (speedEvents k) ((s.setCont none).setPower false)).setSpeed b .verified

/-- BEGIN_BUS, with the speed traffic answered well (42_crc_bank.md R205, 40_transport_speed.md R152). -/
theorem beginBus_run {s : State} {b : Nat} {k : Bank} {rest : List Answer} (hb : s.bank? b = some k)
    (ha : s.answers = answersOf (speedEvents k) ++ rest) : beginBus b s = .ok s.contPtr (begun s b k) := by
  rw [beginBus, bind_ok (readState_apply s), bind_ok (update_apply _ s)]
  have hb' : ((s.setCont none).setPower false).bank? b = some k := hb
  have ha' : ((s.setCont none).setPower false).answers = answersOf (speedEvents k) ++ rest := ha
  revert hb' ha'
  unfold begun
  generalize (s.setCont none).setPower false = u
  intro hb' ha'
  have he : ensureSpeed b u = .ok () ((afterEvents (speedEvents k) u).setSpeed b .verified) := by
    rw [ensureSpeed, bind_ok (bankContext_some hb')]
    cases hk : k.speed with
    | verified =>
      have hs : (u.banks.modify b fun k => { k with speed := .verified }) = u.banks :=
        modify_same hb' (by cases k; subst hk; rfl)
      simp only [if_true, pure_apply, speedEvents, hk, afterEvents, State.setSpeed, State.updateBank]
      rw [hs]
    | stale =>
      rw [if_neg (by simp)]
      simp only [speedEvents, hk, answersOf_call, answersOf_nil, List.cons_append, List.nil_append] at ha' ⊢
      rw [bind_ok (transport_answered (a := .ok) (as := .truth true :: rest) ha' rfl rfl),
        bind_ok (transport_answered (a := .truth true) (as := rest) (by simp [ha']) rfl rfl), update_apply]
      rfl
  rw [bind_ok he]
  rfl

/-- BEGIN_BUS on a bank that is there, whatever the transport answers (42_crc_bank.md R205, 40_transport_speed.md R152). -/
theorem beginBus_eq {s : State} {b : Nat} {k : Bank} (hb : s.bank? b = some k) :
    let u := (s.setCont none).setPower false
    let v := afterCall (.setSpeed k.cfg.desiredSpeed) u
    let w := afterCall (.isPresent k.cfg.devAddr) v
    beginBus b s =
      if k.speed = .verified then .ok s.contPtr u
      else if (answerTo (.setSpeed k.cfg.desiredSpeed) u).failed then .error .deviceNotPresent v
      else if (answerTo (.isPresent k.cfg.devAddr) v).failed then .error .deviceNotPresent w
      else .ok s.contPtr (w.setSpeed b .verified) := by
  intro u v w
  have hb' : u.bank? b = some k := hb
  rw [beginBus, bind_ok (readState_apply s), bind_ok (update_apply _ s)]
  have he : ensureSpeed b u = if k.speed = .verified then .ok () u
      else if (answerTo (.setSpeed k.cfg.desiredSpeed) u).failed then .error .deviceNotPresent v
      else if (answerTo (.isPresent k.cfg.devAddr) v).failed then .error .deviceNotPresent w
      else .ok () (w.setSpeed b .verified) := by
    rw [ensureSpeed, bind_ok (bankContext_some hb')]
    by_cases hk : k.speed = .verified
    · rw [if_pos hk, if_pos hk]
      rfl
    rw [if_neg hk, if_neg hk, bind_apply, transport_apply]
    by_cases h1 : (answerTo (.setSpeed k.cfg.desiredSpeed) u).failed = true
    · rw [if_pos h1, if_pos h1]
    rw [if_neg h1, if_neg h1]
    change (transport (.isPresent k.cfg.devAddr) >>= fun _ => update fun s => s.setSpeed b .verified) v = _
    rw [bind_apply, transport_apply]
    by_cases h2 : (answerTo (.isPresent k.cfg.devAddr) v).failed = true
    · rw [if_pos h2, if_pos h2]
    rw [if_neg h2, if_neg h2]
    rfl
  change (ensureSpeed b >>= fun _ => (pure s.contPtr : Bus (Option ContPtr))) u = _
  rw [bind_apply, he]
  by_cases hk : k.speed = .verified
  · rw [if_pos hk, if_pos hk]
    rfl
  rw [if_neg hk, if_neg hk]
  by_cases h1 : (answerTo (.setSpeed k.cfg.desiredSpeed) u).failed = true
  · rw [if_pos h1, if_pos h1]
  rw [if_neg h1, if_neg h1]
  by_cases h2 : (answerTo (.isPresent k.cfg.devAddr) v).failed = true
  · rw [if_pos h2, if_pos h2]
  rw [if_neg h2, if_neg h2]
  rfl

theorem contCheck_apply (cont : Bool) (w : ContPtr) (prev : Option ContPtr) (s : State) :
    contCheck cont w prev s = .ok () { s with hazard := s.hazard || (cont && prev != some w) } := by
  unfold contCheck
  by_cases h : (cont && prev != some w) = true
  · rw [if_pos h, h]
    simp [State.setHazard]
  · rw [if_neg h]
    simp only [Bool.not_eq_true] at h
    simp [h]

theorem State.ext' {s t : State} (h1 : s.canPower = t.canPower) (h2 : s.crc = t.crc) (h3 : s.banks = t.banks)
    (h4 : s.ports = t.ports) (h5 : s.owner = t.owner) (h6 : s.contPtr = t.contPtr) (h7 : s.hazard = t.hazard)
    (h8 : s.engine = t.engine) (h9 : s.pwrActive = t.pwrActive) (h10 : s.transcript = t.transcript)
    (h11 : s.answers = t.answers) (h12 : s.schedule = t.schedule) (h13 : s.draws = t.draws) : s = t := by
  cases s
  cases t
  simp only at *
  simp [h1, h2, h3, h4, h5, h6, h7, h8, h9, h10, h11, h12, h13]

@[simp] theorem begun_crc (s : State) (b : Nat) (k : Bank) : (begun s b k).crc = s.crc := by simp [begun]
@[simp] theorem begun_pwrActive (s : State) (b : Nat) (k : Bank) : (begun s b k).pwrActive = false := by simp [begun]
@[simp] theorem begun_hazard (s : State) (b : Nat) (k : Bank) : (begun s b k).hazard = s.hazard := by simp [begun]

theorem begun_answers {s : State} {b : Nat} {k : Bank} {rest : List Answer}
    (ha : s.answers = answersOf (speedEvents k) ++ rest) : (begun s b k).answers = rest := by
  simp [begun, ha]

/-- The bus phase of a request: its BEGIN_BUS has run, HAZARD has taken the continuation check, and the events of the transfer have
been made. -/
def busDone (s : State) (b : Nat) (k : Bank) (mismatch : Bool) (evs : List Event) : State :=
  afterEvents evs { begun s b k with hazard := s.hazard || mismatch }

theorem deliver_completed (s : State) (c b : Nat) (k : Bank) (mismatch : Bool) (evs : List Event) (ptr : Option ContPtr)
    (r : Response) : ((busDone s b k mismatch evs).setCont ptr).deliver c r =
      completed s c b (speedEvents k ++ evs) ptr mismatch r := by
  apply State.ext' <;>
    simp [busDone, begun, completed, State.deliver, State.setCont, State.setPower, State.setSpeed, State.updateBank,
      answersOf_append, Nat.add_comm, Nat.add_left_comm]

theorem deliver_completed_none (s : State) (c b : Nat) (k : Bank) (evs : List Event) (r : Response) :
    (busDone s b k false evs).deliver c r = completed s c b (speedEvents k ++ evs) none false r := by
  rw [← deliver_completed]
  congr 1
  apply State.ext' <;>
    simp [busDone, begun, State.setCont, State.setPower, State.setSpeed, State.updateBank]

theorem abort_failed {s : State} {c b : Nat} {k : Bank} (mismatch : Bool) (evs : List Event) {e : Err}
    (hb : s.bank? b = some k) (he : busPhase e = true) :
    abort c (some b) e (busDone s b k mismatch evs) = failed s c b k (speedEvents k ++ evs) mismatch e := by
  have hp : (busDone s b k mismatch evs).pwrActive = false := by simp [busDone]
  have hbk : (busDone s b k mismatch evs).bank? b = some { k with speed := .verified } := by
    have : s.banks[b]? = some k := hb
    simp [busDone, begun, State.bank?, this]
  have hh : credHint (some { k with speed := SpeedState.verified }) e = credHint (some k) e := rfl
  unfold abort
  simp only [he, if_true, abortCleanup, hp, Option.bind_some, hbk, hh]
  apply State.ext' <;>
    simp [busDone, begun, failed, State.deliver, State.setCont, State.setPower, State.setSpeed, State.updateBank,
      forceReverify, answersOf_append, Nat.add_comm, Nat.add_left_comm, List.modify_modify_eq, Function.comp_def]

end Sys2Proof.Machine
end

