-- ==== Sys2Proof/Laws/Settle.lean ====
section
/-! SUPPORT. What every request does, once: a precondition that fails leaves the state as it was; a request whose preconditions pass
goes through BEGIN_BUS and keeps every relation that its traffic and its own register writes keep (`Body`, `Touch`). -/

namespace Sys2Proof.Machine

theorem firstFailure_none {l : List (Bool × Err)} : firstFailure l = none ↔ ∀ x ∈ l, x.1 = false := by
  induction l with
  | nil => simp [firstFailure]
  | cons x l ih =>
    obtain ⟨q, e⟩ := x
    cases q with
    | true => simp [firstFailure]
    | false => simpa [firstFailure] using ih

theorem firstFailure_some {l : List (Bool × Err)} {e : Err} (h : firstFailure l = some e) : (true, e) ∈ l := by
  induction l with
  | nil => cases h
  | cons x l ih =>
    obtain ⟨q, e'⟩ := x
    cases q with
    | true =>
      simp only [firstFailure, if_true, Option.some.injEq] at h
      simp [h]
    | false =>
      simp only [firstFailure, Bool.false_eq_true, if_false] at h
      simp [ih h]

theorem withBank_some {s : State} {b : Byte} {k : Bank} (h : s.bank? b.toNat = some k) (f : Bank → List (Bool × Err)) :
    withBank s b f = f k := by
  rw [withBank, h]

theorem withBank_none {s : State} {b : Byte} (h : s.bank? b.toNat = none) (f : Bank → List (Bool × Err)) :
    withBank s b f = [(true, .unsupportedOperation)] := by
  rw [withBank, h]

theorem withBank_pre {s : State} {b : Byte} {f : Bank → List (Bool × Err)}
    (h : ∀ k, ∀ x ∈ f k, busPhase x.2 = false) : ∀ x ∈ withBank s b f, busPhase x.2 = false := by
  intro x hx
  unfold withBank at hx
  split at hx
  · exact h _ x hx
  · simp only [List.mem_singleton] at hx
    rw [hx]
    rfl

theorem pageReadChecks_pre {s : State} {c : Nat} {cont : Bool} {k : Bank} {p : Half} :
    ∀ x ∈ pageReadChecks s c cont k p, busPhase x.2 = false := by
  simp [pageReadChecks, scopeCheck, credCheck, readPowerCheck, busPhase]

/-- Every precondition check raises OutOfRange or UnsupportedOperation (60_exceptions.md R361 (1)). -/
theorem checksOf_pre {s : State} {c : Nat} {i : Instr} : ∀ x ∈ checksOf s c i, busPhase x.2 = false := by
  cases i with
  | readPage cont b p =>
    refine withBank_pre fun k x hx => ?_
    revert x
    cases k.cfg.strategy with
    | plain => simp [scopeCheck, busPhase]
    | crc => exact pageReadChecks_pre
    | password => exact pageReadChecks_pre
    | scratchpad => simp [busPhase]
    | reserved v => simp [busPhase]
  | read cont b a l => exact withBank_pre fun k => by simp [scopeCheck, credCheck, readPowerCheck, busPhase]
  | readPageExtra cont b p => exact withBank_pre fun k => by simpa [busPhase] using pageReadChecks_pre
  | readPageCrc cont b p => exact withBank_pre fun k => by simpa [busPhase] using pageReadChecks_pre
  | readPageCrcExtra cont b p => exact withBank_pre fun k => by simpa [busPhase] using pageReadChecks_pre
  | readPagePacket cont b p => exact withBank_pre fun k => by simpa [busPhase] using pageReadChecks_pre
  | acquire => simp [checksOf]
  | release => simp [checksOf, busPhase]
  | _ => exact withBank_pre fun k => by simp [credCheck, busPhase]

theorem precondition_err {s : State} {c : Nat} {i : Instr} {e : Err} (h : firstFailure (checksOf s c i) = some e) :
    busPhase e = false := checksOf_pre _ (firstFailure_some h)

theorem guarded_fails {l : List (Bool × Err)} {s : State} {r : EStateM.Result Err State Response} {e : Err}
    (h : firstFailure l = some e) : guarded l s r = .error e s := by
  rw [guarded, h]

theorem bitOperandOk_eq (a : Half) : bitOperandOk a = !decide (1 < a.toNat) := by
  have h : (a.extractLsb' 1 15 = 0#15) ↔ ¬ 1 < a.toNat := by
    rw [← BitVec.toNat_inj]
    simp only [BitVec.extractLsb'_toNat, BitVec.toNat_ofNat, Nat.zero_mod, Nat.shiftRight_eq_div_pow]
    have := a.isLt
    omega
  unfold bitOperandOk
  by_cases hd : 1 < a.toNat <;> simp [hd, h]

/-- A configuration register of bank index b; 0 where no such bank is. -/
def bankValue (s : State) (b : Byte) (f : BankConfig → Word) : Word :=
  match s.bank? b.toNat with
  | some k => f k.cfg
  | none => 0

/-- The value of a query; 0 for the other requests without a bus phase. -/
def quietValue (i : Instr) (s : State) : Word :=
  match i with
  | .getSize b => bankValue s b fun k => BitVec.ofNat 32 k.size
  | .getPageLength b => bankValue s b fun k => BitVec.ofNat 32 k.pageLength
  | .getMaxPacket b => bankValue s b fun k => BitVec.ofNat 32 (maxPacket k)
  | .getFlags b => bankValue s b fun k => k.flags.setWidth 32
  | .getExtraLen b => bankValue s b fun k => BitVec.ofNat 32 k.extraLen
  | _ => 0

/-- What a request without a bus phase writes when its checks pass. -/
def quietState (i : Instr) (c : Nat) (s : State) : State :=
  match i with
  | .setWriteVerify b a => s.updateBank b.toNat (fun k => { k with writeVerify := bitOperand a })
  | .setPowered b a => s.updateBank b.toNat (fun k => { k with powered := bitOperand a })
  | .setCredRw b d => s.updateBank b.toNat (fun k => { k with credRw := d, credRwValid := true })
  | .setCredRo b d => s.updateBank b.toNat (fun k => { k with credRo := d, credRoValid := true })
  | .clearCreds b => forgetCreds b.toNat s
  | .acquire => if s.owner = none then (s.setOwner (some c)).setCont none else s
  | .release => (s.setOwner none).setCont none
  | _ => s

theorem bank_guarded {s : State} {b : Byte} {m : Bus Response} {f : Bank → List (Bool × Err)}
    {r : EStateM.Result Err State Response} (hn : s.bank? b.toNat = none → m s = .error .unsupportedOperation s)
    (hs : ∀ k, s.bank? b.toNat = some k → m s = guarded (f k) s r) : m s = guarded (withBank s b f) s r := by
  cases hb : s.bank? b.toNat with
  | none =>
    rw [withBank_none hb, hn hb]
    rfl
  | some k =>
    rw [withBank_some hb]
    exact hs k hb

theorem get_guarded {s : State} {b : Byte} {f : BankConfig → Word} :
    getRequest b.toNat f s = guarded (withBank s b fun _ => []) s
      (.ok (okResponse (bankValue s b f) [] []) s) := by
  refine bank_guarded (fun hn => bind_error (bankContext_none hn)) fun k hk => ?_
  rw [getRequest, bind_ok (bankContext_some hk), bankValue, hk]
  rfl

theorem setCred_guarded {s : State} {b : Byte} {d : List Byte} {f : State → State} :
    (credentialChecks b.toNat d >>= fun _ => update f >>= fun _ => (pure (okResponse 0 [] []) : Bus Response)) s =
      guarded (withBank s b fun k => [(k.cfg.strategy != .password, .unsupportedOperation),
        (d.length != k.cfg.pwLen, .unsupportedOperation)]) s (.ok (okResponse 0 [] []) (f s)) := by
  refine bank_guarded (fun hn => bind_error (bind_error (bankContext_none hn))) fun k hk => ?_
  rw [bind_apply, credentialChecks, bind_ok (bankContext_some hk),
    require_bind (q := k.cfg.strategy != .password) (by simp [bne]), require_apply]
  simp only [guarded_cons, guarded_nil]
  by_cases hp : (k.cfg.strategy != .password) = true
  · rw [if_pos hp, if_pos hp]
  · rw [if_neg hp, if_neg hp]
    by_cases hl : d.length = k.cfg.pwLen
    · rw [if_pos (by simp [hl]), if_neg (by simp [hl])]
      rfl
    · rw [if_neg (by simp [hl]), if_pos (by simp [hl])]

/-- The rule of a request without a bus phase: its checks, then one write of registers. -/
theorem quiet_guarded {s : State} {c : Nat} {i : Instr} (h : touchesBus i = false) :
    ruleOf i c s = guarded (checksOf s c i) s (.ok (okResponse (quietValue i s) [] []) (quietState i c s)) := by
  cases i with
  | read cont b a l => cases h
  | write b a d => cases h
  | readPage cont b p => cases h
  | readPageExtra cont b p => cases h
  | readPageCrc cont b p => cases h
  | readPageCrcExtra cont b p => cases h
  | readPagePacket cont b p => cases h
  | writePagePacket b p d => cases h
  | acquire =>
    change acquireRequest c s =
      .ok (okResponse 0 [] []) (if s.owner = none then (s.setOwner (some c)).setCont none else s)
    rw [acquireRequest, bind_ok (readState_apply s)]
    by_cases ho : s.owner = none
    · rw [if_pos ho, if_pos ho]
      rfl
    · rw [if_neg ho, if_neg ho]
      rfl
  | release =>
    simp only [ruleOf, releaseRequest, checksOf, guarded_cons, guarded_nil]
    rw [bind_ok (readState_apply s), require_bind (q := s.owner != some c) (by simp [bne])]
    rfl
  | setWriteVerify b a =>
    refine bank_guarded (fun hn => bind_error (bankContext_none hn)) fun k hk => ?_
    simp only [ruleOf, setWriteVerifyRequest, guarded_cons, guarded_nil]
    rw [bind_ok (bankContext_some hk), require_bind (bitOperandOk_eq a)]
    rfl
  | setPowered b a =>
    refine bank_guarded (fun hn => bind_error (bankContext_none hn)) fun k hk => ?_
    simp only [ruleOf, setPoweredRequest, guarded_cons, guarded_nil]
    rw [bind_ok (bankContext_some hk), require_bind (q := k.cfg.strategy != .password) (by simp [bne]),
      require_bind (bitOperandOk_eq a)]
    rfl
  | setCredRw b d => exact setCred_guarded
  | setCredRo b d => exact setCred_guarded
  | clearCreds b =>
    refine bank_guarded (fun hn => bind_error (bankContext_none hn)) fun k hk => ?_
    simp only [ruleOf, clearCredsRequest, guarded_cons, guarded_nil]
    rw [bind_ok (bankContext_some hk), require_bind (q := k.cfg.strategy != .password) (by simp [bne])]
    rfl
  | getSize b => exact get_guarded (f := fun k => BitVec.ofNat 32 k.size)
  | getPageLength b => exact get_guarded (f := fun k => BitVec.ofNat 32 k.pageLength)
  | getMaxPacket b => exact get_guarded (f := fun k => BitVec.ofNat 32 (maxPacket k))
  | getFlags b => exact get_guarded (f := fun k => k.flags.setWidth 32)
  | getExtraLen b => exact get_guarded (f := fun k => BitVec.ofNat 32 k.extraLen)

/-- The rule of a request with a bus phase: its checks, then its body. -/
def bodyOf (i : Instr) (c : Nat) (k : Bank) (s : State) : Bus Response :=
  match i with
  | .read cont b a l => readBody c cont b.toNat k a.toNat l.toNat
  | .write b a d => writeBody b.toNat k a.toNat d
  | .readPage cont b p => readPageBody c cont b.toNat k p.toNat
  | .readPageExtra cont b p => pageReadEnd c cont b.toNat k p.toNat true
  | .readPageCrc cont b p => pageReadEnd c cont b.toNat k p.toNat false
  | .readPageCrcExtra cont b p => pageReadEnd c cont b.toNat k p.toNat true
  | .readPagePacket cont b p => packetReadBody c cont b.toNat k p.toNat
  | .writePagePacket b p d => packetWriteBody b.toNat k p.toNat (packetEncode s.crc k.cfg p.toNat s.draws d)
  | _ => raise .unsupportedOperation

theorem bus_guarded {s : State} {c : Nat} {i : Instr} {b : Byte} {k : Bank} (h : touchesBus i = true)
    (hi : i.bank? = some b) (hb : s.bank? b.toNat = some k) :
    ruleOf i c s = guarded (checksOf s c i) s (bodyOf i c k s s) := by
  cases i <;> first
    | (simp only [touchesBus, Bool.false_eq_true] at h; done)
    | (simp only [Instr.bank?, Option.some.injEq] at hi
       subst hi
       first
         | exact readRequest_guarded hb
         | exact writeRequest_guarded hb
         | exact readPageRequest_guarded hb
         | exact readPageExtraRequest_guarded hb
         | exact readPageCrcRequest_guarded hb
         | exact readPageCrcExtraRequest_guarded hb
         | exact readPagePacketRequest_guarded hb
         | exact writePagePacketRequest_guarded hb)

theorem bus_noBank {s : State} {c : Nat} {i : Instr} {b : Byte} (h : touchesBus i = true) (hi : i.bank? = some b)
    (hb : s.bank? b.toNat = none) :
    ruleOf i c s = .error .unsupportedOperation s ∧ firstFailure (checksOf s c i) = some .unsupportedOperation := by
  cases i <;> first
    | (simp only [touchesBus, Bool.false_eq_true] at h; done)
    | (simp only [Instr.bank?, Option.some.injEq] at hi
       subst hi
       exact ⟨bind_error (bankContext_none hb), by rw [checksOf, withBank_none hb]; rfl⟩)

theorem touchesBus_bank {i : Instr} (h : touchesBus i = true) : ∃ b, i.bank? = some b := by
  cases i <;> first
    | (simp only [touchesBus, Bool.false_eq_true] at h; done)
    | exact ⟨_, rfl⟩

/-- A request's first failing check is its error, and it has changed nothing (60_exceptions.md R361 (1), R364). -/
theorem fails_rule {s : State} {c : Nat} {i : Instr} {e : Err} (h : firstFailure (checksOf s c i) = some e) :
    ruleOf i c s = .error e s := by
  cases ht : touchesBus i with
  | false => rw [quiet_guarded ht, guarded_fails h]
  | true =>
    obtain ⟨b, hi⟩ := touchesBus_bank ht
    cases hb : s.bank? b.toNat with
    | none =>
      obtain ⟨h1, h2⟩ := bus_noBank (c := c) ht hi hb
      rw [h2] at h
      cases h
      exact h1
    | some k => rw [bus_guarded ht hi hb, guarded_fails h]

/-- A request whose checks pass names a bank that is there, if it names one. -/
theorem passes_bank {s : State} {c : Nat} {i : Instr} {b : Byte} (h : Passes s c i) (hi : i.bank? = some b) :
    ∃ k, s.bank? b.toNat = some k := by
  cases hb : s.bank? b.toNat with
  | some k => exact ⟨k, rfl⟩
  | none =>
    have hw : ∀ f, withBank s b f = [(true, .unsupportedOperation)] := withBank_none hb
    cases i <;> first
      | (simp only [Instr.bank?, reduceCtorEq] at hi; done)
      | (simp only [Instr.bank?, Option.some.injEq] at hi
         subst hi
         rw [Passes, checksOf, hw] at h
         cases h)

/-! ### The bus phase keeps what traffic keeps -/

/-- The pointers that request i of client c may check on bank k, with its C bit. -/
def WantAt (s : State) (c : Nat) (k : Bank) (i : Instr) (cont : Bool) (w : ContPtr) : Prop :=
  cont = true → continuationStart c k i = some w ∧ s.owner = some c

/-- The pointers that a read of client c on bank b may leave (42_crc_bank.md R205). -/
def NextAt (c b : Nat) (k : Bank) (p : ContPtr) : Prop :=
  p.client = c ∧ p.bank = b ∧ (bankAdmitted k.cfg = true → k.cfg.strategy ≠ .scratchpad ∧ p.off ≤ k.cfg.size)

variable {R : State → State → Prop} {S : Err → State → State → Prop}

theorem scope_passes {s : State} {c : Nat} {cont : Bool} (h : (scopeCheck s c cont).1 = false) (hc : cont = true) :
    s.owner = some c := by
  subst hc
  simpa [scopeCheck, bne] using h

theorem admitted_pages {k : BankConfig} (h : bankAdmitted k = true) : 1 ≤ k.pageLength ∧ k.size % k.pageLength = 0 := by
  simp only [bankAdmitted, checkW1, Bool.and_eq_true, decide_eq_true_eq] at h
  omega

theorem pageEnd_le {k : BankConfig} {p : Nat} (h : p < numPages k) : pageOffset k (p + 1) ≤ k.size := by
  have h1 : p + 1 ≤ k.size / k.pageLength := h
  exact le_trans (Nat.mul_le_mul_right _ h1) (Nat.div_mul_le_self _ _)

theorem rangeEnd_le {k : BankConfig} {o n : Nat} (ha : bankAdmitted k = true) (h : o + n ≤ k.size) (hn : 1 ≤ n) :
    pageOffset k (lastPage k o n + 1) ≤ k.size := by
  obtain ⟨h1, h2⟩ := admitted_pages ha
  refine pageEnd_le ?_
  have h3 : k.size / k.pageLength * k.pageLength = k.size := Nat.div_mul_cancel (Nat.dvd_of_mod_eq_zero h2)
  rw [lastPage, numPages, Nat.div_lt_iff_lt_mul (by omega), h3]
  omega

theorem admitted_extra {k : BankConfig} (h : bankAdmitted k = true) (hx : hasExtraInfo k = true) : crcStrategy k = true := by
  simp only [bankAdmitted, checkW4, hx, Bool.and_eq_true, if_true] at h
  exact h.1.1.1.1.1.1.2.1

theorem admitted_autoCrc {k : BankConfig} (h : bankAdmitted k = true) (hx : hasPageAutoCrc k = true) :
    crcStrategy k = true := by
  simp only [bankAdmitted, checkW5, hx, Bool.and_eq_true, beq_iff_eq] at h
  exact h.1.1.1.1.1.2.symm

theorem crcStrategy_ne {k : BankConfig} (h : crcStrategy k = true) : k.strategy ≠ .scratchpad := by
  intro hs
  simp [crcStrategy, hs] at h

/-- A page read as BEGIN_BUS and the rest. -/
theorem pageReadEnd_phases {s : State} {c : Nat} {cont : Bool} {b : Byte} {p : Half} {k : Bank} {i : Instr} {x : Bool}
    (hi : cont = true → continuationStart c k i = some ⟨c, b.toNat, .page, pageOffset k.cfg p.toNat⟩)
    (hs : bankAdmitted k.cfg = true → crcStrategy k.cfg = true)
    (hp : ∀ q ∈ pageReadChecks s c cont k p, q.1 = false) :
    ∃ m : Option ContPtr → Bus Response, pageReadEnd c cont b.toNat k p.toNat x = (beginBus b.toNat >>= m) ∧
      ∀ R S, Body s.contPtr (WantAt s c k i) (NextAt c b.toNat k) R S → Ends R S (m s.contPtr) := by
  simp only [pageReadChecks, List.mem_cons, List.not_mem_nil, or_false, forall_eq_or_imp, forall_eq,
    decide_eq_false_iff_not, not_le] at hp
  have ho := scope_passes hp.2.1
  refine ⟨_, bind_assoc _ _ _, fun R S hT => ?_⟩
  refine Ends.bind hT.toComposes ?_ fun ⟨_, _⟩ => Ends.pure hT.toComposes _
  exact hT.pageReadTail k cont (fun h => ⟨hi h, ho h⟩)
    ⟨rfl, rfl, fun ha => ⟨crcStrategy_ne (hs ha), pageEnd_le hp.1⟩⟩ fun _ => Ends.pure hT.toComposes _

/-- A request that touches the bus, its preconditions passed, succeeds without a change, or goes through BEGIN_BUS and then keeps
every relation that its traffic and its register writes keep (42_crc_bank.md R205). -/
theorem bus_phases {s : State} {c : Nat} {i : Instr} {b : Byte} {k : Bank} (ht : touchesBus i = true)
    (hi : i.bank? = some b) (hb : s.bank? b.toNat = some k) (hp : Passes s c i) :
    ruleOf i c s = .ok (okResponse 0 [] []) s ∨
    ∃ m : Option ContPtr → Bus Response, ruleOf i c s = (beginBus b.toNat >>= m) s ∧
      ∀ R S, Body s.contPtr (WantAt s c k i) (NextAt c b.toNat k) R S → Ends R S (m s.contPtr) := by
  have hg : ruleOf i c s = bodyOf i c k s s := by rw [bus_guarded ht hi hb, guarded_passes hp]
  rw [hg]
  rw [Passes, firstFailure_none] at hp
  have of_eq {body : Bus Response}
      (h : ∃ m : Option ContPtr → Bus Response, body = (beginBus b.toNat >>= m) ∧
        ∀ R S, Body s.contPtr (WantAt s c k i) (NextAt c b.toNat k) R S → Ends R S (m s.contPtr)) :
      body s = .ok (okResponse 0 [] []) s ∨ ∃ m : Option ContPtr → Bus Response, body s = (beginBus b.toNat >>= m) s ∧
        ∀ R S, Body s.contPtr (WantAt s c k i) (NextAt c b.toNat k) R S → Ends R S (m s.contPtr) := by
    obtain ⟨m, h1, h2⟩ := h
    exact .inr ⟨m, by rw [h1], h2⟩
  cases i <;> first
    | (simp only [touchesBus, Bool.false_eq_true] at ht; done)
    | (simp only [Instr.bank?, Option.some.injEq] at hi
       subst hi
       rw [checksOf, withBank_some hb] at hp)
  case read cont b a l =>
    simp only [List.mem_cons, List.not_mem_nil, or_false, forall_eq_or_imp, forall_eq, decide_eq_false_iff_not,
      not_lt] at hp
    obtain ⟨-, hsz, hsc, -, -⟩ := hp
    have ho := scope_passes hsc
    change readBody c cont b.toNat k a.toNat l.toNat s = _ ∨ ∃ m, readBody c cont b.toNat k a.toNat l.toNat s = _ ∧ _
    unfold readBody
    by_cases hn : l.toNat = 0
    · rw [if_pos hn]
      exact .inl rfl
    rw [if_neg hn]
    refine .inr ⟨_, rfl, fun R S hT => ?_⟩
    refine Ends.bind hT.toComposes ?_ fun _ => Ends.pure hT.toComposes _
    unfold readTransfer
    by_cases hsp : k.cfg.strategy = .scratchpad
    · rw [if_pos hsp]
      exact hT.spReadRange _ _ _
    rw [if_neg hsp]
    by_cases hnr : k.cfg.hasNativeRead = true
    · rw [if_pos hnr]
      exact hT.nativeRead k cont (fun h => ⟨by simp [continuationStart, h, hnr], ho h⟩)
        ⟨rfl, rfl, fun _ => ⟨hsp, hsz⟩⟩
    · rw [if_neg hnr]
      exact hT.crcReadRange k cont (fun h => ⟨by simp [continuationStart, h, hnr], ho h⟩)
        ⟨rfl, rfl, fun ha => ⟨hsp, rangeEnd_le ha hsz (by omega)⟩⟩
  case write b a d =>
    change writeBody b.toNat k a.toNat d s = _ ∨ ∃ m, writeBody b.toNat k a.toNat d s = _ ∧ _
    unfold writeBody
    by_cases hn : d.length = 0
    · rw [if_pos hn]
      exact .inl rfl
    rw [if_neg hn]
    exact .inr ⟨_, rfl, fun R S hT => (hT.writeTransfer k _ d).bind hT.toComposes fun _ => Ends.pure hT.toComposes _⟩
  case readPage cont b p =>
    change readPageBody c cont b.toNat k p.toNat s = _ ∨ ∃ m, readPageBody c cont b.toNat k p.toNat s = _ ∧ _
    unfold readPageBody
    cases hs : k.cfg.strategy with
    | plain =>
      simp only [hs, List.mem_cons, List.not_mem_nil, or_false, forall_eq_or_imp, forall_eq, decide_eq_false_iff_not,
        not_le] at hp
      have ho := scope_passes hp.2
      refine .inr ⟨_, rfl, fun R S hT => ?_⟩
      refine (hT.nativeRead k cont (fun h => ⟨by simp [continuationStart, h, hs], ho h⟩)
        ⟨rfl, rfl, fun _ => ⟨by simp [hs], ?_⟩⟩).bind hT.toComposes fun _ => Ends.pure hT.toComposes _
      have := pageEnd_le hp.1
      simpa [pageOffset, Nat.add_mul] using this
    | crc =>
      simp only [hs] at hp
      exact of_eq (pageReadEnd_phases (fun h => by simp [continuationStart, h, hs]) (fun _ => by simp [crcStrategy, hs]) hp)
    | password =>
      simp only [hs] at hp
      exact of_eq (pageReadEnd_phases (fun h => by simp [continuationStart, h, hs]) (fun _ => by simp [crcStrategy, hs]) hp)
    | scratchpad =>
      exact .inr ⟨_, rfl, fun R S hT => (hT.spReadPage k _).bind hT.toComposes fun _ => Ends.pure hT.toComposes _⟩
    | reserved v => simp [hs] at hp
  case readPageExtra cont b p =>
    simp only [List.mem_cons, forall_eq_or_imp, Bool.not_eq_false'] at hp
    exact of_eq (pageReadEnd_phases (fun h => by simp [continuationStart, h]) (fun ha => admitted_extra ha hp.1) hp.2)
  case readPageCrc cont b p =>
    simp only [List.mem_cons, forall_eq_or_imp, Bool.not_eq_false'] at hp
    exact of_eq (pageReadEnd_phases (fun h => by simp [continuationStart, h]) (fun ha => admitted_autoCrc ha hp.1) hp.2)
  case readPageCrcExtra cont b p =>
    simp only [List.mem_cons, forall_eq_or_imp, Bool.not_eq_false', Bool.and_eq_true] at hp
    exact of_eq (pageReadEnd_phases (fun h => by simp [continuationStart, h]) (fun ha => admitted_extra ha hp.1.2) hp.2)
  case readPagePacket cont b p =>
    simp only [List.mem_cons, forall_eq_or_imp, Bool.not_eq_false'] at hp
    obtain ⟨hcs, hp⟩ := hp
    simp only [pageReadChecks, List.mem_cons, List.not_mem_nil, or_false, forall_eq_or_imp, forall_eq,
      decide_eq_false_iff_not, not_le] at hp
    have ho := scope_passes hp.2.1
    refine of_eq ⟨_, bind_assoc _ _ _, fun R S hT => ?_⟩
    refine Ends.bind hT.toComposes ?_ fun ⟨_, _⟩ => Ends.pure hT.toComposes _
    refine hT.pageReadTail k cont (fun h => ⟨by simp [continuationStart, h], ho h⟩)
      ⟨rfl, rfl, fun _ => ⟨crcStrategy_ne hcs, pageEnd_le hp.1⟩⟩ fun pg t => ?_
    unfold EndsAt packetRead
    cases hd : packetDecode t.crc k.cfg p.toNat pg.1 with
    | ok out => exact hT.refl t
    | error e =>
      refine hT.check e t ?_
      unfold packetDecode at hd
      dsimp only at hd
      split at hd
      · cases hd
        rfl
      · split at hd
        · cases hd
        · cases hd
          rfl
  case writePagePacket b p d =>
    exact .inr ⟨_, rfl, fun R S hT => (hT.writeBytes k _ _).bind hT.toComposes fun _ => Ends.pure hT.toComposes _⟩

/-- The three courses of a request that touches the bus, its preconditions passed: it succeeds without a change; BEGIN_BUS fails; or
BEGIN_BUS ends in a state u, and what follows keeps, from u, every relation that its traffic and its register writes keep. -/
theorem bus_cases {s : State} {c : Nat} {i : Instr} {b : Byte} {k : Bank} (ht : touchesBus i = true)
    (hi : i.bank? = some b) (hb : s.bank? b.toNat = some k) (hp : Passes s c i) :
    ruleOf i c s = .ok (okResponse 0 [] []) s ∨
    (∃ u, beginBus b.toNat s = .error .deviceNotPresent u ∧ ruleOf i c s = .error .deviceNotPresent u) ∨
    ∃ u, beginBus b.toNat s = .ok s.contPtr u ∧ ∀ R S, Body s.contPtr (WantAt s c k i) (NextAt c b.toNat k) R S →
      (∀ r t, ruleOf i c s = .ok r t → R u t) ∧ ∀ e t, ruleOf i c s = .error e t → S e u t := by
  rcases bus_phases ht hi hb hp with h | ⟨m, h, hm⟩
  · exact .inl h
  right
  cases hB : beginBus b.toNat s with
  | error e u =>
    left
    have he : e = .deviceNotPresent := by
      rw [beginBus_eq hb] at hB
      split at hB
      · cases hB
      · split at hB
        · cases hB
          rfl
        · split at hB
          · cases hB
            rfl
          · cases hB
    subst he
    exact ⟨u, rfl, by rw [h, bind_error hB]⟩
  | ok p u =>
    right
    have hv := beginBus_value hB
    subst hv
    rw [h, bind_ok hB]
    exact ⟨u, rfl, fun R S hT => ⟨fun _ _ => (hm R S hT u).of_ok, fun _ _ => (hm R S hT u).of_error⟩⟩

/-- A request that touches the bus, its preconditions passed, keeps every relation that its traffic and its register writes keep. -/
theorem bus_ends {s : State} {c : Nat} {i : Instr} {b : Byte} {k : Bank} (ht : touchesBus i = true)
    (hi : i.bank? = some b) (hb : s.bank? b.toNat = some k) (hp : Passes s c i)
    (hT : Touch b.toNat s.contPtr (WantAt s c k i) (NextAt c b.toNat k) R S) : EndsAt R S (ruleOf i c) s := by
  rcases bus_phases ht hi hb hp with h | ⟨m, h, hm⟩
  · exact EndsAt.ok h (hT.refl s)
  · suffices g : EndsAt R S (beginBus b.toNat >>= m) s by
      unfold EndsAt at g ⊢
      rwa [h]
    refine EndsAt.bind hT.toComposes (hT.begins s k hb) fun a t ha => ?_
    rw [beginBus_value ha]
    exact hm R S hT.toBody t

end Sys2Proof.Machine
end

