-- ==== Sys2Proof/Laws/Relations.lean ====
section
/-! SUPPORT. Relations that a request on one bank keeps, each shown to allow all that `Touch` asks for: the frame, the order of the
speed traffic, the answers that fail, the pull-up, and HAZARD. -/

namespace Sys2Proof.Machine

variable {R : State → State → Prop} {S : Err → State → State → Prop}

/-- A relation that allows every single write a request makes is kept by the whole request. -/
theorem Touch.of_writes {b : Nat} {prev : Option ContPtr} {want : Bool → ContPtr → Prop} {next : ContPtr → Prop}
    (hC : Composes R S) (call : ∀ c s, R s (afterCall c s)) (fail : ∀ c s, S .deviceNotPresent s (afterCall c s))
    (check : ∀ e s, checkErr e = true → S e s s) (hold : ∀ t s, R s (s.record (.hold t)))
    (power : ∀ v s, R s (s.setPower v)) (speed : ∀ s, R s (s.setSpeed b .verified))
    (cont : ∀ v s, R s (s.setCont v)) (hazard : ∀ s, R s s.setHazard) : Touch b prev want next R S where
  toComposes := hC
  call c s _ _ := call c s
  fail c s _ _ := fail c s
  check := check
  tail x t := ends_poweredTail hC (fun c s _ _ => call c s) (fun c s _ _ => fail c s) hold power x t
  begins s k h := ends_beginBus hC h (fun c s _ => call c s) (fun c s _ => fail c s) speed
    fun s => hC.trans _ _ _ (cont none s) (power false _)
  checks c w _ := by
    unfold contCheck
    split
    · exact Ends.update hazard
    · exact Ends.pure hC _
  sets s p _ := cont (some p) s

/-! ### The frame -/

/-- What a request on bank b may have written so far: SPEED_STATE[b], CONT_PTR, HAZARD, ENGINE's position, the pull-up, the transcript
and the answers drawn. -/
def FrameTo (b : Nat) (s t : State) : Prop :=
  ∃ (v : SpeedState) (ptr : Option ContPtr) (hz pw : Bool) (evs : List Event) (eng : Engine),
    t = { s with
      banks := s.banks.modify b (fun k => { k with speed := v })
      contPtr := ptr
      hazard := s.hazard || hz
      pwrActive := pw
      transcript := s.transcript ++ evs
      answers := s.answers.drop (answersOf evs).length
      draws := s.draws + (answersOf evs).length
      engine := eng }

theorem modify_speed_self (l : List Bank) (b : Nat) :
    ∃ v : SpeedState, l.modify b (fun k => { k with speed := v }) = l := by
  cases h : l[b]? with
  | some k => exact ⟨k.speed, modify_same h (by cases k; rfl)⟩
  | none =>
    refine ⟨.stale, List.ext_getElem? fun i => ?_⟩
    rw [List.getElem?_modify]
    by_cases hi : b = i
    · subst hi
      simp [h]
    · simp [hi]

theorem FrameTo.refl (b : Nat) (s : State) : FrameTo b s s := by
  obtain ⟨v, hv⟩ := modify_speed_self s.banks b
  exact ⟨v, s.contPtr, false, s.pwrActive, [], s.engine, by simp [hv]⟩

theorem FrameTo.trans {b : Nat} {s t u : State} (h : FrameTo b s t) (g : FrameTo b t u) : FrameTo b s u := by
  obtain ⟨v, ptr, hz, pw, evs, eng, rfl⟩ := h
  obtain ⟨v', ptr', hz', pw', evs', eng', rfl⟩ := g
  refine ⟨v', ptr', hz || hz', pw', evs ++ evs', eng', ?_⟩
  simp [answersOf_append, List.modify_modify_eq, Function.comp_def, Bool.or_assoc, List.append_assoc, Nat.add_assoc]

theorem FrameTo.call (b : Nat) (c : Call) (s : State) : FrameTo b s (afterCall c s) := by
  obtain ⟨v, hv⟩ := modify_speed_self s.banks b
  refine ⟨v, s.contPtr, false, s.pwrActive, [.call c (answerTo c s)], s.engine.advance, ?_⟩
  simp [afterCall, State.record, hv]

theorem touch_frame {b : Nat} {prev : Option ContPtr} {want : Bool → ContPtr → Prop} {next : ContPtr → Prop} :
    Touch b prev want next (FrameTo b) (fun e s t => busPhase e = true ∧ FrameTo b s t) := by
  refine Touch.of_writes ⟨FrameTo.refl b, fun _ _ _ => FrameTo.trans, fun _ _ _ _ h g => ⟨g.1, h.trans g.2⟩⟩
    (FrameTo.call b) (fun c s => ⟨rfl, FrameTo.call b c s⟩) (fun e s h => ⟨?_, FrameTo.refl b s⟩) (fun d s => ?_)
    (fun v s => ?_) (fun s => ?_) (fun v s => ?_) (fun s => ?_)
  · simp only [checkErr, Bool.and_eq_true] at h
    exact h.1
  · obtain ⟨v, hv⟩ := modify_speed_self s.banks b
    exact ⟨v, s.contPtr, false, s.pwrActive, [.hold d], s.engine.advance, by simp [State.record, hv]⟩
  · obtain ⟨w, hw⟩ := modify_speed_self s.banks b
    exact ⟨w, s.contPtr, false, v, [], s.engine, by simp [State.setPower, hw]⟩
  · exact ⟨.verified, s.contPtr, false, s.pwrActive, [], s.engine, by simp [State.setSpeed, State.updateBank]⟩
  · obtain ⟨w, hw⟩ := modify_speed_self s.banks b
    exact ⟨w, v, false, s.pwrActive, [], s.engine, by simp [State.setCont, hw]⟩
  · obtain ⟨w, hw⟩ := modify_speed_self s.banks b
    exact ⟨w, s.contPtr, true, s.pwrActive, [], s.engine, by simp [State.setHazard, hw]⟩

/-! ### How a request ends -/

/-- A request whose preconditions pass ends with OK or a bus-phase failure (60_exceptions.md R361). -/
theorem bus_frame {s : State} {c : Nat} {i : Instr} {b : Byte} {k : Bank} (ht : touchesBus i = true)
    (hi : i.bank? = some b) (hb : s.bank? b.toNat = some k) (hp : Passes s c i) :
    EndsAt (FrameTo b.toNat) (fun e s t => busPhase e = true ∧ FrameTo b.toNat s t) (ruleOf i c) s :=
  bus_ends ht hi hb hp touch_frame

/-- The values a body answers: STATUS OK. -/
theorem bodyOf_status {i : Instr} {c : Nat} {k : Bank} {s : State} :
    Values (fun r => r.status = 0) (bodyOf i c k s) := by
  have ok {v : Word} {r x : List Byte} : Values (fun r : Response => r.status = 0) (pure (okResponse v r x) : Bus Response) :=
    Values.pure rfl
  have page (b p : Nat) (cont x : Bool) : Values (fun r : Response => r.status = 0) (pageReadEnd c cont b k p x) :=
    Values.bind fun ⟨_, _⟩ => ok
  cases i <;> first
    | exact Values.raise _
    | exact page _ _ _ _
    | exact Values.bind fun _ => Values.bind fun _ => ok
    | exact Values.bind fun ⟨_, _⟩ => ok
    | skip
  case read cont b a l =>
    change Values _ (readBody c cont b.toNat k a.toNat l.toNat)
    unfold readBody
    split
    · exact ok
    · exact Values.bind fun _ => Values.bind fun _ => ok
  case write b a d =>
    change Values _ (writeBody b.toNat k a.toNat d)
    unfold writeBody
    split
    · exact ok
    · exact Values.bind fun _ => Values.bind fun _ => ok
  case readPage cont b p =>
    change Values _ (readPageBody c cont b.toNat k p.toNat)
    unfold readPageBody
    split
    · exact Values.bind fun _ => Values.bind fun _ => ok
    · exact page _ _ _ _
    · exact page _ _ _ _
    · exact Values.bind fun _ => Values.bind fun _ => ok
    · exact Values.raise _

theorem rule_status {i : Instr} {c : Nat} {s t : State} {r : Response} (h : ruleOf i c s = .ok r t) : r.status = 0 := by
  cases hf : firstFailure (checksOf s c i) with
  | some e =>
    rw [fails_rule hf] at h
    cases h
  | none =>
    cases ht : touchesBus i with
    | false =>
      rw [quiet_guarded ht, guarded, hf] at h
      cases h
      rfl
    | true =>
      obtain ⟨b, hi⟩ := touchesBus_bank ht
      obtain ⟨k, hb⟩ := passes_bank hf hi
      rw [bus_guarded ht hi hb, guarded, hf] at h
      exact bodyOf_status _ _ _ h

/-- The three ways a request ends. -/
theorem exec_ways {i : Instr} {s : State} {c : Nat} (h : Busy s c) :
    (∃ e, firstFailure (checksOf s c i) = some e ∧ exec i s = .next (turnedAway s c e)) ∨
    (Passes s c i ∧ ∃ r t, ruleOf i c s = .ok r t ∧ r.status = 0 ∧ exec i s = .next (t.deliver c r)) ∨
    (Passes s c i ∧ touchesBus i = true ∧ ∃ b k e t, i.bank? = some b ∧ s.bank? b.toNat = some k ∧ busPhase e = true ∧
      ruleOf i c s = .error e t ∧ exec i s = .next (abort c (some b.toNat) e t)) := by
  obtain ⟨req, n, he⟩ := h
  cases hf : firstFailure (checksOf s c i) with
  | some e => exact .inl ⟨e, rfl, by rw [exec_error he (fails_rule hf), abort_precondition (precondition_err hf)]⟩
  | none =>
    right
    cases hr : ruleOf i c s with
    | ok r t => exact .inl ⟨hf, r, t, rfl, rule_status hr, exec_ok he hr⟩
    | error e t =>
      right
      cases ht : touchesBus i with
      | false =>
        rw [quiet_guarded ht, guarded, hf] at hr
        cases hr
      | true =>
        obtain ⟨b, hi⟩ := touchesBus_bank ht
        obtain ⟨k, hb⟩ := passes_bank hf hi
        have hx := exec_error he hr
        rw [bankOf, hi] at hx
        exact ⟨hf, rfl, b, k, e, t, hi, hb, ((bus_frame ht hi hb hf).of_error hr).1, rfl, hx⟩

end Sys2Proof.Machine
end

