-- ==== Sys2Proof/Laws/Grows.lean ====
section
/-! SUPPORT. The transcript never shrinks, and a bus-phase failure comes only after an event. -/

namespace Sys2Proof.Machine

/-- The transcript has not shrunk. -/
def Longer (s t : State) : Prop := s.transcript.length ≤ t.transcript.length

/-- The transcript has grown. -/
def Grown (_ : Err) (s t : State) : Prop := s.transcript.length < t.transcript.length

theorem afterCall_length (c : Call) (s : State) :
    (afterCall c s).transcript.length = s.transcript.length + 1 := by
  simp [afterCall, State.record]

theorem longer_touch {b : Nat} {prev : Option ContPtr} {want : Bool → ContPtr → Prop} {next : ContPtr → Prop} :
    Touch b prev want next Longer (fun _ s t => Longer s t) :=
  Touch.of_writes ⟨fun _ => le_refl _, fun _ _ _ => le_trans, fun _ _ _ _ => le_trans⟩
    (fun c s => by simp [Longer]) (fun c s => by simp [Longer]) (fun _ _ _ => le_refl _)
    (fun _ s => by simp [Longer, State.record]) (fun _ _ => le_refl _) (fun _ => le_refl _) (fun _ _ => le_refl _)
    (fun _ => le_refl _)

theorem longer : Traffic Longer (fun _ s t => Longer s t) :=
  (longer_touch (b := 0) (prev := none) (want := fun _ _ => True) (next := fun _ => True)).toTraffic

theorem longer_contSet (p : ContPtr) : Ends Longer (fun _ s t => Longer s t) (contSet p) :=
  fun s => Nat.le_refl s.transcript.length

/-- A piece that makes an event before it ends or fails. -/
def Starts {α : Type} (m : Bus α) : Prop := Ends (fun s t => Grown .deviceNotPresent s t) Grown m

theorem starts_call (c : Call) : Starts (transport c) :=
  ends_call (fun s _ => by simp [Grown]) (fun s _ => by simp [Grown])

theorem Starts.bind {α β : Type} {m : Bus α} {f : α → Bus β} (hm : Starts m)
    (hf : ∀ a, Ends Longer (fun _ s t => Longer s t) (f a)) : Starts (m >>= f) := by
  intro s
  unfold EndsAt
  rw [bind_apply]
  cases h : m s with
  | error e t => exact (hm s).of_error h
  | ok a t =>
    have h1 := (hm s).of_ok h
    exact (hf a t).weaken (fun u hu => lt_of_lt_of_le h1 hu) (fun e u hu => lt_of_lt_of_le h1 hu)

theorem Starts.after {α β : Type} {m : Bus α} {f : α → Bus β} (hm : ∀ s, ∃ a t, m s = .ok a t ∧ Longer s t)
    (hf : ∀ a, Starts (f a)) : Starts (m >>= f) := by
  intro s
  obtain ⟨a, t, h, hl⟩ := hm s
  unfold EndsAt
  rw [bind_ok h]
  exact (hf a t).weaken (fun u hu => lt_of_le_of_lt hl hu) (fun e u hu => lt_of_le_of_lt hl hu)

theorem starts_select (k : BankConfig) : Starts (select k) := (starts_call _).bind fun _ => Ends.pure longer.toComposes _

theorem starts_exchange (bs : List Byte) : Starts (exchange bs) :=
  (starts_call _).bind fun _ => Ends.pure longer.toComposes _

theorem starts_fetchData (k : Bank) (cont : Bool) (cmd : Byte) (a : Half) (n : Nat) : Starts (fetchData k cont cmd a n) := by
  unfold fetchData
  split
  · exact starts_exchange _
  · exact (starts_select _).bind fun _ => longer.xferRead _ _ _

theorem starts_contCheck {α : Type} {cont : Bool} {w : ContPtr} {prev : Option ContPtr} {f : Unit → Bus α}
    (hf : Starts (f ())) : Starts (contCheck cont w prev >>= f) :=
  Starts.after (fun s => ⟨(), _, contCheck_apply cont w prev s, le_refl _⟩) fun _ => hf

theorem starts_crcPage (k : Bank) (p : Nat) (cont : Bool) : Starts (crcPage k p cont) :=
  (starts_fetchData _ _ _ _ _).bind fun _ => (Ends.readState longer.toComposes).bind longer.toComposes fun _ =>
    (longer.checkResidue _ _).bind longer.toComposes fun _ => Ends.pure longer.toComposes _

theorem starts_readSp (k : Bank) : Starts (readSp k) :=
  (starts_select _).bind fun _ => (longer.exchange _).bind longer.toComposes fun _ =>
    (longer.checkResidue _ _).bind longer.toComposes fun _ => Ends.pure longer.toComposes _

theorem starts_spReadPage (k : Bank) (p : Nat) : Starts (spReadPage k p) := by
  unfold spReadPage
  cases hr : k.cfg.hasRecall with
  | true =>
    refine Starts.bind ?_ fun _ => (longer.readSp _).bind longer.toComposes fun ⟨_, _⟩ => Ends.pure longer.toComposes _
    unfold recallPage
    rw [if_pos hr]
    exact (starts_select _).bind fun _ => (longer.exchange _).bind longer.toComposes fun _ => Ends.pure longer.toComposes _
  | false =>
    refine Starts.after (fun s => ⟨(), s, ?_, le_refl _⟩) fun _ => (starts_readSp _).bind fun ⟨_, _⟩ =>
      Ends.pure longer.toComposes _
    simp [recallPage, hr]

theorem coveringPages_cons (k : BankConfig) {o n : Nat} (hn : 1 ≤ n) :
    ∃ ps, coveringPages k o n = firstPage k o :: ps := by
  have h : firstPage k o ≤ lastPage k o n := Nat.div_le_div_right (by omega)
  unfold coveringPages
  rw [show lastPage k o n + 1 - firstPage k o = (lastPage k o n - firstPage k o) + 1 by omega, List.range'_succ]
  exact ⟨_, rfl⟩

theorem segments_cons (k : BankConfig) (o : Nat) {d : List Byte} (hd : d ≠ []) : ∃ g gs, segments k o d = g :: gs := by
  cases d with
  | nil => exact absurd rfl hd
  | cons x xs => exact ⟨_, _, rfl⟩

theorem starts_readTransfer {c b o n : Nat} (k : Bank) (cont : Bool) (prev : Option ContPtr) (hn : 1 ≤ n) :
    Starts (readTransfer c b k o n cont prev) := by
  obtain ⟨ps, hps⟩ := coveringPages_cons k.cfg (o := o) hn
  have ht := longer_touch (b := b) (prev := prev) (want := fun _ _ => True) (next := fun _ => True)
  unfold readTransfer
  split
  · unfold spReadRange
    rw [hps]
    exact Starts.bind ((starts_spReadPage _ _).bind fun _ => (longer.spReadPages _ _).bind longer.toComposes fun _ =>
      Ends.pure longer.toComposes _) fun _ => Ends.pure longer.toComposes _
  · split
    · exact starts_contCheck ((starts_fetchData _ _ _ _ _).bind fun _ =>
        (ht.contSet trivial).bind longer.toComposes fun _ => Ends.pure longer.toComposes _)
    · unfold crcReadRange
      rw [hps]
      exact starts_contCheck (Starts.bind ((starts_crcPage _ _ _).bind fun ⟨_, _⟩ =>
        (longer.crcPages _ _ _).bind longer.toComposes fun _ => Ends.pure longer.toComposes _) fun _ =>
        (ht.contSet trivial).bind longer.toComposes fun _ => Ends.pure longer.toComposes _)

theorem starts_writeBytes (k : Bank) (o : Nat) (d : List Byte) : Starts (writeBytes k o d) := by
  unfold writeBytes echoWriteSeq
  split
  · refine (starts_select _).bind fun _ => ?_
    cases d with
    | nil => exact Ends.pure longer.toComposes _
    | cons d0 ds =>
      exact (longer.exchange _).bind longer.toComposes fun _ => (longer.echoVerify _ _ _ _).bind longer.toComposes fun _ =>
        longer.echoRest _ _ _
  · exact (starts_select _).bind fun _ => (longer.exchange _).bind longer.toComposes fun _ => Ends.pure longer.toComposes _

theorem starts_writeTransfer (k : Bank) (o : Nat) {d : List Byte} (hd : d ≠ []) : Starts (writeTransfer k o d) := by
  obtain ⟨⟨q, ds⟩, gs, hg⟩ := segments_cons k.cfg o hd
  unfold writeTransfer
  split
  · unfold spWrite
    rw [hg]
    exact Starts.bind (Starts.bind ((starts_select _).bind fun _ => (longer.exchange _).bind longer.toComposes fun _ =>
        Ends.pure longer.toComposes _) fun _ => (longer.readSp _).bind longer.toComposes fun ⟨_, _⟩ =>
        (longer.compareSp _ _ _ _).bind longer.toComposes fun _ => longer.copySp _ _ _) fun _ => longer.spSegments _ _
  · exact starts_writeBytes _ _ _

theorem grown_composes : Composes Longer Grown :=
  ⟨fun _ => le_refl _, fun _ _ _ => le_trans, fun _ _ _ _ => lt_of_le_of_lt⟩

theorem Starts.grown {α : Type} {m : Bus α} (h : Starts m) : Ends Longer Grown m :=
  fun s => (h s).mono (fun _ hu => Nat.le_of_lt hu) fun _ _ => id

theorem grown_pure {α : Type} (a : α) : Ends Longer Grown (pure a : Bus α) := Ends.pure grown_composes a

/-- A body that begins with BEGIN_BUS and then a transfer fails only after an event. -/
theorem grown_begin {α : Type} {s : State} {b : Nat} {k : Bank} (hb : s.bank? b = some k) {f : Option ContPtr → Bus α}
    (hf : ∀ p, Ends Longer Grown (f p)) : EndsAt Longer Grown (beginBus b >>= f) s :=
  EndsAt.bind grown_composes
    (ends_beginBus grown_composes hb (fun c s _ => by simp [Longer]) (fun c s _ => by simp [Grown])
      (fun _ => le_refl _) fun _ => le_refl _) fun a t _ => hf a t

theorem starts_pageRead {α : Type} {cont : Bool} {k : Bank} {p : Nat} {prev : Option ContPtr} {w n : ContPtr}
    {use : List Byte × List Byte → Bus α} (hu : ∀ x, Ends Longer (fun _ s t => Longer s t) (use x)) :
    Starts (contCheck cont w prev >>= fun _ => crcPage k p cont >>= fun page => use page >>= fun out =>
      contSet n >>= fun _ => (pure out : Bus α)) :=
  starts_contCheck ((starts_crcPage _ _ _).bind fun _ => (hu _).bind longer.toComposes fun _ =>
    (longer_contSet _).bind longer.toComposes fun _ => Ends.pure longer.toComposes _)

/-- A request that touches the bus fails in its bus phase only after a transport call (60_exceptions.md R361). -/
theorem bus_grown {s : State} {c : Nat} {i : Instr} {b : Byte} {k : Bank} (ht : touchesBus i = true)
    (hi : i.bank? = some b) (hb : s.bank? b.toNat = some k) (hp : Passes s c i) : EndsAt Longer Grown (ruleOf i c) s := by
  have hg : ruleOf i c s = bodyOf i c k s s := by rw [bus_guarded ht hi hb, guarded_passes hp]
  suffices h : EndsAt Longer Grown (bodyOf i c k s) s by
    unfold EndsAt at h ⊢
    rw [hg]
    exact h
  have page (cont x : Bool) (p : Nat) : EndsAt Longer Grown (pageReadEnd c cont b.toNat k p x) s :=
    EndsAt.bind grown_composes (grown_begin hb fun _ =>
      (starts_pageRead fun _ => Ends.pure longer.toComposes _).grown) fun ⟨_, _⟩ t _ => grown_pure _ t
  cases i <;> first
    | (simp only [touchesBus, Bool.false_eq_true] at ht; done)
    | (simp only [Instr.bank?, Option.some.injEq] at hi
       subst hi)
  case readPageExtra cont b p => exact page _ _ _
  case readPageCrc cont b p => exact page _ _ _
  case readPageCrcExtra cont b p => exact page _ _ _
  case read cont b a l =>
    change EndsAt _ _ (readBody c cont b.toNat k a.toNat l.toNat) s
    unfold readBody
    split
    · exact grown_pure _ s
    · exact grown_begin hb fun _ => ((starts_readTransfer k cont _ (by omega)).grown).bind grown_composes
        fun _ => grown_pure _
  case write b a d =>
    change EndsAt _ _ (writeBody b.toNat k a.toNat d) s
    unfold writeBody
    by_cases hd : d.length = 0
    · rw [if_pos hd]
      exact grown_pure _ s
    · rw [if_neg hd]
      have hn : d ≠ [] := fun h => hd (by rw [h]; rfl)
      exact grown_begin hb fun _ => ((starts_writeTransfer k _ hn).grown).bind grown_composes fun _ => grown_pure _
  case readPage cont b p =>
    change EndsAt _ _ (readPageBody c cont b.toNat k p.toNat) s
    unfold readPageBody
    cases hs : k.cfg.strategy with
    | plain =>
      exact grown_begin hb fun _ => (Starts.grown (starts_contCheck ((starts_fetchData _ _ _ _ _).bind fun _ =>
        (longer_contSet _).bind longer.toComposes fun _ => Ends.pure longer.toComposes _))).bind
        grown_composes fun _ => grown_pure _
    | crc => exact page _ _ _
    | password => exact page _ _ _
    | scratchpad =>
      exact grown_begin hb fun _ => ((starts_spReadPage k _).grown).bind grown_composes fun _ => grown_pure _
    | reserved v =>
      rw [Passes, checksOf, withBank_some hb, hs] at hp
      cases hp
  case readPagePacket cont b p =>
    refine EndsAt.bind grown_composes (grown_begin hb fun _ => (starts_pageRead fun x t => ?_).grown)
      fun ⟨_, _⟩ t _ => grown_pure _ t
    unfold EndsAt packetRead
    cases packetDecode t.crc k.cfg p.toNat x.1 with
    | ok out => exact le_refl _
    | error e => exact le_refl _
  case writePagePacket b p d =>
    exact grown_begin hb fun _ => ((starts_writeBytes k _ _).grown).bind grown_composes fun _ => grown_pure _

end Sys2Proof.Machine
end

