-- ==== Sys2Proof/Laws/Endings.lean ====
section
/-! SUPPORT. The state a request ends in: the abort procedure from inside the frame, and the response on the port. -/

namespace Sys2Proof.Machine

/-- The abort procedure after a bus-phase failure, from any state inside the frame: the failed state, with one power-normal call more
where the pull-up was on (60_exceptions.md R362). -/
theorem abort_frameTo {s t : State} {b c : Nat} {k : Bank} {e : Err} (hb : s.bank? b = some k) (h : FrameTo b s t)
    (he : busPhase e = true) :
    ∃ evs mismatch, abort c (some b) e t = failed s c b k evs mismatch e ∧
      s.transcript ++ evs = t.transcript ++ (if t.pwrActive then [.call .powerNormal (answerTo .powerNormal t)] else []) := by
  obtain ⟨v, ptr, hz, pw, evs, eng, ht⟩ := h
  have hbank : s.banks[b]? = some k := hb
  have f1 : t.canPower = s.canPower := by rw [ht]
  have f2 : t.crc = s.crc := by rw [ht]
  have f3 : t.banks = s.banks.modify b (fun k => { k with speed := v }) := by rw [ht]
  have f4 : t.ports = s.ports := by rw [ht]
  have f5 : t.owner = s.owner := by rw [ht]
  have f7 : t.hazard = (s.hazard || hz) := by rw [ht]
  have f10 : t.transcript = s.transcript ++ evs := by rw [ht]
  have f11 : t.answers = s.answers.drop (answersOf evs).length := by rw [ht]
  have f12 : t.schedule = s.schedule := by rw [ht]
  have f13 : t.draws = s.draws + (answersOf evs).length := by rw [ht]
  clear ht
  cases hpw : t.pwrActive with
  | true =>
    refine ⟨evs ++ [.call .powerNormal (answerTo .powerNormal t)], hz, ?_, by simp [f10]⟩
    unfold abort
    simp only [he, if_true, abortCleanup, hpw]
    apply State.ext' <;>
      simp [failed, State.deliver, State.setCont, State.setPower, State.setSpeed, State.updateBank, forceReverify,
        afterCall, State.record, answersOf_append, List.modify_modify_eq, Function.comp_def, State.bank?, hbank,
        Nat.add_assoc, credHint, f1, f2, f3, f4, f5, f7, f10, f11, f12, f13]
  | false =>
    refine ⟨evs, hz, ?_, by simp [f10]⟩
    unfold abort
    simp only [he, if_true, abortCleanup, hpw]
    apply State.ext' <;>
      simp [failed, State.deliver, State.setCont, State.setSpeed, State.updateBank, forceReverify,
        List.modify_modify_eq, Function.comp_def, State.bank?, hbank, credHint, f1, f2, f3, f4, f5, f7, f10, f11, f12,
        f13, hpw]

theorem quietState_acquire (c : Nat) (s : State) :
    quietState .acquire c s = if s.owner = none then (s.setOwner (some c)).setCont none else s := rfl

/-- A rule writes no client port; only its end does. -/
theorem rule_ports {i : Instr} {s u : State} {c : Nat} {r : Response} (hp : Passes s c i) (hr : ruleOf i c s = .ok r u) :
    u.ports = s.ports := by
  cases ht : touchesBus i with
  | true =>
    obtain ⟨b, hi⟩ := touchesBus_bank ht
    obtain ⟨k, hb⟩ := passes_bank hp hi
    obtain ⟨v, ptr, hz, pw, evs, eng, rfl⟩ := (bus_frame ht hi hb hp).of_ok hr
    rfl
  | false =>
    rw [quiet_guarded ht, guarded_passes hp] at hr
    cases hr
    cases i <;> first | (simp only [touchesBus, Bool.true_eq_false] at ht; done) | skip
    case acquire =>
      rw [quietState_acquire]
      by_cases ho : s.owner = none
      · rw [if_pos ho]; rfl
      · rw [if_neg ho]
    all_goals rfl

theorem responseOf_deliver {i : Instr} {s u : State} {c : Nat} {r r' : Response} (hp : Passes s c i)
    (hr' : ruleOf i c s = .ok r' u) (hc : c < s.nc) (hr : responseOf (u.deliver c r') c = some r) : r = r' := by
  have hl : c < s.ports.length := hc
  simp [responseOf, State.deliver, State.port?, rule_ports hp hr', List.getElem?_eq_getElem hl] at hr
  exact hr.symm

end Sys2Proof.Machine
end

