-- ==== Sys2Proof/Machine/Assembler.lean ====
section
/-! DEFINITION. The textual request syntax and the pseudo-requests (30_encoding.md R108, R109): notations for requests, which the
block itself never sees. -/

namespace Sys2Proof.Machine

/-- The mnemonic of an opcode (R103). -/
def mnemonic : Opcode → String
  | .getSize => "GET_SIZE"
  | .getPageLength => "GET_PAGE_LENGTH"
  | .getMaxPacket => "GET_MAX_PACKET"
  | .getFlags => "GET_FLAGS"
  | .getExtraLen => "GET_EXTRA_LEN"
  | .read => "READ"
  | .write => "WRITE"
  | .readPage => "READ_PAGE"
  | .readPageExtra => "READ_PAGE_EXTRA"
  | .readPageCrc => "READ_PAGE_CRC"
  | .readPageCrcExtra => "READ_PAGE_CRC_EXTRA"
  | .readPagePacket => "READ_PAGE_PACKET"
  | .writePagePacket => "WRITE_PAGE_PACKET"
  | .setWriteVerify => "SET_WRITE_VERIFY"
  | .setPowered => "SET_POWERED"
  | .setCredRw => "SET_CRED_RW"
  | .setCredRo => "SET_CRED_RO"
  | .clearCreds => "CLEAR_CREDS"
  | .acquire => "ACQUIRE"
  | .release => "RELEASE"

/-- A byte as two hexadecimal digits. -/
def hexByte (b : Byte) : String :=
  let digit (n : Nat) : Char := if n < 10 then Char.ofNat (48 + n) else Char.ofNat (55 + n)
  String.ofList [digit (b.toNat / 16), digit (b.toNat % 16)]

/-- A bracketed hex byte list (R108). -/
def hexBytes (bs : List Byte) : String := "[" ++ String.intercalate " " (bs.map hexByte) ++ "]"

/-- `MNEMONIC[.C] bBANK` and the operands of R108. -/
def requestText (op : Opcode) (cont : Bool) (b : Byte) (operands : List String) : String :=
  String.intercalate ", " ((mnemonic op ++ (if cont then ".C" else "") ++ " b" ++ toString b.toNat) :: operands)

/-- A request in the textual syntax of R108. -/
def render : Instr → String
  | .getSize b => requestText .getSize false b []
  | .getPageLength b => requestText .getPageLength false b []
  | .getMaxPacket b => requestText .getMaxPacket false b []
  | .getFlags b => requestText .getFlags false b []
  | .getExtraLen b => requestText .getExtraLen false b []
  | .read c b a l => requestText .read c b [toString a.toNat, toString l.toNat]
  | .write b a d => requestText .write false b [toString a.toNat, hexBytes d]
  | .readPage c b p => requestText .readPage c b [toString p.toNat]
  | .readPageExtra c b p => requestText .readPageExtra c b [toString p.toNat]
  | .readPageCrc c b p => requestText .readPageCrc c b [toString p.toNat]
  | .readPageCrcExtra c b p => requestText .readPageCrcExtra c b [toString p.toNat]
  | .readPagePacket c b p => requestText .readPagePacket c b [toString p.toNat]
  | .writePagePacket b p d => requestText .writePagePacket false b [toString p.toNat, hexBytes d]
  | .setWriteVerify b a => requestText .setWriteVerify false b [toString a.toNat]
  | .setPowered b a => requestText .setPowered false b [toString a.toNat]
  | .setCredRw b d => requestText .setCredRw false b [hexBytes d]
  | .setCredRo b d => requestText .setCredRo false b [hexBytes d]
  | .clearCreds b => requestText .clearCreds false b []
  | .acquire => mnemonic .acquire
  | .release => mnemonic .release

/-- `STREAM_PAGES bB, p, n` (R109), n >= 1: ACQUIRE, one page read, n - 1 continuations, RELEASE. If read number `failedAt` fails,
the later reads are skipped and RELEASE is still issued. Pages past 65535 have no encoding (log 27). -/
def streamPages (b : Byte) (p : Half) (n : Nat) (failedAt : Option Nat) : Option (List Instr) :=
  if 1 ≤ n ∧ p.toNat + n ≤ 65536 then
    let reads := (List.range n).map (fun k => Instr.readPageCrc (k != 0) b (BitVec.ofNat 16 (p.toNat + k)))
    let issued := match failedAt with
      | none => reads
      | some j => reads.take (j + 1)
    some (.acquire :: issued ++ [.release])
  else none

/-- `READ_BANK bB` (R109): "admitted only when SIZE <= 65535". -/
def readBank (b : Byte) (k : BankConfig) : Option Instr :=
  if k.size ≤ 65535 then some (.read false b 0 (BitVec.ofNat 16 k.size)) else none

end Sys2Proof.Machine
end

