-- ==== Sys2Proof/Tests/Slice0.lean ====
section
/-! SUPPORT. Tests of the model, and a witness for the hypotheses of every obligation. Expected values are those of
95_test_vectors.md and 30_encoding.md R108, or worked out by hand from the rules where the comment says so. -/

namespace Sys2Proof.Tests

open Sys2Proof.Machine

-- each kernel evaluation in a thread of its own would reserve a stack of its own
set_option Elab.async false

/-! ### Well-formedness -/

theorem test_bank_refused : (Instr.getSize 6).wellFormed 6 = false := by decide
theorem test_bank_last : (Instr.getSize 5).wellFormed 6 = true := by decide
theorem test_data_refused : (Instr.write 0 0 (List.replicate 65536 0)).wellFormed 6 = false := by
  simp only [Instr.wellFormed, Instr.dataFits, Instr.data, List.length_replicate, Nat.lt_irrefl, decide_false, Bool.and_false]
theorem test_data_last : (Instr.write 0 0 (List.replicate 65535 0)).wellFormed 6 = true := by
  simp only [Instr.wellFormed, Instr.dataFits, Instr.data, List.length_replicate]
  decide

/-! ### Decoding, every constructor on a word written out from R101 and R103 -/

theorem test_decode_getSize : decode 6 ⟨0x00010001, 0, 0, []⟩ = .ok (.getSize 1) := by decide +kernel
theorem test_decode_getPageLength : decode 6 ⟨0x00020002, 0, 0, []⟩ = .ok (.getPageLength 2) := by decide +kernel
theorem test_decode_getMaxPacket : decode 6 ⟨0x00030003, 0, 0, []⟩ = .ok (.getMaxPacket 3) := by decide +kernel
theorem test_decode_getFlags : decode 6 ⟨0x00040004, 0, 0, []⟩ = .ok (.getFlags 4) := by decide +kernel
theorem test_decode_getExtraLen : decode 6 ⟨0x00050005, 0, 0, []⟩ = .ok (.getExtraLen 5) := by decide +kernel
theorem test_decode_read : decode 6 ⟨0x00010110, 8, 9, []⟩ = .ok (.read true 1 8 9) := by decide +kernel
theorem test_decode_write : decode 6 ⟨0x00010011, 7, 3, [1, 2, 3]⟩ = .ok (.write 1 7 [1, 2, 3]) := by decide +kernel
theorem test_decode_readPage : decode 6 ⟨0x00030020, 1, 0, []⟩ = .ok (.readPage false 3 1) := by decide +kernel
theorem test_decode_readPageExtra : decode 6 ⟨0x00040121, 1, 0, []⟩ = .ok (.readPageExtra true 4 1) := by decide +kernel
theorem test_decode_readPageCrc : decode 6 ⟨0x00000122, 1, 0, []⟩ = .ok (.readPageCrc true 0 1) := by decide +kernel
theorem test_decode_readPageCrcExtra : decode 6 ⟨0x00040023, 1, 0, []⟩ = .ok (.readPageCrcExtra false 4 1) := by
  decide +kernel
theorem test_decode_readPagePacket : decode 6 ⟨0x00000024, 2, 0, []⟩ = .ok (.readPagePacket false 0 2) := by decide +kernel
theorem test_decode_writePagePacket : decode 6 ⟨0x00000025, 3, 2, [0x68, 0x69]⟩ = .ok (.writePagePacket 0 3 [0x68, 0x69]) := by
  decide +kernel
theorem test_decode_setWriteVerify : decode 6 ⟨0x00030030, 1, 0, []⟩ = .ok (.setWriteVerify 3 1) := by decide +kernel
theorem test_decode_setPowered : decode 6 ⟨0x00020031, 1, 0, []⟩ = .ok (.setPowered 2 1) := by decide +kernel
theorem test_decode_setCredRw : decode 6 ⟨0x00020032, 0, 2, [0x11, 0x12]⟩ = .ok (.setCredRw 2 [0x11, 0x12]) := by
  decide +kernel
theorem test_decode_setCredRo : decode 6 ⟨0x00020033, 0, 2, [0x21, 0x22]⟩ = .ok (.setCredRo 2 [0x21, 0x22]) := by
  decide +kernel
theorem test_decode_clearCreds : decode 6 ⟨0x00020034, 0, 0, []⟩ = .ok (.clearCreds 2) := by decide +kernel
theorem test_decode_acquire : decode 6 ⟨0x00090040, 0, 0, []⟩ = .ok .acquire := by decide +kernel
theorem test_decode_release : decode 6 ⟨0x00000041, 0, 0, []⟩ = .ok .release := by decide +kernel

/-- The rejections of 95, section 3.2. -/
theorem test_decode_rejects :
    decode 6 ⟨0x000000FF, 0, 0, []⟩ = .error .unlistedOpcode ∧ decode 6 ⟨0x00000201, 0, 0, []⟩ = .error .reservedBits ∧
    decode 6 ⟨0x01000001, 0, 0, []⟩ = .error .reservedBits ∧ decode 6 ⟨0x00000101, 0, 0, []⟩ = .error .continueNotAllowed ∧
    decode 6 ⟨0x00010111, 0, 1, [0]⟩ = .error .continueNotAllowed ∧
    decode 6 ⟨0x00060001, 0, 0, []⟩ = .error .bankOutOfRange ∧ decode 6 ⟨0x00010010, 0, 1, [0]⟩ = .error .dataNotEmpty ∧
    decode 6 ⟨0x00010011, 0, 2, [1]⟩ = .error .dataLengthMismatch := by decide +kernel

theorem test_table_word : decodeTableWord 32 0x00050034 = some (.clearCreds 5) := by decide +kernel

/-- R108. -/
theorem test_render : render (.read true 1 8 8) = "READ.C b1, 8, 8" ∧ render (.write 1 0 [1, 2, 3]) = "WRITE b1, 0, [01 02 03]" := by
  decide +kernel

/-- R109: after a failed read the later reads are skipped and RELEASE is still issued. -/
theorem test_streamPages :
    streamPages 0 1 3 none =
      some [.acquire, .readPageCrc false 0 1, .readPageCrc true 0 2, .readPageCrc true 0 3, .release] ∧
    streamPages 0 1 3 (some 1) = some [.acquire, .readPageCrc false 0 1, .readPageCrc true 0 2, .release] := by
  decide +kernel

/-! ### Checksums (95, section 3.1) -/

theorem test_crc16_check : crc16Reference 0 [0x31, 0x32, 0x33, 0x34, 0x35, 0x36, 0x37, 0x38, 0x39] = 0xBB3D := by
  decide +kernel
theorem test_crc16_packet : crc16Reference 0 [2, 0x68, 0x69] = 0x2E4E ∧ crc16Reference 1 [2, 0x68, 0x69] = 0xEE1F := by
  decide +kernel
theorem test_crc16_residue : crc16Reference 0 [2, 0x68, 0x69, 0xB1, 0xD1] = 0xB001 := by decide +kernel

/-! ### States for the tests -/

/-- The example configuration with every bank VERIFIED: the start state of most groups of section 3 of 95. -/
def ready : State := { State.reset with banks := exampleConfig.banks.map fun k => { Bank.reset k with speed := .verified } }

/-- n bytes counting up from a. -/
def ramp (a n : Nat) : List Byte := (List.range n).map fun i => BitVec.ofNat 8 (a + i)

/-- With the credential of 95, section 3.8, loaded on b2. -/
def withCred (s : State) : State :=
  { s with banks := s.banks.modify 2 fun k =>
      { k with credRw := [0x11, 0x12, 0x13, 0x14, 0x15, 0x16, 0x17, 0x18], credRwValid := true } }

/-- With the read-only credential of 95, section 3.8, loaded on b2. -/
def withRo (s : State) : State :=
  { s with banks := s.banks.modify 2 fun k => { k with credRo := ramp 0x21 8, credRoValid := true } }

/-- In powered mode on b2. -/
def powered (s : State) : State := { s with banks := s.banks.modify 2 fun k => { k with powered := true } }

/-- Client 0 owns the scope. -/
def owned (s : State) (p : Option ContPtr) : State := { s with owner := some 0, contPtr := p }

/-- ENGINE runs a request of client 0, and the transport will answer as in `evs`. -/
def busyWith (s : State) (evs : List Event) : State :=
  { s with engine := .busy 0 ⟨0, 0, 0, []⟩ 0, answers := answersOf evs }

/-- One step that takes and runs request i of client 0, with the transport answering as in `evs`. -/
def stepped (s : State) (i : Instr) (evs : List Event) : Option State :=
  match step { placeRequest s (encode i) with answers := answersOf evs } with
  | .next t => some t
  | _ => none

/-- What the bus and the client see of that step. -/
def seen (s : State) (i : Instr) (evs : List Event) : Option (List Event × Option Response × Option ContPtr) :=
  (stepped s i evs).map fun t => (t.transcript, responseOf t 0, t.contPtr)

/-- The bank context of a configuration, VERIFIED. -/
def ok (k : BankConfig) : Bank := { Bank.reset k with speed := .verified }

def sel (n : Nat) : Event := .call (.select ⟨n⟩) (.truth true)

/-- Data phases of 95: b0 page 0, the "hi" page, the largest packet, an erased page, page 0's packet read as page 1 (3.6, 3.7). -/
def page0 : List Byte := ramp 0 32 ++ [0x2C, 0x2F]
def pageHi : List Byte := [2, 0x68, 0x69, 0xB1, 0xD1] ++ ramp 5 27 ++ [0x1E, 0x73]
def page29 : List Byte := 0x1D :: ramp 0xC0 29 ++ [0xF4, 0xC1, 0x5C, 0x84]
def pageErased : List Byte := filler 32 ++ [0x50, 0xE8]
def pageMoved : List Byte := [2, 0x68, 0x69, 0xB1, 0xD1] ++ ramp 5 27 ++ [0x13, 0x13]

/-- The continued page 1 of b0, and b4's page 1 (3.6). -/
def page1c : List Byte := ramp 0x20 32 ++ [0xE5, 0xCD]
def page4 : List Byte := ramp 0xA0 32 ++ [0x5B, 0x34, 0x2F]

/-! ### One step (95, sections 3.3 to 3.11) -/

theorem test_queries :
    [Instr.getSize 4, .getPageLength 4, .getMaxPacket 4, .getFlags 4, .getExtraLen 4].map (fun i => seen .reset i []) =
      [64, 32, 28, 0x199, 1].map fun v => some ([], some ⟨0, v, [], []⟩, none) := by decide +kernel

theorem test_read_native : seen ready (.read false 1 15 1) [sel 1, exchangeEvent [0xF0, 0x0F, 0, 0xFF] [0xF0, 0x0F, 0, 0xAF]] =
    some ([sel 1, exchangeEvent [0xF0, 0x0F, 0, 0xFF] [0xF0, 0x0F, 0, 0xAF]], some ⟨0, 0, [0xAF], []⟩,
      some ⟨0, 1, .byte, 16⟩) := by decide +kernel

theorem test_read_range :
    let evs := [sel 0, exchangeEvent ([0xA5, 0, 0] ++ filler 34) ([0xA5, 0, 0] ++ page0), exchangeEvent (filler 34) page1c]
    seen ready (.read false 0 30 4) evs = some (evs, some ⟨0, 0, [0x1E, 0x1F, 0x20, 0x21], []⟩, some ⟨0, 0, .page, 64⟩) := by
  decide +kernel

theorem test_write_echo :
    let evs := [sel 5, exchangeEvent [0x0F, 0, 0, 0x12, 0xFF, 0xFF] [0x0F, 0, 0, 0x12, 0x7C, 0xE6], .call .programPulse .ok,
      getEvent 0x12, exchangeEvent [0x34, 0xFF, 0xFF] [0x34, 0x3F, 0xE8], .call .programPulse .ok, getEvent 0x34]
    seen ready (.write 5 0 [0x12, 0x34]) evs = some (evs, some ⟨0, 0, [], []⟩, none) := by decide +kernel

theorem test_write_scratchpad :
    let evs := [sel 3, exchangeEvent [0x0F, 0, 0, 1, 2] [0x0F, 0, 0, 1, 2], sel 3,
      exchangeEvent (0xAA :: filler 37) ([0xAA, 0, 0, 1, 1, 2] ++ filler 30 ++ [0x20, 0x6F]), sel 3,
      exchangeEvent [0x55, 0, 0] [0x55, 0, 0], .call (.powerDuration ⟨1⟩) .ok, .call (.powerStart .afterNextByte) .ok,
      .call (.put 1) .ok, .hold ⟨1⟩, .call .powerNormal .ok, getEvent 0xAA]
    seen ready (.write 3 0 [1, 2]) evs = some (evs, some ⟨0, 0, [], []⟩, none) := by decide +kernel

theorem test_readPage_plain :
    let evs := [sel 1, exchangeEvent ([0xF0, 0, 0] ++ filler 16) ([0xF0, 0, 0] ++ ramp 0xA0 16)]
    seen ready (.readPage false 1 0) evs = some (evs, some ⟨0, 0, ramp 0xA0 16, []⟩, some ⟨0, 1, .byte, 16⟩) := by
  decide +kernel

theorem test_readPage_scratchpad :
    let evs := [sel 3, exchangeEvent [0xB8, 0x20, 0] [0xB8, 0x20, 0], sel 3,
      exchangeEvent (0xAA :: filler 37) ([0xAA, 0x20, 0, 0x1F, 0xA3, 0xA4] ++ filler 30 ++ [0x72, 0xEF])]
    seen ready (.readPage false 3 1) evs = some (evs, some ⟨0, 0, [0xA3, 0xA4] ++ filler 30, []⟩, none) := by decide +kernel

/-- The bytes of READ_PAGE_CRC_EXTRA b4, 1 in 3.6; READ_PAGE_EXTRA does the same (42_crc_bank.md R207). -/
theorem test_readPageExtra :
    let evs := [sel 4, exchangeEvent ([0xC3, 0x20, 0] ++ filler 35) ([0xC3, 0x20, 0] ++ page4)]
    seen ready (.readPageExtra false 4 1) evs = some (evs, some ⟨0, 0, ramp 0xA0 32, [0x5B]⟩, some ⟨0, 4, .page, 64⟩) ∧
    seen ready (.readPageCrcExtra false 4 1) evs = some (evs, some ⟨0, 0, ramp 0xA0 32, [0x5B]⟩, some ⟨0, 4, .page, 64⟩) := by
  decide +kernel

theorem test_readPageCrc_powered :
    let evs := [sel 2, exchangeEvent ([0x69, 0x20, 0] ++ ramp 0x11 7) ([0x69, 0x20, 0] ++ ramp 0x11 7),
      .call (.powerDuration ⟨0⟩) .ok, .call (.powerStart .afterNextByte) .ok, .call (.put 0x18) .ok, .hold ⟨0⟩,
      .call .powerNormal .ok, exchangeEvent (filler 34) (ramp 0x60 32 ++ [0xAE, 0])]
    seen (powered (withCred ready)) (.readPageCrc false 2 1) evs =
      some (evs, some ⟨0, 0, ramp 0x60 32, []⟩, some ⟨0, 2, .page, 64⟩) := by decide +kernel

/-- 3.4.3: bit 0 of one data byte flipped. -/
theorem test_readPageCrc_corrupted :
    let evs := [sel 0, exchangeEvent ([0xA5, 0, 0] ++ filler 34) ([0xA5, 0, 0] ++ page0.set 5 4)]
    seen ready (.readPageCrc false 0 0) evs = some (evs, some ⟨2, 0, [], []⟩, none) := by decide +kernel

theorem test_readPagePacket :
    let evs := [sel 0, exchangeEvent ([0xA5, 0, 0] ++ filler 34) ([0xA5, 0, 0] ++ pageHi)]
    seen ready (.readPagePacket false 0 0) evs = some (evs, some ⟨0, 2, [0x68, 0x69], []⟩, some ⟨0, 0, .page, 32⟩) := by
  decide +kernel

theorem test_writePagePacket :
    let evs := [sel 0, exchangeEvent [0x0F, 0, 0, 2, 0x68, 0x69, 0xB1, 0xD1] [0x0F, 0, 0, 2, 0x68, 0x69, 0xB1, 0xD1]]
    seen ready (.writePagePacket 0 0 [0x68, 0x69]) evs = some (evs, some ⟨0, 0, [], []⟩, none) := by decide +kernel

theorem test_setWriteVerify :
    (stepped ready (.setWriteVerify 3 0) []).bind (fun t => (t.bank? 3).map Bank.writeVerify) = some false ∧
    seen ready (.setWriteVerify 3 2) [] = some ([], some ⟨6, 0, [], []⟩, none) := by decide +kernel

theorem test_setPowered :
    (stepped ready (.setPowered 2 1) []).bind (fun t => (t.bank? 2).map Bank.powered) = some true ∧
    seen ready (.setPowered 0 1) [] = some ([], some ⟨6, 0, [], []⟩, none) := by decide +kernel

theorem test_setCredRw :
    (stepped ready (.setCredRw 2 (ramp 0x11 8)) []).bind (fun t => (t.bank? 2).map fun k => (k.credRw, k.credRwValid, k.credRoValid)) =
      some (ramp 0x11 8, true, false) := by decide +kernel

theorem test_setCredRo :
    (stepped ready (.setCredRo 2 (ramp 0x21 8)) []).bind (fun t => (t.bank? 2).map fun k => (k.credRo, k.credRoValid, k.credRwValid)) =
      some (ramp 0x21 8, true, false) ∧
    seen ready (.setCredRo 2 [0x21, 0x22]) [] = some ([], some ⟨6, 0, [], []⟩, none) := by decide +kernel

theorem test_clearCreds :
    (stepped (withCred ready) (.clearCreds 2) []).bind (fun t => (t.bank? 2).map fun k => (k.credRwValid, k.credRoValid)) =
      some (false, false) := by decide +kernel

theorem test_acquire : (stepped ready .acquire []).map (fun t => (t.owner, t.contPtr)) = some (some 0, none) := by
  decide +kernel

theorem test_release :
    (stepped (owned ready (some ⟨0, 0, .page, 32⟩)) .release []).map (fun t => (t.owner, t.contPtr)) = some (none, none) ∧
    seen ready .release [] = some ([], some ⟨6, 0, [], []⟩, none) := by decide +kernel

/-- 3.6: a continuation that does not start at CONT_PTR sets HAZARD. -/
theorem test_hazard :
    (stepped (owned ready (some ⟨0, 0, .page, 128⟩)) (.readPageCrc true 0 1) [exchangeEvent (filler 34) (filler 34)]).map
      (fun t => (t.hazard, (responseOf t 0).map Response.status)) = some (true, some 2) := by decide +kernel

/-- 3.8: put fails inside the powered tail; the abort procedure calls power-normal, and the bank is STALE. -/
theorem test_abort_power :
    let evs := [sel 2, exchangeEvent ([0x69, 0, 0] ++ ramp 0x11 7) ([0x69, 0, 0] ++ ramp 0x11 7),
      .call (.powerDuration ⟨0⟩) .ok, .call (.powerStart .afterNextByte) .ok, .call (.put 0x18) .fail, .call .powerNormal .ok]
    (stepped (powered (withCred ready)) (.readPageCrc false 2 0) evs).map
      (fun t => (t.transcript, (responseOf t 0).map Response.status, (t.bank? 2).map Bank.speed)) =
      some (evs, some 1, some .stale) := by decide +kernel

/-- 3.4.5: from reset, a device that is not present. -/
theorem test_not_present :
    let evs : List Event := [.call (.setSpeed ⟨0⟩) .ok, .call (.isPresent ⟨0⟩) (.truth false)]
    seen .reset (.readPageCrc false 0 0) evs = some (evs, some ⟨1, 0, [], []⟩, none) := by decide +kernel

/-! ### Witnesses: for every obligation with hypotheses, a concrete case that meets all of them together -/

/-- What exec answers, on a state where it answers a next state. -/
def after (i : Instr) (s : State) : State :=
  match exec i s with
  | .next t => t
  | _ => s

/-- What step answers, on a state where it answers a next state. -/
def afterStep (s : State) : State :=
  match step s with
  | .next t => t
  | _ => s

theorem busy_busyWith (s : State) (evs : List Event) : Busy (busyWith s evs) 0 := ⟨_, _, rfl⟩

theorem passes_of {s : State} {c : Nat} {i : Instr} (h : firstFailure (checksOf s c i) = none) : Passes s c i := h

theorem answering_busyWith (s : State) (evs : List Event) : Answering (busyWith s evs) evs :=
  ⟨[], (List.append_nil _).symm⟩

theorem running_ready {b : Byte} {k : Bank} (evs : List Event) (h : ready.bank? b.toNat = some k) :
    Running (busyWith ready evs) 0 b k := ⟨busy_busyWith _ _, h⟩

/-- The page read of b0 page 0 from reset: the bank is STALE first. -/
def freshEvents : List Event :=
  [.call (.setSpeed ⟨0⟩) .ok, .call (.isPresent ⟨0⟩) (.truth true), sel 0,
    exchangeEvent ([0xA5, 0, 0] ++ filler 34) ([0xA5, 0, 0] ++ page0)]
def freshState : State := busyWith .reset freshEvents
def freshDone : State := after (.readPageCrc false 0 0) freshState

theorem fresh_runs : Busy freshState 0 ∧ 0 < freshState.nc ∧ exec (.readPageCrc false 0 0) freshState = .next freshDone ∧
    responseOf freshDone 0 = some ⟨0, 0, ramp 0 32, []⟩ ∧ freshDone.transcript = freshState.transcript ++ freshEvents :=
  ⟨busy_busyWith _ _, by decide +kernel, rfl, by decide +kernel, by decide +kernel⟩

/-- The powered page read of b2 whose put fails (3.8). -/
def abortEvents : List Event :=
  [sel 2, exchangeEvent ([0x69, 0, 0] ++ ramp 0x11 7) ([0x69, 0, 0] ++ ramp 0x11 7), .call (.powerDuration ⟨0⟩) .ok,
    .call (.powerStart .afterNextByte) .ok, .call (.put 0x18) .fail, .call .powerNormal .ok]
def abortState : State := busyWith (powered (withCred ready)) abortEvents
def abortDone : State := after (.readPageCrc false 2 0) abortState

theorem abort_runs : Busy abortState 0 ∧ 0 < abortState.nc ∧ exec (.readPageCrc false 2 0) abortState = .next abortDone ∧
    responseOf abortDone 0 = some ⟨1, 0, [], []⟩ ∧ abortDone.transcript = abortState.transcript ++ abortEvents :=
  ⟨busy_busyWith _ _, by decide +kernel, rfl, by decide +kernel, by decide +kernel⟩

/-- A page read of b2 that answers only filler: a checksum error, with the credential hint. -/
def hintEvents : List Event :=
  [sel 2, exchangeEvent ([0x69, 0, 0] ++ ramp 0x11 8 ++ filler 34) (filler 45)]
def hintState : State := busyWith (withCred ready) hintEvents
def hintDone : State := after (.readPageCrc false 2 0) hintState

theorem hint_runs : Busy hintState 0 ∧ 0 < hintState.nc ∧ exec (.readPageCrc false 2 0) hintState = .next hintDone ∧
    responseOf hintDone 0 = some ⟨0x12, 0, [], []⟩ ∧ hintDone.transcript = hintState.transcript ++ hintEvents :=
  ⟨busy_busyWith _ _, by decide +kernel, rfl, by decide +kernel, by decide +kernel⟩

/-- A continuation that does not start at CONT_PTR. -/
def hazardState : State := busyWith (owned ready (some ⟨0, 0, .page, 128⟩)) [exchangeEvent (filler 34) (filler 34)]
def hazardDone : State := after (.readPageCrc true 0 1) hazardState

theorem witness_DecodeOfEncode : (Instr.write 5 63 [1]).wellFormed 6 = true ∧ (Instr.read true 0 0xFFFF 0xFFFF).wellFormed 1 = true := by
  decide
theorem witness_EncodeOfDecode : decode 6 ⟨0x00090040, 7, 8, []⟩ = .ok .acquire ∧ (.acquire ≠ Instr.release) ∧
    decode 6 ⟨0x00010001, 7, 8, []⟩ = .ok (.getSize 1) ∧ (Instr.write 1 0 [1]).opcode.takesData = true := by decide

theorem witness_StepRunsDecoded :
    let s : State := { State.reset with engine := .busy 1 ⟨0x00050001, 0, 0, []⟩ 0 }
    let t : State := { State.reset with engine := .busy 1 ⟨0x00060001, 0, 0, []⟩ 0 }
    s.admitted = true ∧ decode s.nb ⟨0x00050001, 0, 0, []⟩ = .ok (.getSize 5) ∧ t.admitted = true ∧
    decode t.nb ⟨0x00060001, 0, 0, []⟩ = .error .bankOutOfRange := by decide +kernel

theorem witness_StepTakesAndRuns :
    let s (o : Option Nat) (r : Request) : State :=
      { State.reset with owner := o, schedule := [.take 1], ports := [⟨none, none⟩, ⟨some r, none⟩] }
    (∀ o ∈ [none, some 1], (s o ⟨0x00000001, 0, 0, []⟩).admitted = true ∧
      (s o ⟨0x00000001, 0, 0, []⟩).port? 1 = some ⟨some ⟨0x00000001, 0, 0, []⟩, none⟩) ∧
    (s (some 0) ⟨0x00000041, 0, 0, []⟩).admitted = true ∧ (0x00000041 : BitVec 32).extractLsb' 0 8 = 0x41#8 ∧
    decode 6 ⟨0x00000041, 0, 0, []⟩ = .ok .release ∧ decode 6 ⟨0x00000001, 0, 0, []⟩ = .ok (.getSize 0) ∧
    decode 6 ⟨0x000000FF, 0, 0, []⟩ = .error .unlistedOpcode := by decide +kernel

theorem witness_PlacedWordRunsNext : State.reset.admitted = true ∧ fetchClient .reset < State.reset.nc ∧
    decode State.reset.nb (requestOfBits 32 0x00050034) = .ok (.clearCreds 5) := by decide +kernel

theorem witness_IdleMoves :
    let s (m : Move) (o : Option Nat) (p : Port) : State := { State.reset with owner := o, schedule := [m], ports := [⟨none, none⟩, p] }
    let r : Request := ⟨0x00000001, 0, 0, []⟩
    (s (.issue 1 r) none ⟨none, none⟩).admitted = true ∧ (s (.issue 1 r) none ⟨none, none⟩).port? 1 = some ⟨none, none⟩ ∧
    (s (.issue 1 r) none ⟨some r, none⟩).port? 1 = some ⟨some r, none⟩ ∧ (⟨some r, none⟩ : Port) ≠ ⟨none, none⟩ ∧
    (s (.consume 1) none ⟨none, none⟩).schedule = .consume 1 :: [] ∧
    (s (.take 1) (some 0) ⟨some r, none⟩).port? 1 = some ⟨some r, none⟩ ∧
    r.w.extractLsb' 0 8 ≠ 0x41#8 := by decide +kernel

/-- Client 1's request waits while client 0 owns the scope. -/
def heldState : State :=
  { State.reset with owner := some 0, schedule := [.take 1], ports := [⟨none, none⟩, ⟨some ⟨0x00000001, 0, 0, []⟩, none⟩] }

theorem witness_ScopeExcludesOthers : heldState.engine = .idle ∧ heldState.owner = some 0 ∧
    heldState.port? 1 = some ⟨some ⟨0x00000001, 0, 0, []⟩, none⟩ ∧ (0x00000001 : BitVec 32).extractLsb' 0 8 ≠ 0x41#8 ∧
    step heldState = .next (afterStep heldState) := ⟨rfl, rfl, rfl, by decide, rfl⟩

theorem witness_SchedulerTakesEligible :
    let t : State := { State.reset with ports := [⟨some ⟨0x00000001, 0, 0, []⟩, none⟩, ⟨some ⟨0x00000040, 0, 0, []⟩, none⟩] }
    t.admitted = true ∧ t.engine = .idle ∧ t.schedule = [] ∧
    t.port? 1 = some ⟨some ⟨0x00000040, 0, 0, []⟩, none⟩ ∧ eligible t 1 ⟨0x00000040, 0, 0, []⟩ = true := by decide +kernel

/-- R331 (3): of two eligible clients the scheduler may take either or none. -/
theorem test_chooseClient :
    let t : State := { State.reset with ports := [⟨some ⟨0x00000001, 0, 0, []⟩, none⟩, ⟨some ⟨0x00000040, 0, 0, []⟩, none⟩] }
    [0, 1, 2].map (chooseClient · t) = [some 0, some 1, none] := by decide +kernel

/-- One bank for each clause, at the boundary value that breaks it. -/
def badBanks : List BankConfig :=
  [{ exampleB1 with startPhys := 65521 }, { exampleB0 with pageLength := 2 }, { exampleB0 with flags := 0x09A },
    { exampleB4 with extraLen := 0 }, { exampleB0 with extraLen := 1 }, { exampleB1 with flags := 0x093 },
    { exampleB1 with hasNativeRead := false }, { exampleB3 with echoWrite := true }, { exampleB2 with pwLen := 0 },
    { exampleB5 with echoWrite := false }, { exampleB1 with strategy := .reserved 4 }]

theorem witness_UnadmittedRefused :
    (∀ k ∈ badBanks, Bank.reset k ∈ ({ State.reset with banks := badBanks.map Bank.reset } : State).banks) ∧
    ∃ k0 k1 k2 k3 k4 k5 k6 k7 k8 k9 k10, badBanks = [k0, k1, k2, k3, k4, k5, k6, k7, k8, k9, k10] ∧
      (¬ k0.startPhys + k0.size ≤ 65536) ∧ (k1.strategy = .crc ∧ ¬ 3 + k1.extraLen ≤ k1.pageLength) ∧
      (readOnly k2 = true ∧ readWrite k2 = true) ∧ (hasExtraInfo k3 = true ∧ ¬ 1 ≤ k3.extraLen) ∧
      (hasExtraInfo k4 = false ∧ k4.extraLen ≠ 0) ∧ (hasPageAutoCrc k5 = true ∧ k5.strategy = .plain) ∧
      (k6.strategy = .plain ∧ k6.hasNativeRead = false) ∧ (k7.strategy = .scratchpad ∧ k7.echoWrite = true) ∧
      (k8.strategy = .password ∧ ¬ 1 ≤ k8.pwLen) ∧ (needsProgramPulse k9 = true ∧ k9.echoWrite = false) ∧
      strategyCode k10.strategy = 4 :=
  ⟨fun _ h => List.mem_map_of_mem h, _, _, _, _, _, _, _, _, _, _, _, rfl, by decide +kernel⟩

theorem witness_ResetValues : State.reset = State.resetWith exampleConfig ∧ exampleConfig.banks ≠ [] ∧ exampleConfig.clients = 2 :=
  ⟨rfl, by decide, rfl⟩

theorem witness_StepKeepsInv : Inv State.reset ∧ step State.reset = .next (afterStep State.reset) where
  left := {
    owner := fun _ h => nomatch h
    engine := fun _ _ _ h => nomatch h
    cont := fun _ h => nomatch h
    powered := fun b k h hp => by
      have : k.powered = false := (show ∀ k ∈ State.reset.banks, k.powered = false by decide +kernel) k (List.mem_of_getElem? h)
      simp [this] at hp
    creds := fun b k h => by
      have : k.credRwValid = false ∧ k.credRoValid = false :=
        (show ∀ k ∈ State.reset.banks, k.credRwValid = false ∧ k.credRoValid = false by decide +kernel) k (List.mem_of_getElem? h)
      simp [this]
    power := rfl
    events := fun _ h => nomatch h }
  right := rfl

theorem witness_AnsweredOnce : Busy freshState 0 := busy_busyWith _ _
theorem witness_StatusWellFormed : Busy hintState 0 ∧ 0 < hintState.nc ∧
    exec (.readPageCrc false 2 0) hintState = .next hintDone ∧ responseOf hintDone 0 = some ⟨0x12, 0, [], []⟩ ∧
    (0x12 : Byte) ≠ 0 :=
  ⟨hint_runs.1, hint_runs.2.1, hint_runs.2.2.1, hint_runs.2.2.2.1, by decide⟩
theorem witness_CredHintExactly : (⟨0x12, 0, [], []⟩ : Response).status.getLsbD 4 = true ∧
    Busy hintState 0 ∧ exec (.readPageCrc false 2 0) hintState = .next hintDone ∧
    responseOf hintDone 0 = some ⟨0x12, 0, [], []⟩ ∧ (⟨1, 0, [], []⟩ : Response).status.getLsbD 4 = false ∧
    responseOf abortDone 0 = some ⟨1, 0, [], []⟩ :=
  ⟨rfl, hint_runs.1, hint_runs.2.2.1, hint_runs.2.2.2.1, rfl, abort_runs.2.2.2.1⟩

theorem witness_PreconditionFailures : Busy (busyWith ready []) 0 ∧
    firstFailure (checksOf (busyWith ready []) 0 (.readPage false 0 4)) = some .outOfRange ∧
    firstFailure (checksOf (busyWith ready []) 0 (.readPageExtra true 0 4)) = some .unsupportedOperation :=
  ⟨busy_busyWith _ _, by decide +kernel, by decide +kernel⟩

theorem witness_NoLatePrecondition : Busy abortState 0 ∧ 0 < abortState.nc ∧ Passes abortState 0 (.readPageCrc false 2 0) ∧
    exec (.readPageCrc false 2 0) abortState = .next abortDone ∧ responseOf abortDone 0 = some ⟨1, 0, [], []⟩ ∧
    busPhaseCode (statusCode ⟨1, 0, [], []⟩) = true :=
  ⟨abort_runs.1, abort_runs.2.1, passes_of (by decide +kernel), abort_runs.2.2.1, abort_runs.2.2.2.1, rfl⟩

theorem witness_BusPhaseFailureAborts : Busy abortState 0 ∧ 0 < abortState.nc ∧
    exec (.readPageCrc false 2 0) abortState = .next abortDone ∧ responseOf abortDone 0 = some ⟨1, 0, [], []⟩ ∧
    busPhaseCode (statusCode ⟨1, 0, [], []⟩) = true :=
  ⟨abort_runs.1, abort_runs.2.1, abort_runs.2.2.1, abort_runs.2.2.2.1, rfl⟩

/-- To VERIFIED from reset, to STALE after the abort. -/
theorem witness_SpeedStateTransitions :
    Busy freshState 0 ∧ exec (.readPageCrc false 0 0) freshState = .next freshDone ∧
    (freshState.bank? 0).map Bank.speed = some .stale ∧ (freshDone.bank? 0).map Bank.speed = some .verified ∧
    Busy abortState 0 ∧ exec (.readPageCrc false 2 0) abortState = .next abortDone ∧
    (abortState.bank? 2).map Bank.speed = some .verified ∧ (abortDone.bank? 2).map Bank.speed = some .stale :=
  ⟨fresh_runs.1, fresh_runs.2.2.1, by decide +kernel, by decide +kernel, abort_runs.1, abort_runs.2.2.1, by decide +kernel,
    by decide +kernel⟩

theorem witness_SpeedTrafficFirst :
    Running freshState 0 0 (Bank.reset exampleB0) ∧ freshDone.transcript = freshState.transcript ++ freshEvents ∧
    freshEvents ≠ [] ∧ (Bank.reset exampleB0).speed = .stale ∧
    (∃ k, Running abortState 0 2 k ∧ k.speed = .verified) ∧ abortDone.transcript = abortState.transcript ++ abortEvents ∧
    abortEvents ≠ [] :=
  ⟨⟨fresh_runs.1, by decide +kernel⟩, fresh_runs.2.2.2.2, by decide, rfl, ⟨_, ⟨abort_runs.1, rfl⟩, rfl⟩, abort_runs.2.2.2.2, by decide⟩

theorem witness_FailedAnswerEnds : Busy abortState 0 ∧ 0 < abortState.nc ∧
    exec (.readPageCrc false 2 0) abortState = .next abortDone ∧ responseOf abortDone 0 = some ⟨1, 0, [], []⟩ ∧
    abortDone.transcript = abortState.transcript ++ abortEvents ∧
    abortEvents = abortEvents.take 4 ++ .call (.put 0x18) .fail :: [.call .powerNormal .ok] ∧ Answer.fail.failed = true ∧
    statusCode ⟨1, 0, [], []⟩ = 1 :=
  ⟨abort_runs.1, abort_runs.2.1, abort_runs.2.2.1, abort_runs.2.2.2.1, abort_runs.2.2.2.2, by decide +kernel, rfl, rfl⟩

theorem witness_PullUpReleased : Busy abortState 0 ∧ exec (.readPageCrc false 2 0) abortState = .next abortDone ∧
    abortDone.transcript = abortState.transcript ++ abortEvents ∧ pullUp false (abortEvents.take 4) = true :=
  ⟨abort_runs.1, abort_runs.2.2.1, abort_runs.2.2.2.2, by decide +kernel⟩

theorem witness_HazardOnlyByMismatch : Busy hazardState 0 ∧ exec (.readPageCrc true 0 1) hazardState = .next hazardDone ∧
    hazardState.hazard = false ∧ hazardDone.hazard = true ∧ ({ freshState with hazard := true } : State).hazard = true :=
  ⟨busy_busyWith _ _, rfl, rfl, by decide +kernel, rfl⟩

/-- A request that writes each register. -/
theorem witness_RegisterWriters :
    let s := busyWith (withCred ready) []
    Busy s 0 ∧ (after .acquire s).owner ≠ s.owner ∧
    ((after (.setWriteVerify 2 0) s).bank? 2).map Bank.writeVerify ≠ (s.bank? 2).map Bank.writeVerify ∧
    ((after (.setPowered 2 1) s).bank? 2).map Bank.powered ≠ (s.bank? 2).map Bank.powered ∧
    ((after (.setCredRw 2 (ramp 0 8)) s).bank? 2).map Bank.credRw ≠ (s.bank? 2).map Bank.credRw ∧
    ((after (.setCredRo 2 (ramp 0 8)) s).bank? 2).map Bank.credRoValid ≠ (s.bank? 2).map Bank.credRoValid ∧
    ((after (.clearCreds 2) s).bank? 2).map Bank.credRwValid ≠ (s.bank? 2).map Bank.credRwValid :=
  ⟨busy_busyWith _ _, by decide +kernel, by decide +kernel, by decide +kernel, by decide +kernel, by decide +kernel,
    by decide +kernel⟩

theorem witness_BusRequestFrame : Busy freshState 0 ∧ touchesBus (.readPageCrc false 0 0) = true ∧
    (Instr.readPageCrc false 0 0).bank? = some 0 ∧ exec (.readPageCrc false 0 0) freshState = .next freshDone :=
  ⟨fresh_runs.1, rfl, rfl, fresh_runs.2.2.1⟩

theorem witness_QuietRequestFrame :
    let s := busyWith (owned ready (some ⟨0, 0, .page, 32⟩)) []
    Busy s 0 ∧ touchesBus .release = false ∧ exec .release s = .next (after .release s) ∧
    (after .release s).contPtr ≠ s.contPtr :=
  ⟨busy_busyWith _ _, rfl, rfl, by decide +kernel⟩

/-! The requests that make no transport call, on the banks of `ready`. -/

theorem witness_QueriesAnswer : Running (busyWith ready []) 0 5 (ok exampleB5) := running_ready [] (by decide +kernel)
theorem witness_SetWriteVerifyWrites : Running (busyWith ready []) 0 3 (ok exampleB3) ∧
    (1 : Half).extractLsb' 1 15 = 0#15 ∧ (2 : Half).extractLsb' 1 15 ≠ 0#15 :=
  ⟨running_ready [] (by decide +kernel), by decide, by decide⟩
theorem witness_SetPoweredWrites : Running (busyWith ready []) 0 2 (ok exampleB2) ∧ (ok exampleB2).cfg.strategy = .password ∧
    (1 : Half).extractLsb' 1 15 = 0#15 ∧ (2 : Half).extractLsb' 1 15 ≠ 0#15 ∧
    Running (busyWith ready []) 0 0 (ok exampleB0) ∧ (ok exampleB0).cfg.strategy ≠ .password :=
  ⟨running_ready [] (by decide +kernel), rfl, by decide, by decide, running_ready [] (by decide +kernel), by decide⟩
theorem witness_SetCredWrites : Running (busyWith ready []) 0 2 (ok exampleB2) ∧ (ok exampleB2).cfg.strategy = .password ∧
    (ramp 0 8).length = (ok exampleB2).cfg.pwLen ∧ (ramp 0 9).length ≠ (ok exampleB2).cfg.pwLen :=
  ⟨running_ready [] (by decide +kernel), rfl, by decide, by decide⟩
theorem witness_ClearCredsForgets : Running (busyWith ready []) 0 2 (ok exampleB2) ∧ (ok exampleB2).cfg.strategy = .password ∧
    Running (busyWith ready []) 0 0 (ok exampleB0) ∧ (ok exampleB0).cfg.strategy ≠ .password :=
  ⟨running_ready [] (by decide +kernel), rfl, running_ready [] (by decide +kernel), by decide⟩
theorem witness_AcquireTakesScope : Busy (busyWith ready []) 0 ∧ (busyWith ready []).owner = none ∧
    Busy (busyWith (owned ready none) []) 0 ∧ (busyWith (owned ready none) []).owner = some 0 :=
  ⟨busy_busyWith _ _, rfl, busy_busyWith _ _, rfl⟩
theorem witness_ReleaseEndsScope : Busy (busyWith ready []) 0 ∧ (busyWith ready []).owner ≠ some 0 ∧
    Busy (busyWith (owned ready none) []) 0 ∧ (busyWith (owned ready none) []).owner = some 0 :=
  ⟨busy_busyWith _ _, by decide, busy_busyWith _ _, rfl⟩
theorem witness_ZeroLengthSucceeds : Busy (busyWith ready []) 0 ∧ Passes (busyWith ready []) 0 (.read false 0 128 0) ∧
    Passes (busyWith ready []) 0 (.write 0 128 []) :=
  ⟨busy_busyWith _ _, passes_of (by decide +kernel), passes_of (by decide +kernel)⟩

/-! The bus-touching requests. Each witness gives the state, the bank and the answers of the transport; `evs` of the statement is
the list given to `busyWith`. -/

theorem witness_NativeReadCompletes :
    let k := ok exampleB1
    let evs := speedEvents k ++ readEvents k false k.cfg.cmdRead (deviceAddress k.cfg 15) [0xF0, 0x0F, 0] [0xAF]
    let s := busyWith ready evs
    Running s 0 1 k ∧ Passes s 0 (.read false 1 15 1) ∧ k.cfg.strategy ≠ .scratchpad ∧ k.cfg.hasNativeRead = true ∧
    [(0xAF : Byte)].length = (1 : Half).toNat ∧ EchoFits k false k.cfg.cmdRead (deviceAddress k.cfg 15) [0xF0, 0x0F, 0] ∧ Answering s evs :=
  ⟨running_ready _ (by decide +kernel), passes_of (by decide +kernel), by decide, rfl, rfl, fun _ => by decide +kernel,
    answering_busyWith _ _⟩

theorem witness_PlainPageReadCompletes :
    let k := ok exampleB1
    let evs := speedEvents k ++ readEvents k false k.cfg.cmdRead (deviceAddress k.cfg 0) [0xF0, 0, 0] (ramp 0xA0 16)
    let s := busyWith ready evs
    Running s 0 1 k ∧ Passes s 0 (.readPage false 1 0) ∧ k.cfg.strategy = .plain ∧ (ramp 0xA0 16).length = k.cfg.pageLength ∧
    EchoFits k false k.cfg.cmdRead (deviceAddress k.cfg 0) [0xF0, 0, 0] ∧ Answering s evs :=
  ⟨running_ready _ (by decide +kernel), passes_of (by decide +kernel), rfl, by decide, fun _ => by decide +kernel,
    answering_busyWith _ _⟩

theorem witness_RangeReadCompletes :
    let k := ok exampleB0
    let evs := speedEvents k ++ rangeEvents k false [0xA5, 0, 0] [(0, page0), (1, page1c)]
    let s := busyWith ready evs
    Running s 0 0 k ∧ Passes s 0 (.read false 0 30 4) ∧ k.cfg.strategy ≠ .scratchpad ∧ k.cfg.hasNativeRead = false ∧
    (4 : Half) ≠ 0 ∧ [(0, page0), (1, page1c)].map Prod.fst = coveringPages k.cfg 30 4 ∧
    RangeValid s.crc k false [(0, page0), (1, page1c)] ∧ EchoFits k false k.cfg.cmdReadCrc (deviceAddress k.cfg 0) [0xA5, 0, 0] ∧
    Answering s evs :=
  ⟨running_ready _ (by decide +kernel), passes_of (by decide +kernel), by decide, rfl, by decide, by decide +kernel,
    ⟨⟨by decide +kernel, by decide +kernel⟩, ⟨by decide +kernel, by decide +kernel⟩, trivial⟩, fun _ => by decide +kernel,
    answering_busyWith _ _⟩

/-- The scratchpad read of b3's page 1 (3.9). -/
def spRun : SpPageRun := ⟨1, [0xB8, 0x20, 0], 0xAA, [0x20, 0, 0x1F, 0xA3, 0xA4] ++ filler 30 ++ [0x72, 0xEF]⟩
/-- The same with a data byte changed. -/
def spRunBad : SpPageRun := ⟨1, [0xB8, 0x20, 0], 0xAA, [0x20, 0, 0x1F, 0xA3, 0xA5] ++ filler 30 ++ [0x72, 0xEF]⟩

theorem witness_ScratchpadReadCompletes :
    let k := ok exampleB3
    let evs := speedEvents k ++ ([spRun].map (spPageEvents k)).flatten
    let s := busyWith ready evs
    Running s 0 3 k ∧ Passes s 0 (.read false 3 62 2) ∧ k.cfg.strategy = .scratchpad ∧ (2 : Half) ≠ 0 ∧
    [spRun].map SpPageRun.p = coveringPages k.cfg 62 2 ∧ SpPageGood s.crc k spRun ∧ Answering s evs :=
  ⟨running_ready _ (by decide +kernel), passes_of (by decide +kernel), rfl, by decide, by decide +kernel,
    ⟨fun _ => rfl, by decide +kernel, by decide +kernel⟩, answering_busyWith _ _⟩

/-- b0 for the forms without extra info, b4, which is read only, for the EXTRA forms, and b2 in powered mode (3.8). -/
theorem witness_PageReadsComplete :
    (let k := ok exampleB0
     let evs := speedEvents k ++ pageEvents k 0 false [0xA5, 0, 0] page0
     let s := busyWith ready evs
     Running s 0 0 k ∧ PageValid s.crc k 0 false page0 ∧ EchoFits k false k.cfg.cmdReadCrc (deviceAddress k.cfg 0) [0xA5, 0, 0] ∧
     Answering s evs ∧ Passes s 0 (.readPage false 0 0) ∧ crcStrategy k.cfg = true ∧ Passes s 0 (.readPageCrc false 0 0)) ∧
    (let k := ok exampleB4
     let evs := speedEvents k ++ pageEvents k 1 false [0xC3, 0x20, 0] page4
     let s := busyWith ready evs
     Running s 0 4 k ∧ PageValid s.crc k 1 false page4 ∧ EchoFits k false k.cfg.cmdReadCrc (deviceAddress k.cfg 32) [0xC3, 0x20, 0] ∧
     Answering s evs ∧ Passes s 0 (.readPageExtra false 4 1) ∧ Passes s 0 (.readPageCrcExtra false 4 1)) ∧
    (let k := { ok exampleB2 with credRw := ramp 0x11 8, credRwValid := true, powered := true }
     let ph : List Byte := ramp 0x60 32 ++ [0xAE, 0]
     let evs := speedEvents k ++ pageEvents k 1 false ([0x69, 0x20, 0] ++ ramp 0x11 7) ph
     let s := busyWith (powered (withCred ready)) evs
     Running s 0 2 k ∧ PageValid s.crc k 1 false ph ∧
     EchoFits k false k.cfg.cmdReadCrc (deviceAddress k.cfg 32) ([0x69, 0x20, 0] ++ ramp 0x11 7) ∧ Answering s evs ∧
     Passes s 0 (.readPageCrc false 2 1)) :=
  ⟨⟨running_ready _ (by decide +kernel), ⟨by decide +kernel, by decide +kernel⟩, fun _ => by decide +kernel,
    answering_busyWith _ _, passes_of (by decide +kernel), rfl, passes_of (by decide +kernel)⟩,
   ⟨running_ready _ (by decide +kernel), ⟨by decide +kernel, by decide +kernel⟩, fun _ => by decide +kernel,
    answering_busyWith _ _, passes_of (by decide +kernel), passes_of (by decide +kernel)⟩,
   ⟨⟨busy_busyWith _ _, by decide +kernel⟩, ⟨by decide +kernel, by decide +kernel⟩, fun _ => by decide +kernel,
    answering_busyWith _ _, passes_of (by decide +kernel)⟩⟩

theorem witness_ScratchpadPageReadCompletes :
    let k := ok exampleB3
    let evs := speedEvents k ++ spPageEvents k spRun
    let s := busyWith ready evs
    Running s 0 3 k ∧ Passes s 0 (.readPage false 3 1) ∧ k.cfg.strategy = .scratchpad ∧ spRun.p = (1 : Half).toNat ∧
    SpPageGood s.crc k spRun ∧ Answering s evs :=
  ⟨running_ready _ (by decide +kernel), passes_of (by decide +kernel), rfl, rfl,
    ⟨fun _ => rfl, by decide +kernel, by decide +kernel⟩, answering_busyWith _ _⟩

/-- The largest packet of b0. -/
theorem witness_PacketReadCompletes :
    let k := ok exampleB0
    let evs := speedEvents k ++ pageEvents k 2 false [0xA5, 0x40, 0] page29
    let s := busyWith ready evs
    Running s 0 0 k ∧ Passes s 0 (.readPagePacket false 0 2) ∧ PageValid s.crc k 2 false page29 ∧ page29.head? = some 29 ∧
    (29 : Byte).toNat ≤ k.cfg.pageLength - (3 + k.cfg.extraLen) ∧ 3 + k.cfg.extraLen ≤ k.cfg.pageLength ∧
    crcValid s.crc (2 + k.cfg.packetSeedOffset) (page29.take ((29 : Byte).toNat + 3)) = true ∧
    EchoFits k false k.cfg.cmdReadCrc (deviceAddress k.cfg 64) [0xA5, 0x40, 0] ∧ Answering s evs :=
  ⟨running_ready _ (by decide +kernel), passes_of (by decide +kernel), ⟨by decide +kernel, by decide +kernel⟩, rfl, by decide,
    by decide, by decide +kernel, fun _ => by decide +kernel, answering_busyWith _ _⟩

/-- On PLAIN b1 the last byte; on PASSWORD b2 (3.8) with both credentials valid and with the read-only one alone. -/
theorem witness_PlainWriteCompletes :
    (let k := ok exampleB1
     let evs := speedEvents k ++ [selectEvent k, exchangeEvent [0x0F, 0x0F, 0, 1] (filler 4)]
     let s := busyWith ready evs
     Running s 0 1 k ∧ Passes s 0 (.write 1 15 [1]) ∧ k.cfg.strategy ≠ .scratchpad ∧ k.cfg.echoWrite = false ∧
     (0x000F : Half) = BitVec.ofNat 16 (k.cfg.startPhys + 15) ∧ k.cfg.strategy ≠ .password ∧ Answering s evs) ∧
    (let k := { ok exampleB2 with
       credRw := ramp 0x11 8, credRwValid := true, credRo := ramp 0x21 8, credRoValid := true }
     let evs := speedEvents k ++ [selectEvent k, exchangeEvent ([0x99, 8, 0] ++ ramp 0x11 8 ++ [0xEE]) (filler 12)]
     let s := busyWith (withRo (withCred ready)) evs
     Running s 0 2 k ∧ Passes s 0 (.write 2 8 [0xEE]) ∧ k.cfg.strategy = .password ∧ k.cfg.echoWrite = false ∧
     k.credRwValid = true ∧ Answering s evs) ∧
    (let k := { ok exampleB2 with credRo := ramp 0x21 8, credRoValid := true }
     let evs := speedEvents k ++ [selectEvent k, exchangeEvent ([0x99, 8, 0] ++ ramp 0x21 8 ++ [0xEE]) (filler 12)]
     let s := busyWith (withRo ready) evs
     Running s 0 2 k ∧ Passes s 0 (.write 2 8 [0xEE]) ∧ k.cfg.strategy = .password ∧ k.credRwValid = false ∧ Answering s evs) :=
  ⟨⟨running_ready _ (by decide +kernel), passes_of (by decide +kernel), by decide, rfl, by decide, by decide,
    answering_busyWith _ _⟩,
   ⟨⟨busy_busyWith _ _, by decide +kernel⟩, passes_of (by decide +kernel), rfl, rfl, rfl, answering_busyWith _ _⟩,
   ⟨⟨busy_busyWith _ _, by decide +kernel⟩, passes_of (by decide +kernel), rfl, rfl, answering_busyWith _ _⟩⟩

/-- 3.8: the write carries the credential after the address, the read-write one while it is valid. -/
theorem test_write_credential :
    let evs := [sel 2, exchangeEvent [0x99, 8, 0, 0x11, 0x12, 0x13, 0x14, 0x15, 0x16, 0x17, 0x18, 0xEE] (filler 12)]
    seen (withRo (withCred ready)) (.write 2 8 [0xEE]) evs = some (evs, some ⟨0, 0, [], []⟩, none) := by decide +kernel

/-- 3.8: only the read-only credential is loaded, and the device answers filler. -/
theorem test_read_credential_ro :
    let evs := [sel 2, exchangeEvent ([0x69, 0, 0, 0x21, 0x22, 0x23, 0x24, 0x25, 0x26, 0x27, 0x28] ++ filler 34)
      ([0x69, 0, 0, 0x21, 0x22, 0x23, 0x24, 0x25, 0x26, 0x27, 0x28] ++ filler 34)]
    seen (withRo ready) (.readPageCrc false 2 0) evs = some (evs, some ⟨0x12, 0, [], []⟩, none) := by decide +kernel

/-- Answers of the echo write of 3.5.2 with good check bytes, and the first one with a bad check byte. -/
def echoFirst : List Byte := [0x0F, 0, 0, 0x12, 0x7C, 0xE6]
def echoSecond : List Byte := [0x34, 0x3F, 0xE8]
def echoBad : List Byte := [0x0F, 0, 0, 0x12, 0x7D, 0xE6]

theorem witness_EchoWriteCompletes :
    let k := ok exampleB5
    let evs := speedEvents k ++ echoWriteEvents k (deviceAddress k.cfg 0) 0x12 echoFirst [(0x34, echoSecond)]
    let s := busyWith ready evs
    Running s 0 5 k ∧ Passes s 0 (.write 5 0 [0x12, 0x34]) ∧ k.cfg.strategy ≠ .scratchpad ∧ k.cfg.echoWrite = true ∧
    EchoFirstValid s.crc k (deviceAddress k.cfg 0) 0x12 echoFirst ∧ EchoRestValid s.crc k (deviceAddress k.cfg 0 + 1) [(0x34, echoSecond)] ∧
    Answering s evs :=
  ⟨running_ready _ (by decide +kernel), passes_of (by decide +kernel), by decide, rfl, ⟨by decide +kernel, by decide +kernel⟩,
    ⟨rfl, by decide +kernel, trivial⟩, answering_busyWith _ _⟩

/-- The segment of test_write_scratchpad, and read-backs of other segments: a bad checksum, a wrong byte, an unconfirmed copy. -/
def segRun : SegmentRun :=
  ⟨0, [1, 2], [0x0F, 0, 0, 1, 2], 0xAA, [0, 0, 1, 1, 2] ++ filler 30 ++ [0x20, 0x6F], [0x55, 0, 0], 0xAA⟩

theorem witness_ScratchpadWriteCompletes :
    let k := ok exampleB3
    let evs := speedEvents k ++ ([segRun].map (segmentEvents k)).flatten
    let s := busyWith ready evs
    Running s 0 3 k ∧ Passes s 0 (.write 3 0 [1, 2]) ∧ k.cfg.strategy = .scratchpad ∧
    [segRun].map (fun g => (g.q, g.ds)) = segments k.cfg 0 [1, 2] ∧ SegmentGood s.crc k segRun ∧ Answering s evs :=
  ⟨running_ready _ (by decide +kernel), passes_of (by decide +kernel), rfl, by decide +kernel,
    ⟨rfl, ⟨by decide +kernel, by decide +kernel⟩, fun _ => by decide +kernel, rfl, by decide⟩, answering_busyWith _ _⟩

/-- By one frame on b0, with echo on b5. -/
theorem witness_PacketWriteCompletes :
    (let k := ok exampleB0
     let frame : List Byte := sentPrefix k k.cfg.cmdWrite 0 ++ [2, 0x68, 0x69, 0xB1, 0xD1]
     let evs := speedEvents k ++ [selectEvent k, exchangeEvent frame (filler 8)]
     let s := busyWith ready evs
     Running s 0 0 k ∧ Passes s 0 (.writePagePacket 0 0 [0x68, 0x69]) ∧ k.cfg.echoWrite = false ∧
     (filler 8).length = frame.length ∧ Answering s evs ∧ 0 = deviceAddress k.cfg 0 ∧
     [2, 0x68, 0x69, 0xB1, 0xD1] = packetBytes s.crc k.cfg 0 2 [0x68, 0x69]) ∧
    (let k := ok exampleB5
     let rest : List (Byte × List Byte) :=
       [(0x68, [0x68, 0x3F, 0xD1]), (0x69, [0x69, 0xBE, 0x10]), (0xB1, [0xB1, 0x7F, 0x8A]), (0xD1, [0xD1, 0x3E, 0x60])]
     let evs := speedEvents k ++ echoWriteEvents k (deviceAddress k.cfg 0) 2 [0x0F, 0, 0, 2, 0x7D, 0x2A] rest
     let s := busyWith ready evs
     Running s 0 5 k ∧ Passes s 0 (.writePagePacket 5 0 [0x68, 0x69]) ∧ k.cfg.echoWrite = true ∧
     [2, 0x68, 0x69, 0xB1, 0xD1] = 2 :: rest.map Prod.fst ∧
     EchoFirstValid s.crc k (deviceAddress k.cfg 0) 2 [0x0F, 0, 0, 2, 0x7D, 0x2A] ∧
     EchoRestValid s.crc k (deviceAddress k.cfg 0 + 1) rest ∧ Answering s evs) :=
  ⟨⟨running_ready _ (by decide +kernel), passes_of (by decide +kernel), rfl, by decide +kernel, answering_busyWith _ _,
    by decide +kernel, by decide +kernel⟩,
   ⟨running_ready _ (by decide +kernel), passes_of (by decide +kernel), rfl, rfl, ⟨by decide +kernel, by decide +kernel⟩,
    ⟨rfl, by decide +kernel, rfl, by decide +kernel, rfl, by decide +kernel, rfl, by decide +kernel, trivial⟩,
    answering_busyWith _ _⟩⟩

theorem witness_BadPageFails :
    let k := ok exampleB0
    let ph := page0.set 5 4
    let evs := speedEvents k ++ pageEvents k 0 false [0xA5, 0, 0] ph
    let s := busyWith ready evs
    Running s 0 0 k ∧ Passes s 0 (.readPagePacket false 0 0) ∧ Passes s 0 (.readPage false 0 0) ∧ crcStrategy k.cfg = true ∧
    ph.length = k.cfg.pageLength + k.cfg.extraLen + 2 + verifyOnly k false ∧
    crc16 s.crc (readSeed s.crc k.cfg 0 false) (ph.take (k.cfg.pageLength + k.cfg.extraLen + 2)) ≠ 0xB001#16 ∧
    EchoFits k false k.cfg.cmdReadCrc (deviceAddress k.cfg 0) [0xA5, 0, 0] ∧ Answering s evs :=
  ⟨running_ready _ (by decide +kernel), passes_of (by decide +kernel), passes_of (by decide +kernel), rfl, by decide +kernel,
    by decide +kernel, fun _ => by decide +kernel, answering_busyWith _ _⟩

/-- Pages 0 to 2 are read, page 0 is good and page 1 is bad. -/
theorem witness_BadPageEndsRange :
    let k := ok exampleB0
    let bad := page1c.set 33 0x4D
    let evs := speedEvents k ++ rangeEvents k false [0xA5, 0, 0] [(0, page0), (1, bad)]
    let s := busyWith ready evs
    Running s 0 0 k ∧ Passes s 0 (.read false 0 30 40) ∧ k.cfg.strategy ≠ .scratchpad ∧ k.cfg.hasNativeRead = false ∧
    [(0, page0)].map Prod.fst ++ 1 :: [2] = coveringPages k.cfg 30 40 ∧ RangeValid s.crc k false [(0, page0)] ∧
    bad.length = k.cfg.pageLength + k.cfg.extraLen + 2 + verifyOnly k true ∧
    crcValid s.crc (readSeed s.crc k.cfg 1 true) (bad.take (k.cfg.pageLength + k.cfg.extraLen + 2)) = false ∧
    EchoFits k false k.cfg.cmdReadCrc (deviceAddress k.cfg 0) [0xA5, 0, 0] ∧ Answering s evs :=
  ⟨running_ready _ (by decide +kernel), passes_of (by decide +kernel), by decide, rfl, by decide +kernel,
    ⟨⟨by decide +kernel, by decide +kernel⟩, trivial⟩, by decide +kernel, by decide +kernel, fun _ => by decide +kernel,
    answering_busyWith _ _⟩

/-- An erased page, whose length byte 255 is too large, and page 0's packet at page 1. -/
theorem witness_BadPacketFails :
    let k := ok exampleB0
    let evs (p : Nat) (e ph : List Byte) := speedEvents k ++ pageEvents k p false e ph
    let s := busyWith ready (evs 3 [0xA5, 0x60, 0] pageErased)
    let t := busyWith ready (evs 1 [0xA5, 0x20, 0] pageMoved)
    (Running s 0 0 k ∧ Passes s 0 (.readPagePacket false 0 3) ∧ PageValid s.crc k 3 false pageErased ∧
      pageErased.head? = some 0xFF ∧ k.cfg.pageLength - (3 + k.cfg.extraLen) < (0xFF : Byte).toNat ∧
      EchoFits k false k.cfg.cmdReadCrc (deviceAddress k.cfg 96) [0xA5, 0x60, 0] ∧ Answering s (evs 3 [0xA5, 0x60, 0] pageErased)) ∧
    (Running t 0 0 k ∧ Passes t 0 (.readPagePacket false 0 1) ∧ PageValid t.crc k 1 false pageMoved ∧
      pageMoved.head? = some 2 ∧ (2 : Byte).toNat ≤ k.cfg.pageLength - (3 + k.cfg.extraLen) ∧
      crcValid t.crc (1 + k.cfg.packetSeedOffset) (pageMoved.take ((2 : Byte).toNat + 3)) = false ∧
      EchoFits k false k.cfg.cmdReadCrc (deviceAddress k.cfg 32) [0xA5, 0x20, 0] ∧ Answering t (evs 1 [0xA5, 0x20, 0] pageMoved)) :=
  ⟨⟨running_ready _ (by decide +kernel), passes_of (by decide +kernel), ⟨by decide +kernel, by decide +kernel⟩, rfl,
    by decide +kernel, fun _ => by decide +kernel, answering_busyWith _ _⟩,
   ⟨running_ready _ (by decide +kernel), passes_of (by decide +kernel), ⟨by decide +kernel, by decide +kernel⟩, rfl,
    by decide +kernel, by decide +kernel, fun _ => by decide +kernel, answering_busyWith _ _⟩⟩

/-- Each clause for WRITE: a bad first checksum, a bad first echo, a bad second checksum, a bad second echo; and for WRITE_PAGE_PACKET,
whose second byte's check bytes are those of witness_PacketWriteCompletes. -/
theorem witness_EchoWriteStops :
    let k := ok exampleB5
    let pre := sentPrefix k k.cfg.cmdWrite 0
    let e1 := speedEvents k ++ [selectEvent k, exchangeEvent (pre ++ [0x12, 0xFF, 0xFF]) echoBad]
    let e2 := speedEvents k ++ selectEvent k :: echoByteEvents k (pre ++ [0x12, 0xFF, 0xFF]) echoFirst 0x13
    let first := speedEvents k ++ echoWriteEvents k 0 0x12 echoFirst []
    let e3 := first ++ [exchangeEvent [0x34, 0xFF, 0xFF] (filler 3)]
    let e4 := first ++ echoByteEvents k [0x34, 0xFF, 0xFF] echoSecond 0x35
    let p4 := speedEvents k ++ echoWriteEvents k 0 2 [0x0F, 0, 0, 2, 0x7D, 0x2A] [] ++
      echoByteEvents k [0x68, 0xFF, 0xFF] [0x68, 0x3F, 0xD1] 0x69
    (∀ e ∈ [e1, e2, e3, e4, p4], Running (busyWith ready e) 0 5 k ∧ Answering (busyWith ready e) e ∧
      Passes (busyWith ready e) 0 (.write 5 0 (0x12 :: [0x34])) ∧
      Passes (busyWith ready e) 0 (.writePagePacket 5 0 [0x68, 0x69])) ∧
    k.cfg.strategy ≠ .scratchpad ∧ k.cfg.echoWrite = true ∧ 0 = deviceAddress k.cfg 0 ∧ echoBad.length = pre.length + 3 ∧
    echoFirst.length = pre.length + 3 ∧
    ¬ EchoFirstValid .reference k 0 0x12 echoBad ∧ EchoFirstValid .reference k 0 0x12 echoFirst ∧
    EchoRestValid .reference k (0 + 1) [] ∧
    crcValid .reference (echoSeed k.cfg (0 + 1 + 0)) (0x34 :: slice (filler 3) 1 2) = false ∧
    crcValid .reference (echoSeed k.cfg (0 + 1 + 0)) (0x34 :: slice echoSecond 1 2) = true ∧
    (0x13 : Byte) ≠ 0x12 ∧ (0x35 : Byte) ≠ 0x34 ∧
    packetBytes .reference k.cfg 0 2 [0x68, 0x69] = 2 :: [] ++ 0x68 :: [0x69, 0xB1, 0xD1] ∧
    EchoFirstValid .reference k 0 2 [0x0F, 0, 0, 2, 0x7D, 0x2A] ∧
    crcValid .reference (echoSeed k.cfg (0 + 1 + 0)) (0x68 :: slice [0x68, 0x3F, 0xD1] 1 2) = true :=
  ⟨fun e _ => ⟨running_ready _ (show ready.bank? 5 = _ by decide +kernel), answering_busyWith _ _,
      passes_of (show firstFailure (checksOf ready 0 (.write 5 0 [0x12, 0x34])) = none by decide +kernel),
      passes_of (show firstFailure (checksOf ready 0 (.writePagePacket 5 0 [0x68, 0x69])) = none by decide +kernel)⟩,
    by decide, rfl, by decide, by decide +kernel, by decide +kernel, fun h => absurd h.2 (by decide +kernel),
    ⟨by decide +kernel, by decide +kernel⟩, trivial, by decide +kernel, by decide +kernel, by decide, by decide,
    by decide +kernel, ⟨by decide +kernel, by decide +kernel⟩, by decide +kernel⟩

/-- A packet write with echo whose second echo is wrong: the answers of witness_PacketWriteCompletes but for it. -/
theorem test_writePagePacket_echo :
    let evs := [sel 5, exchangeEvent [0x0F, 0, 0, 2, 0xFF, 0xFF] [0x0F, 0, 0, 2, 0x7D, 0x2A], .call .programPulse .ok, getEvent 2,
      exchangeEvent [0x68, 0xFF, 0xFF] [0x68, 0x3F, 0xD1], .call .programPulse .ok, getEvent 0x69]
    seen ready (.writePagePacket 5 0 [0x68, 0x69]) evs = some (evs, some ⟨3, 0, [], []⟩, none) := by decide +kernel

/-- Read-backs of 3.5.3: a bad checksum at offset 4, a wrong byte at offset 4, an unconfirmed copy at offset 8. -/
def segBadCrc : SegmentRun :=
  ⟨4, [0x77], filler 4, 0xAA, [4, 0, 4, 0xFF, 0xFE, 0xFF, 0xFF, 0x77] ++ filler 27 ++ [0, 0x56], filler 3, 0⟩
def segBadByte : SegmentRun :=
  ⟨4, [0x77], filler 4, 0xAA, [4, 0, 4] ++ filler 4 ++ [0x76] ++ filler 27 ++ [3, 0xD6], filler 3, 0⟩
def segUnconfirmed : SegmentRun :=
  ⟨8, [0x99], filler 4, 0xAA, [8, 0, 8] ++ filler 8 ++ [0x99] ++ filler 23 ++ [4, 0x57], filler 3, 0xFF⟩

theorem witness_ScratchpadWriteStops :
    let k := ok exampleB3
    (∀ evs, Running (busyWith ready evs) 0 3 k ∧ Answering (busyWith ready evs) evs ∧
      Passes (busyWith ready evs) 0 (.write 3 4 [0x77]) ∧ Passes (busyWith ready evs) 0 (.write 3 8 [0x99])) ∧
    k.cfg.strategy = .scratchpad ∧ k.writeVerify = true ∧
    [(4, [0x77])] = segments k.cfg 4 [0x77] ∧ [(8, [0x99])] = segments k.cfg 8 [0x99] ∧
    (∀ g ∈ [segBadCrc, segBadByte, segUnconfirmed], g.written.length = 3 + g.ds.length ∧
      g.rx.length = k.cfg.spMetaLen + k.cfg.pageLength + 2 ∧ g.copied.length = 3) ∧
    crcValid .reference 0 (k.cfg.cmdReadSp :: segBadCrc.rx) = false ∧
    crcValid .reference 0 (k.cfg.cmdReadSp :: segBadByte.rx) = true ∧
    scratchpadMatches k.cfg 4 [0x77] (scratchpadData k segBadByte.rx) = false ∧
    crcValid .reference 0 (k.cfg.cmdReadSp :: segUnconfirmed.rx) = true ∧
    scratchpadMatches k.cfg 8 [0x99] (scratchpadData k segUnconfirmed.rx) = true ∧ segUnconfirmed.confirm = 0xFF :=
  ⟨fun _ => ⟨running_ready _ (show ready.bank? 3 = _ by decide +kernel), answering_busyWith _ _,
      passes_of (show firstFailure (checksOf ready 0 (.write 3 4 [0x77])) = none by decide +kernel),
      passes_of (show firstFailure (checksOf ready 0 (.write 3 8 [0x99])) = none by decide +kernel)⟩,
    rfl, rfl, by decide +kernel, by decide +kernel, by decide +kernel, by decide +kernel, by decide +kernel, by decide +kernel,
    by decide +kernel, by decide +kernel, rfl⟩

theorem witness_BadScratchpadReadFails :
    let k := ok exampleB3
    let evs := speedEvents k ++ spPageEvents k spRunBad
    let s := busyWith ready evs
    Running s 0 3 k ∧ k.cfg.strategy = .scratchpad ∧ (k.cfg.hasRecall = true → spRunBad.recalled.length = 3) ∧
    spRunBad.rx.length = k.cfg.spMetaLen + k.cfg.pageLength + 2 ∧
    crcValid s.crc 0 (k.cfg.cmdReadSp :: spRunBad.rx) = false ∧ Answering s evs ∧
    Passes s 0 (.read false 3 62 2) ∧ spRunBad.p :: [] = coveringPages k.cfg 62 2 ∧
    Passes s 0 (.readPage false 3 1) ∧ spRunBad.p = (1 : Half).toNat :=
  ⟨running_ready _ (by decide +kernel), rfl, fun _ => rfl, by decide +kernel, by decide +kernel, answering_busyWith _ _,
    passes_of (by decide +kernel), by decide +kernel, passes_of (by decide +kernel), rfl⟩

theorem witness_ByteChangeDetected : (0x68 : Byte) ≠ 0x69 ∧ crcValid .reference 0 ([2] ++ 0x68 :: [0x69, 0xB1, 0xD1]) = true := by
  decide +kernel
theorem witness_PacketRoundTrip : (Checksum.reference = .reference ∨ ResidueLawOf .reference) ∧
    (ramp 0xC0 29).length ≤ maxPacket exampleB0 ∧ (ramp 0xC0 29).length < 256 :=
  ⟨.inl rfl, by decide +kernel⟩
theorem witness_PacketBinding : (Checksum.reference = .reference ∨ ResidueLawOf .reference ∧ SeedBindingLawOf .reference) ∧
    0 < 65536 ∧ 65535 < 65536 ∧ 0 ≠ 65535 ∧ ([] : List Byte).length ≤ maxPacket exampleB0 :=
  ⟨.inl rfl, by decide +kernel⟩

/-- The flip of 3.4.3, bit 0 of byte 5 of b0's page 0, and the last bit of the last check byte. -/
theorem witness_FlippedPageFails :
    let k := ok exampleB0
    let evs (j n : Nat) := speedEvents k ++ pageEvents k 0 false [0xA5, 0, 0] (flipBit page0 j n)
    (∀ e, (busyWith ready e).crc = .reference ∧ Running (busyWith ready e) 0 0 k ∧ Answering (busyWith ready e) e ∧
      Passes (busyWith ready e) 0 (.readPage false 0 0) ∧ Passes (busyWith ready e) 0 (.readPagePacket false 0 0)) ∧
    crcStrategy k.cfg = true ∧ PageValid .reference k 0 false page0 ∧ 5 < k.cfg.pageLength + k.cfg.extraLen + 2 ∧
    33 < k.cfg.pageLength + k.cfg.extraLen + 2 ∧ 7 < 8 ∧
    EchoFits k false k.cfg.cmdReadCrc (deviceAddress k.cfg 0) [0xA5, 0, 0] ∧ evs 5 0 ≠ evs 33 7 ∧ flipBit page0 5 0 = page0.set 5 4 :=
  ⟨fun _ => ⟨rfl, running_ready _ (by decide +kernel), answering_busyWith _ _,
      passes_of (show firstFailure (checksOf ready 0 (.readPage false 0 0)) = none by decide +kernel),
      passes_of (show firstFailure (checksOf ready 0 (.readPagePacket false 0 0)) = none by decide +kernel)⟩,
    rfl, ⟨by decide +kernel, by decide +kernel⟩, by decide, by decide, by decide, fun _ => by decide +kernel, by decide +kernel,
    by decide +kernel⟩

theorem witness_SegmentsPartition : 1 ≤ exampleB3.pageLength ∧
    segments exampleB3 30 [1, 2, 3] = [] ++ (30, [1, 2]) :: (32, [3]) :: [] := by decide +kernel

end Sys2Proof.Tests
end

/-! Admission (00_scope.md R6, R7): what an admitted state says of each of its banks, and that any other state is refused. -/

namespace Sys2Proof.Machine

theorem State.admitted_iff {s : State} : s.admitted = true ↔
    1 ≤ s.nb ∧ s.nb ≤ 256 ∧ 1 ≤ s.nc ∧ ∀ k ∈ s.banks, bankAdmitted k.cfg = true := by
  simp [State.admitted, configAdmitted, and_assoc]

theorem step_of_not_admitted {s : State} (h : ¬ s.admitted = true) : step s = .refused .configNotAdmitted := if_neg h

theorem step_of_not_bankAdmitted {s : State} {k : Bank} (hk : k ∈ s.banks) (h : ¬ bankAdmitted k.cfg = true) :
    step s = .refused .configNotAdmitted := by
  refine step_of_not_admitted fun hs => ?_
  obtain ⟨-, -, -, hall⟩ := State.admitted_iff.mp hs
  exact h (hall k hk)

/-- W10 names the code 4 only; `checkW10` turns away every reserved value, of which 4 is one (10_state.md R33). -/
theorem strategyCode_ne_four {k : BankConfig} (h : checkW10 k = true) : strategyCode k.strategy ≠ 4 := by
  cases hk : k.strategy with
  | reserved v => exact absurd hk (checkW10_iff.mp h v)
  | plain | crc | password | scratchpad => simp [strategyCode]

/-- Settles O11: an admitted bank passes W1 to W10, so whichever clause fails, the bank is not admitted. -/
theorem unadmittedRefused : Obligations.UnadmittedRefused := by
  intro s k hk hbad
  refine step_of_not_bankAdmitted hk fun hadm => ?_
  obtain ⟨-, w1, w2, w3, w4, w5, w6, w7, w8, w9, w10⟩ := bankAdmitted_iff.mp hadm
  rw [checkW2_iff, crcStrategy_iff] at w2
  rw [checkW4_iff, crcStrategy_iff] at w4
  rw [checkW5_iff, crcStrategy_iff] at w5
  obtain ⟨w4Extra, w4None⟩ := w4
  rcases hbad with h1 | h2 | h3 | h4Extra | h4None | h5 | h6 | h7 | h8 | h9 | h10
  · exact h1 (checkW1_iff.mp w1)
  · exact h2 w2
  · exact h3 (checkW3_iff.mp w3)
  · exact h4Extra w4Extra
  · exact h4None w4None
  · exact h5 w5
  · exact h6 (checkW6_iff.mp w6)
  · exact h7 (checkW7_iff.mp w7)
  · exact h8 (checkW8_iff.mp w8)
  · exact h9 (checkW9_iff.mp w9)
  · exact strategyCode_ne_four w10 h10

end Sys2Proof.Machine

/-! Encoding (30_encoding.md R104, R106): the decoder's checks, one by one, are the mask, the data length and the bank index. -/

namespace Sys2Proof

/-- The check on D (R106), as one implication for each kind of opcode. -/
theorem dataLength_iff (op : Opcode) (r : Request) :
    (if op.takesData then r.d.length = r.l.toNat else r.d = []) ↔
      (op.takesData = true → r.d.length = r.l.toNat) ∧ (op.takesData = false → r.d = []) := by
  cases op.takesData <;> simp

/-- Settles O3: by `decode_ok_iff`, with the conditions on the fields of the word joined into the mask of R104 by `mask_matches`. -/
theorem decodeExactly : Obligations.DecodeExactly := by
  intro nb r i
  rw [decode_ok_iff]
  refine exists_congr fun op => ?_
  have hmask := mask_matches op r.w
  rw [maskOf] at hmask
  rw [hmask, dataLength_iff]
  simp only [and_assoc]

end Sys2Proof

/-! The credential hint (43_password_bank.md R254): the two fields of STATUS, when the hint is 1, and which STATUS a request ends with. -/

namespace Sys2Proof.Machine

/-- The code and the hint share no bit of STATUS (10_state.md R47). -/
theorem statusOf_hintBit (e : Err) (hint : Bool) : (statusOf e hint).getLsbD 4 = hint := by
  cases e <;> cases hint <;> rfl

theorem statusOf_code (e : Err) (hint : Bool) : (statusOf e hint).toNat % 16 = (errCode e).toNat := by
  cases e <;> cases hint <;> rfl

theorem statusOf_noHint (e : Err) : statusOf e false = errCode e := by
  cases e <;> rfl

theorem integrityFailure_iff_code {e : Err} :
    integrityFailure e = true ↔ (errCode e).toNat = 2 ∨ (errCode e).toNat = 3 ∨ (errCode e).toNat = 4 := by
  cases e <;> decide

theorem busPhase_of_integrityFailure {e : Err} (h : integrityFailure e = true) : busPhase e = true := by
  cases e with
  | outOfRange | unsupportedOperation => cases h
  | _ => rfl

theorem credHint_iff {b : Option Bank} {e : Err} :
    credHint b e = true ↔ (∃ k, b = some k ∧ k.cfg.strategy = .password) ∧ integrityFailure e = true := by
  cases b <;> simp [credHint]

theorem credHint_of_precondition {b : Option Bank} {e : Err} (h : busPhase e = false) : credHint b e = false := by
  refine Bool.eq_false_iff.mpr fun hhint => ?_
  obtain ⟨-, hi⟩ := credHint_iff.mp hhint
  rw [busPhase_of_integrityFailure hi] at h
  cases h

/-- The bank context that a request names, if the block has it. -/
theorem bankOf_bind_eq_some {i : Instr} {s : State} {k : Bank} :
    (bankOf i).bind s.bank? = some k ↔ ∃ b, i.bank? = some b ∧ s.bank? b.toNat = some k := by
  cases h : i.bank? <;> simp [bankOf, h]

theorem responseOf_of_ports {s t : State} {c : Nat} {r : Response} (hc : c < s.nc)
    (h : t.ports = s.ports.modify c (fun p => { p with resp := some r })) : responseOf t c = some r := by
  have hl : c < s.ports.length := hc
  simp [responseOf, State.port?, h, List.getElem?_eq_getElem hl]

/-- Every response is OK or an error's, with the hint of the bank that the request names (60_exceptions.md R362). -/
theorem response_status {i : Instr} {s t : State} {c : Nat} {r : Response} (hb : Busy s c) (hc : c < s.nc)
    (hx : exec i s = .next t) (hr : responseOf t c = some r) :
    r.status = 0 ∨ ∃ e, r.status = statusOf e (credHint ((bankOf i).bind s.bank?) e) := by
  rcases exec_ways (i := i) hb with ⟨e, hf, hexec⟩ | ⟨hp, r', u, hrule, hok, hexec⟩ |
    ⟨hp, ht, b, k, e, u, hi, hk, he, hrule, hexec⟩ <;> obtain rfl := Host.Outcome.next.inj (hx.symm.trans hexec)
  · refine .inr ⟨e, ?_⟩
    obtain rfl := Option.some.inj (hr.symm.trans (responseOf_of_ports hc rfl))
    rw [credHint_of_precondition (precondition_err hf), statusOf_noHint]
  · exact .inl (responseOf_deliver hp hrule hc hr ▸ hok)
  · refine .inr ⟨e, ?_⟩
    obtain ⟨evs, mismatch, hfailed, -⟩ := abort_frameTo (c := c) hk ((bus_frame ht hi hk hp).of_error hrule).2 he
    rw [hfailed] at hr
    obtain rfl := Option.some.inj (hr.symm.trans (responseOf_of_ports hc rfl))
    rw [bankOf_bind_eq_some.mpr ⟨b, hi, hk⟩]
    rfl

/-- Settles O18: an OK response has neither a hint nor a code, and an error's hint and code are read off its STATUS. -/
theorem credHintExactly : Obligations.CredHintExactly := by
  intro i s t c r hb hc hx hr
  rcases response_status hb hc hx hr with hok | ⟨e, he⟩
  · simp [statusCode, hok]
  · rw [statusCode, he, statusOf_hintBit, statusOf_code, credHint_iff, integrityFailure_iff_code]
    refine and_congr_left fun _ => ?_
    simp only [bankOf_bind_eq_some]
    constructor
    · rintro ⟨k, ⟨b, hi, hk⟩, hpw⟩
      exact ⟨b, k, hi, hk, hpw⟩
    · rintro ⟨b, k, hi, hk, hpw⟩
      exact ⟨k, ⟨b, hi, hk⟩, hpw⟩

end Sys2Proof.Machine

/-! Decoding and encoding (30_encoding.md R101 to R108): the two forms of an encoded request decode to what they were built from, and
what `Opcode.build` keeps of its operands. -/

namespace Sys2Proof

theorem Instr.wellFormed_iff {nb : Nat} {i : Instr} :
    i.wellFormed nb = true ↔ (∀ b, i.bank? = some b → b.toNat < nb) ∧ i.data.length < 65536 := by
  cases h : i.bank? <;> simp [Instr.wellFormed, Instr.bankInRange, Instr.dataFits, h]

/-- A request without a data operand decodes to what it was built from (R106, R108). -/
theorem decode_plainRequest {nb : Nat} {op : Opcode} {cont : Bool} {b : Byte} (a l : Half) (hd : op.takesData = false)
    (hc : cont = true → op.takesContinue = true) (hb : op.namesBank = true → b.toNat < nb) :
    decode nb (plainRequest op cont b a l) = .ok (op.build cont b a l []) := by
  rw [decode_ok_iff]
  refine ⟨op, fieldOp_requestWord _ _ _, fieldReservedLow_requestWord _ _ _, fieldReservedHigh_requestWord _ _ _, fun hn => ?_,
    fun ht => ?_, fun _ => rfl, fun hn => ?_, ?_⟩ <;>
    simp only [plainRequest, fieldC_requestWord, fieldBank_requestWord]
  · cases cont with
    | false => rfl
    | true => rw [hc rfl] at hn; cases hn
  · rw [hd] at ht; cases ht
  · exact hb hn

/-- A request with a data operand that fits L decodes to what it was built from (R106, R108). -/
theorem decode_dataRequest {nb : Nat} {op : Opcode} {b : Byte} (a : Half) {d : List Byte} (hd : op.takesData = true)
    (hl : d.length < 65536) (hb : b.toNat < nb) :
    decode nb (dataRequest op b a d) = .ok (op.build false b a (BitVec.ofNat 16 d.length) d) := by
  rw [decode_ok_iff]
  refine ⟨op, fieldOp_requestWord _ _ _, fieldReservedLow_requestWord _ _ _, fieldReservedHigh_requestWord _ _ _,
    fun _ => fieldC_requestWord _ _ _, fun _ => ?_, fun ht => ?_, fun _ => ?_, ?_⟩ <;>
    simp only [dataRequest, fieldC_requestWord, fieldBank_requestWord]
  · exact (Nat.mod_eq_of_lt hl).symm
  · rw [hd] at ht; cases ht
  · exact hb

/-- Settles O2: each opcode's encoding is one of the two forms, and both decode to what they were built from. -/
theorem decodeOfEncode : Obligations.DecodeOfEncode := by
  intro nb i hi
  obtain ⟨hb, hd⟩ := Instr.wellFormed_iff.mp hi
  cases i with
  | read c b a l | readPage c b p | readPageExtra c b p | readPageCrc c b p | readPageCrcExtra c b p | readPagePacket c b p =>
    exact decode_plainRequest _ _ rfl (fun _ => rfl) fun _ => hb _ rfl
  | write b a d | writePagePacket b p d | setCredRw b d | setCredRo b d => exact decode_dataRequest _ rfl hd (hb _ rfl)
  | acquire | release => exact decode_plainRequest _ _ rfl (fun h => nomatch h) fun h => nomatch h
  | getSize b | getPageLength b | getMaxPacket b | getFlags b | getExtraLen b | setWriteVerify b a | setPowered b a
  | clearCreds b => exact decode_plainRequest _ _ rfl (fun h => nomatch h) fun _ => hb _ rfl

section Build

variable (op : Opcode) (cont : Bool) (b : Byte) (a l : Half) (d : List Byte)

@[simp] theorem opcode_build : (op.build cont b a l d).opcode = op := by cases op <;> rfl

@[simp] theorem bank?_build : (op.build cont b a l d).bank? = if op.namesBank then some b else none := by cases op <;> rfl

@[simp] theorem data_build : (op.build cont b a l d).data = if op.takesData then d else [] := by cases op <;> rfl

theorem encode_build_data : (encode (op.build cont b a l d)).d = if op.takesData then d else [] := by cases op <;> rfl

theorem encode_build_length (h : op.takesData = true) :
    (encode (op.build cont b a l d)).l = BitVec.ofNat 16 d.length := by
  cases op with
  | write | writePagePacket | setCredRw | setCredRo => rfl
  | _ => cases h

theorem encode_build_word (hc : op.takesContinue = false → cont = false) (hb : op.namesBank = true) :
    (encode (op.build cont b a l d)).w = requestWord op cont b := by
  cases op with
  | read | readPage | readPageExtra | readPageCrc | readPageCrcExtra | readPagePacket => rfl
  | acquire | release => cases hb
  | _ => rw [hc rfl]; rfl

theorem namesBank_iff : op.namesBank = true ↔ op ≠ .acquire ∧ op ≠ .release := by cases op <;> decide

end Build

theorem opcode_acquire {i : Instr} : i.opcode = .acquire ↔ i = .acquire := by cases i <;> simp [Instr.opcode]

theorem opcode_release {i : Instr} : i.opcode = .release ↔ i = .release := by cases i <;> simp [Instr.opcode]

/-- What decodes is well-formed (R100, R106). -/
theorem wellFormed_of_decode {nb : Nat} {r : Request} {i : Instr} (h : decode nb r = .ok i) : i.wellFormed nb = true := by
  obtain ⟨op, -, -, -, -, hd, -, hb, rfl⟩ := decode_ok_iff.mp h
  refine Instr.wellFormed_iff.mpr ⟨fun b hbank => ?_, ?_⟩
  · rw [bank?_build] at hbank
    cases hn : op.namesBank with
    | true => simp only [hn, if_true, Option.some.injEq] at hbank; exact hbank ▸ hb hn
    | false => simp [hn] at hbank
  · rw [data_build]
    cases ht : op.takesData with
    | true => rw [if_pos rfl, hd ht]; exact r.l.isLt
    | false => simp

/-- Settles O4: field by field of what `Opcode.build` keeps, and by O2 for the request encoded again. -/
theorem encodeOfDecode : Obligations.EncodeOfDecode := by
  intro nb r i h
  have hwf := wellFormed_of_decode h
  refine ⟨hwf, ?_, ?_, ?_, decodeOfEncode nb i hwf⟩ <;>
    obtain ⟨op, ho, hl, hh, hc, hd, he, hb, rfl⟩ := decode_ok_iff.mp h
  · rw [encode_build_data]
    cases ht : op.takesData with
    | true => rfl
    | false => rw [he ht]; rfl
  · intro hna hnr
    rw [Ne, ← opcode_acquire, opcode_build] at hna
    rw [Ne, ← opcode_release, opcode_build] at hnr
    rw [encode_build_word _ _ _ _ _ _ hc ((namesBank_iff op).mpr ⟨hna, hnr⟩), requestWord_fields ho hl hh]
  · intro ht
    rw [opcode_build] at ht
    rw [encode_build_length _ _ _ _ _ _ ht, hd ht, BitVec.ofNat_toNat, BitVec.setWidth_eq]

end Sys2Proof

/-! How every request ends, said once: what a request without a bus phase may write, and the three endings with the response each
leaves. -/

namespace Sys2Proof.Machine

/-! ### Requests without a bus phase -/

theorem map_modify_eq {α β : Type} {g : α → β} {f : α → α} (h : ∀ x, g (f x) = g x) (l : List α) (n : Nat) :
    (l.modify n f).map g = l.map g := by
  apply List.ext_getElem?
  intro i
  rw [List.getElem?_map, List.getElem?_map, List.getElem?_modify]
  split <;> simp [h, Function.comp_def]

theorem cfgs_setSpeed (l : List Bank) (b : Nat) (v : SpeedState) :
    (l.modify b fun k => { k with speed := v }).map Bank.cfg = l.map Bank.cfg := map_modify_eq (fun _ => by rfl) l b

/-- What a request without a bus phase may write: bank contexts but no configuration and no SPEED_STATE, OWNER, CONT_PTR, and the count
of free values. -/
def QuietTo (s t : State) : Prop :=
  ∃ (banks : List Bank) (owner : Option Nat) (ptr : Option ContPtr) (draws : Nat),
    t = { s with banks := banks, owner := owner, contPtr := ptr, draws := draws } ∧
    banks.map Bank.cfg = s.banks.map Bank.cfg ∧ banks.map Bank.speed = s.banks.map Bank.speed

theorem QuietTo.refl (s : State) : QuietTo s s := ⟨s.banks, s.owner, s.contPtr, s.draws, rfl, rfl, rfl⟩

theorem QuietTo.updateBank {s : State} {b : Nat} {f : Bank → Bank} (hc : ∀ k, (f k).cfg = k.cfg) (hs : ∀ k, (f k).speed = k.speed) :
    QuietTo s (s.updateBank b f) :=
  ⟨s.banks.modify b f, s.owner, s.contPtr, s.draws, rfl, map_modify_eq hc _ _, map_modify_eq hs _ _⟩

theorem quietState_frame (i : Instr) (c : Nat) (s : State) : QuietTo s (quietState i c s) := by
  cases i with
  | setWriteVerify b a | setPowered b a | setCredRw b d | setCredRo b d =>
    exact QuietTo.updateBank (fun _ => rfl) fun _ => rfl
  | clearCreds b =>
    refine ⟨_, s.owner, s.contPtr, s.draws + 2, rfl, ?_, ?_⟩ <;> rw [updateBank_banks]
    · exact map_modify_eq (fun _ => by rfl) _ _
    · exact map_modify_eq (fun _ => by rfl) _ _
  | acquire =>
    rw [quietState_acquire]
    split
    · exact ⟨s.banks, some c, none, s.draws, rfl, rfl, rfl⟩
    · exact QuietTo.refl s
  | release => exact ⟨s.banks, none, none, s.draws, rfl, rfl, rfl⟩
  | _ => exact QuietTo.refl s

theorem quiet_ok {i : Instr} {c : Nat} {s t : State} {r : Response} (hq : touchesBus i = false) (hp : Passes s c i)
    (h : ruleOf i c s = .ok r t) : r = okResponse (quietValue i s) [] [] ∧ t = quietState i c s := by
  rw [quiet_guarded hq, guarded_passes hp] at h
  cases h
  exact ⟨rfl, rfl⟩

/-! ### Endings -/

/-- How request i of client c ends from s, in which state and with which response: turned away by its first failing check; done; or
broken off in its bus phase, by the abort procedure (60_exceptions.md R361, R362). -/
inductive Ending (i : Instr) (s : State) (c : Nat) : State → Response → Prop
  | turned {e : Err} (hf : firstFailure (checksOf s c i) = some e) : Ending i s c (turnedAway s c e) (errResponse e false)
  | done {r : Response} {u : State} (hp : Passes s c i) (hr : ruleOf i c s = .ok r u) (h0 : r.status = 0) :
    Ending i s c (u.deliver c r) r
  | broke {b : Byte} {k : Bank} {e : Err} {u : State} (hp : Passes s c i) (ht : touchesBus i = true) (hi : i.bank? = some b)
    (hk : s.bank? b.toNat = some k) (he : busPhase e = true) (hr : ruleOf i c s = .error e u) :
    Ending i s c (abort c (some b.toNat) e u) (errResponse e (credHint (some k) e))

variable {i : Instr} {s t : State} {c : Nat} {r : Response}

theorem exec_ending (i : Instr) (h : Busy s c) : ∃ t r, exec i s = .next t ∧ Ending i s c t r := by
  rcases exec_ways (i := i) h with ⟨e, hf, hx⟩ | ⟨hp, r, u, hr, h0, hx⟩ | ⟨hp, ht, b, k, e, u, hi, hk, he, hr, hx⟩
  · exact ⟨_, _, hx, .turned hf⟩
  · exact ⟨_, _, hx, .done hp hr h0⟩
  · exact ⟨_, _, hx, .broke hp ht hi hk he hr⟩

theorem ending_of_exec (h : Busy s c) (hx : exec i s = .next t) : ∃ r, Ending i s c t r := by
  obtain ⟨t', r, hx', he⟩ := exec_ending i h
  rw [hx] at hx'
  cases hx'
  exact ⟨r, he⟩

/-- The bus phase of a request that ends well keeps the frame. -/
theorem frameTo_of_ok {b : Byte} {u : State} (ht : touchesBus i = true) (hi : i.bank? = some b) (hp : Passes s c i)
    (hr : ruleOf i c s = .ok r u) : FrameTo b.toNat s u := by
  obtain ⟨k, hk⟩ := passes_bank hp hi
  exact (bus_frame ht hi hk hp).of_ok hr

/-- A request broken off leaves the failed state after events that it made (60_exceptions.md R362). -/
theorem abort_failed_of_error {b : Byte} {k : Bank} {e : Err} {u : State} (hp : Passes s c i) (ht : touchesBus i = true)
    (hi : i.bank? = some b) (hk : s.bank? b.toNat = some k) (he : busPhase e = true) (hr : ruleOf i c s = .error e u) :
    ∃ evs mismatch, abort c (some b.toNat) e u = failed s c b.toNat k evs mismatch e ∧
      s.transcript ++ evs = u.transcript ++ (if u.pwrActive then [.call .powerNormal (answerTo .powerNormal u)] else []) :=
  abort_frameTo hk ((bus_frame ht hi hk hp).of_error hr).2 he

theorem Ending.ports (h : Ending i s c t r) : t.ports = s.ports.modify c (fun p => { p with resp := some r }) := by
  cases h with
  | @turned e hf => rw [errResponse, statusOf_noHint]; rfl
  | done hp hr _ => rw [deliver_ports, rule_ports hp hr]
  | broke hp ht hi hk he hr =>
    obtain ⟨evs, m, hfail, -⟩ := abort_failed_of_error hp ht hi hk he hr
    rw [hfail]
    rfl

/-- The ending, by the response on the client's port. -/
theorem ending_of_response (hb : Busy s c) (hc : c < s.nc) (hx : exec i s = .next t) (hr : responseOf t c = some r) :
    Ending i s c t r := by
  obtain ⟨r', h⟩ := ending_of_exec hb hx
  rw [responseOf_of_ports hc h.ports] at hr
  cases hr
  exact h

/-- What every ending keeps: configuration, scope schedule, and the book-keeping of the transcript (40_transport_speed.md R140). -/
structure EndFrame (s t : State) : Prop where
  engine : t.engine = .idle
  schedule : t.schedule = s.schedule
  canPower : t.canPower = s.canPower
  crc : t.crc = s.crc
  cfgs : t.banks.map Bank.cfg = s.banks.map Bank.cfg
  events : ∃ evs, t.transcript = s.transcript ++ evs ∧ t.answers = s.answers.drop (answersOf evs).length

theorem Ending.frame (h : Ending i s c t r) : EndFrame s t := by
  cases h with
  | turned hf => exact ⟨rfl, rfl, rfl, rfl, rfl, [], by simp [turnedAway, answered], rfl⟩
  | done hp hr _ =>
    cases ht : touchesBus i with
    | true =>
      obtain ⟨b, hi⟩ := touchesBus_bank ht
      obtain ⟨v, ptr, hz, pw, evs, eng, rfl⟩ := frameTo_of_ok ht hi hp hr
      exact ⟨rfl, rfl, rfl, rfl, cfgs_setSpeed _ _ _, evs, rfl, rfl⟩
    | false =>
      obtain ⟨-, hu⟩ := quiet_ok ht hp hr
      obtain ⟨banks, owner, ptr, draws, hq, hcfg, -⟩ := quietState_frame i c s
      rw [hu, hq]
      exact ⟨rfl, rfl, rfl, rfl, hcfg, [], by simp, rfl⟩
  | broke hp ht hi hk he hr =>
    obtain ⟨evs, m, hfail, -⟩ := abort_failed_of_error hp ht hi hk he hr
    rw [hfail]
    exact ⟨rfl, rfl, rfl, rfl, cfgs_setSpeed _ _ _, evs, rfl, rfl⟩

/-- Settles O16: each of the three endings delivers one response to the client's own port and keeps the rest. -/
theorem answeredOnce : Obligations.AnsweredOnce := by
  intro i s c hb
  obtain ⟨t, r, hx, h⟩ := exec_ending i hb
  obtain ⟨hidle, hsched, hpow, hcrc, hcfg, evs, htr, hans⟩ := h.frame
  exact ⟨t, r, evs, hx, h.ports, hidle, htr, hans, hsched, hpow, hcrc, hcfg⟩

/-! ### Status -/

theorem errCode_le (e : Err) : (errCode e).toNat ≤ 8 := by cases e <;> decide

theorem statusOf_highBits (e : Err) (hint : Bool) : (statusOf e hint).extractLsb' 5 3 = 0#3 := by
  cases e <;> cases hint <;> decide

theorem statusCode_errResponse (e : Err) (hint : Bool) : statusCode (errResponse e hint) = (errCode e).toNat := statusOf_code e hint

theorem statusCode_ok (h : r.status = 0) : statusCode r = 0 := by rw [statusCode, h]; rfl

theorem errCode_pre {e : Err} : busPhase e = false ↔ (errCode e).toNat = 5 ∨ (errCode e).toNat = 6 := by cases e <;> decide

theorem errCode_bus {e : Err} : busPhaseCode (errCode e).toNat = busPhase e := by cases e <;> rfl

theorem errCode_deviceNotPresent {e : Err} : (errCode e).toNat = 1 ↔ e = .deviceNotPresent := by cases e <;> decide

/-- Settles O17: a response is OK, or one of an error without data. -/
theorem statusWellFormed : Obligations.StatusWellFormed := by
  intro i s t c r hb hc hx hr
  have err (e : Err) (hint : Bool) : statusCode (errResponse e hint) ≤ 8 ∧ (errResponse e hint).status.extractLsb' 5 3 = 0#3 ∧
      ((errResponse e hint).status ≠ 0 → (errResponse e hint).v = 0 ∧ (errResponse e hint).r = [] ∧ (errResponse e hint).x = []) :=
    ⟨statusCode_errResponse e hint ▸ errCode_le e, statusOf_highBits e hint, fun _ => ⟨rfl, rfl, rfl⟩⟩
  cases ending_of_response hb hc hx hr with
  | turned => exact err _ _
  | broke => exact err _ _
  | done hp hr h0 => exact ⟨by simp [statusCode_ok h0], by rw [h0]; decide, fun h => absurd h0 h⟩

/-- Settles O19: a rule answers its first failing check with nothing changed, and the abort procedure turns such an error away. -/
theorem preconditionFailures : Obligations.PreconditionFailures := by
  intro i s c e ⟨req, n, heng⟩ hf
  rw [exec_error heng (fails_rule hf), abort_precondition (precondition_err hf)]

/-- A request broken off has made an event (60_exceptions.md R361 (2)). -/
theorem evs_ne_nil_of_error {b : Byte} {k : Bank} {e : Err} {u : State} {evs tail : List Event} (hp : Passes s c i)
    (ht : touchesBus i = true) (hi : i.bank? = some b) (hk : s.bank? b.toNat = some k) (hr : ruleOf i c s = .error e u)
    (h : s.transcript ++ evs = u.transcript ++ tail) : evs ≠ [] := by
  have hg : s.transcript.length < u.transcript.length := (bus_grown ht hi hk hp).of_error hr
  rintro rfl
  have := congrArg List.length h
  simp only [List.append_nil, List.length_append] at this
  omega

/-- Settles O20: only a request that is turned away has a precondition's code, and only one broken off a bus-phase code. -/
theorem noLatePrecondition : Obligations.NoLatePrecondition := by
  intro i s t c r hb hc hx hr
  cases ending_of_response hb hc hx hr with
  | @turned e hf =>
    rw [statusCode_errResponse, errCode_bus, precondition_err hf]
    refine ⟨fun hp => ?_, fun h => nomatch h⟩
    rw [Passes, hf] at hp
    cases hp
  | done hp hr h0 =>
    rw [statusCode_ok h0]
    exact ⟨fun _ => ⟨by decide, by decide⟩, fun h => nomatch h⟩
  | @broke b k e u hp ht hi hk he hrule =>
    rw [statusCode_errResponse]
    have hpre : ¬ ((errCode e).toNat = 5 ∨ (errCode e).toNat = 6) := by rw [← errCode_pre, he]; simp
    obtain ⟨evs, m, hfail, htr⟩ := abort_failed_of_error (c := c) hp ht hi hk he hrule
    refine ⟨fun _ => not_or.mp hpre, fun _ => ⟨hp, ?_⟩⟩
    rw [hfail]
    simpa [failed] using evs_ne_nil_of_error hp ht hi hk hrule htr

/-- Settles O21: a bus-phase code comes from the abort procedure only, and that leaves the failed state. -/
theorem busPhaseFailureAborts : Obligations.BusPhaseFailureAborts := by
  intro i s t c r hb hc hx hr hcode
  cases ending_of_response hb hc hx hr with
  | turned hf =>
    rw [statusCode_errResponse, errCode_bus, precondition_err hf] at hcode
    cases hcode
  | done hp hr h0 =>
    rw [statusCode_ok h0] at hcode
    cases hcode
  | @broke b k e u hp ht hi hk he hrule =>
    obtain ⟨evs, m, hfail, htr⟩ := abort_failed_of_error (c := c) hp ht hi hk he hrule
    exact ⟨b, k, evs, m, e, hi, hk, evs_ne_nil_of_error hp ht hi hk hrule htr, he, hfail⟩

/-! ### Frames -/

/-- Settles O28: turned away, done and broken off alike, such a request stays inside its frame. -/
theorem busRequestFrame : Obligations.BusRequestFrame := by
  intro i s t c b hb ht hi hx
  obtain ⟨r, h⟩ := ending_of_exec hb hx
  cases h with
  | @turned e hf =>
    obtain ⟨v, hv⟩ := modify_speed_self s.banks b.toNat
    exact ⟨v, s.contPtr, s.hazard, s.pwrActive, [], _, by rw [hv]; simp [turnedAway, answered]; rfl⟩
  | done hp hr _ =>
    obtain ⟨v, ptr, hz, pw, evs, eng, rfl⟩ := frameTo_of_ok ht hi hp hr
    exact ⟨v, ptr, s.hazard || hz, pw, evs, r, rfl⟩
  | broke hp ht hi' hk he hr =>
    rw [hi] at hi'
    cases hi'
    obtain ⟨evs, m, hfail, -⟩ := abort_failed_of_error (c := c) hp ht hi hk he hr
    exact ⟨.stale, none, s.hazard || m, false, evs, _, hfail⟩

theorem quietState_contPtr (h : (quietState i c s).contPtr ≠ s.contPtr) : i = .acquire ∨ i = .release := by
  cases i with
  | acquire => exact .inl rfl
  | release => exact .inr rfl
  | _ => exact absurd rfl h

/-- Settles O29: such a request is turned away or makes its one write of registers. -/
theorem quietRequestFrame : Obligations.QuietRequestFrame := by
  intro i s t c hb hq hx
  obtain ⟨r, h⟩ := ending_of_exec hb hx
  cases h with
  | turned hf => exact ⟨rfl, rfl, rfl, rfl, rfl, fun h => absurd rfl h⟩
  | done hp hr _ =>
    obtain ⟨-, rfl⟩ := quiet_ok hq hp hr
    refine and_assoc.mp (and_assoc.mp (and_assoc.mp (and_assoc.mp ⟨?_, quietState_contPtr⟩)))
    obtain ⟨banks, owner, ptr, draws, hu, -, hspeed⟩ := quietState_frame i c s
    rw [hu]
    exact ⟨⟨⟨⟨rfl, rfl⟩, rfl⟩, rfl⟩, hspeed⟩
  | broke hp ht => rw [hq] at ht; cases ht

end Sys2Proof.Machine

/-! Relations of the bus phase: the speed traffic of BEGIN_BUS, what the events after it are, where a failing answer stands, when the
pull-up is on, and who sets HAZARD. -/

namespace Sys2Proof.Machine

variable {i : Instr} {s t u : State} {c : Nat} {r : Response} {b : Byte} {k : Bank} {e : Err}

/-! ### BEGIN_BUS -/

theorem setSpeed_answered {v : Speed} (h : (answerTo (.setSpeed v) s).failed = false) : answerTo (.setSpeed v) s = .ok := by
  have ha := answerTo_admits (.setSpeed v) s
  revert h ha
  cases answerTo (.setSpeed v) s <;> simp [Call.admits, Answer.failed]

theorem isPresent_answered {a : DevAddr} (h : (answerTo (.isPresent a) s).failed = false) :
    answerTo (.isPresent a) s = .truth true := by
  have ha := answerTo_admits (.isPresent a) s
  revert h ha
  cases answerTo (.isPresent a) s <;> simp [Call.admits, Answer.failed]

theorem wellTyped_append {xs ys : List Event} (hx : ∀ e ∈ xs, wellTyped e = true) (hy : ∀ e ∈ ys, wellTyped e = true) :
    ∀ e ∈ xs ++ ys, wellTyped e = true := fun e he => (List.mem_append.mp he).elim (hx e) (hy e)

theorem afterCall_wellTyped {call : Call} (h : ∀ e ∈ s.transcript, wellTyped e = true) :
    ∀ e ∈ (afterCall call s).transcript, wellTyped e = true := by
  rw [afterCall_transcript]
  exact wellTyped_append h (by simp [wellTyped, answerTo_admits])

/-- The speed traffic of a STALE bank that fails: at its speed-set, or at its presence check (40_transport_speed.md R152). -/
def SpeedFailure (k : Bank) (evs : List Event) : Prop :=
  ∃ a : Answer, a.failed = true ∧ (evs = [.call (.setSpeed k.cfg.desiredSpeed) a] ∨
    evs = [.call (.setSpeed k.cfg.desiredSpeed) .ok, .call (.isPresent k.cfg.devAddr) a])

/-- What BEGIN_BUS leaves when it ends well (42_crc_bank.md R205). -/
structure Begun (s : State) (b : Nat) (k : Bank) (u : State) : Prop where
  banks : u.banks = s.banks.modify b fun k => { k with speed := .verified }
  transcript : u.transcript = s.transcript ++ speedEvents k
  contPtr : u.contPtr = none
  hazard : u.hazard = s.hazard
  power : u.pwrActive = false

/-- What BEGIN_BUS leaves when it fails (40_transport_speed.md R152). -/
structure BeginFailed (s : State) (k : Bank) (u : State) : Prop where
  stale : k.speed = .stale
  banks : u.banks = s.banks
  transcript : ∃ evs, u.transcript = s.transcript ++ evs ∧ SpeedFailure k evs
  typed : (∀ e ∈ s.transcript, wellTyped e = true) → ∀ e ∈ u.transcript, wellTyped e = true
  hazard : u.hazard = s.hazard
  power : u.pwrActive = false

theorem beginBus_ends {n : Nat} (hk : s.bank? n = some k) :
    EndsAt (fun s => Begun s n k) (fun _ s => BeginFailed s k) (beginBus n) s := by
  have h := beginBus_eq hk
  dsimp only at h
  cases hv : k.speed with
  | verified =>
    rw [if_pos hv] at h
    have hsame : k = { k with speed := .verified } := by rw [← hv]
    exact EndsAt.ok h ⟨(modify_same hk hsame.symm).symm, by simp [speedEvents, hv], rfl, rfl, rfl⟩
  | stale =>
    rw [if_neg (by simp [hv])] at h
    cases h1 : (answerTo (.setSpeed k.cfg.desiredSpeed) ((s.setCont none).setPower false)).failed with
    | true =>
      rw [if_pos h1] at h
      exact EndsAt.error h ⟨hv, rfl, ⟨_, rfl, _, h1, .inl rfl⟩, afterCall_wellTyped, rfl, rfl⟩
    | false =>
      rw [if_neg (by simp [h1])] at h
      cases h2 : (answerTo (.isPresent k.cfg.devAddr)
          (afterCall (.setSpeed k.cfg.desiredSpeed) ((s.setCont none).setPower false))).failed with
      | true =>
        rw [if_pos h2] at h
        exact EndsAt.error h ⟨hv, by simp, ⟨_, by simp [setSpeed_answered h1], _, h2, .inr rfl⟩,
          fun ht => afterCall_wellTyped (afterCall_wellTyped ht), by simp, by simp⟩
      | false =>
        rw [if_neg (by simp [h2])] at h
        exact EndsAt.ok h ⟨by simp, by simp [speedEvents, hv, setSpeed_answered h1, isPresent_answered h2], by simp, by simp, by simp⟩

/-- The course of request i of client c from s: no bus phase; a BEGIN_BUS that fails; or, after it, an OK response or the abort
procedure, in a state that every relation reaches which the traffic and the register writes of the request keep. -/
inductive Course (i : Instr) (s : State) (c : Nat) : State → Response → Prop
  | quiet {t : State} {r : Response} (transcript : t.transcript = s.transcript)
    (speeds : t.banks.map Bank.speed = s.banks.map Bank.speed) (hazard : t.hazard = s.hazard)
    (code : busPhaseCode (statusCode r) = false) (still : touchesBus i = true → t = answered s c r) : Course i s c t r
  | beginFailed {b : Byte} {k : Bank} {u : State} (hi : i.bank? = some b) (hk : s.bank? b.toNat = some k) (hu : BeginFailed s k u) :
    Course i s c (abort c (some b.toNat) .deviceNotPresent u) (errResponse .deviceNotPresent (credHint (some k) .deviceNotPresent))
  | finished {b : Byte} {k : Bank} {u v : State} {r : Response} (hi : i.bank? = some b) (hk : s.bank? b.toNat = some k)
    (hu : Begun s b.toNat k u) (h0 : r.status = 0)
    (hv : ∀ R S, Body s.contPtr (WantAt s c k i) (NextAt c b.toNat k) R S → R u v) : Course i s c (v.deliver c r) r
  | brokenOff {b : Byte} {k : Bank} {u v : State} {e : Err} (hi : i.bank? = some b) (hk : s.bank? b.toNat = some k)
    (hu : Begun s b.toNat k u) (he : busPhase e = true)
    (hv : ∀ R S, Body s.contPtr (WantAt s c k i) (NextAt c b.toNat k) R S → S e u v) :
    Course i s c (abort c (some b.toNat) e v) (errResponse e (credHint (some k) e))

theorem Ending.course (h : Ending i s c t r) : Course i s c t r := by
  cases h with
  | turned hf =>
    exact .quiet rfl rfl rfl (by rw [statusCode_errResponse, errCode_bus, precondition_err hf])
      fun _ => by rw [errResponse, statusOf_noHint]; rfl
  | @done r u hp hr h0 =>
    have hcode : busPhaseCode (statusCode r) = false := by rw [statusCode_ok h0]; rfl
    cases ht : touchesBus i with
    | false =>
      obtain ⟨-, rfl⟩ := quiet_ok ht hp hr
      obtain ⟨banks, owner, ptr, draws, hq, -, hspeed⟩ := quietState_frame i c s
      rw [hq]
      exact .quiet rfl hspeed rfl hcode fun h => nomatch ht.symm.trans h
    | true =>
      obtain ⟨b, hi⟩ := touchesBus_bank ht
      obtain ⟨k, hk⟩ := passes_bank hp hi
      rcases bus_cases ht hi hk hp with hsame | ⟨v, -, hv⟩ | ⟨v, hB, hv⟩
      · rw [hr] at hsame
        cases hsame
        exact .quiet rfl rfl rfl hcode fun _ => rfl
      · rw [hr] at hv
        cases hv
      · exact .finished hi hk ((beginBus_ends hk).of_ok hB) h0 fun R S hT => (hv R S hT).1 r u hr
  | @broke b k e u hp ht hi hk he hr =>
    rcases bus_cases ht hi hk hp with hsame | ⟨v, hB, hv⟩ | ⟨v, hB, hv⟩
    · rw [hr] at hsame
      cases hsame
    · rw [hr] at hv
      cases hv
      exact .beginFailed hi hk ((beginBus_ends hk).of_error hB)
    · exact .brokenOff hi hk ((beginBus_ends hk).of_ok hB) he fun R S hT => (hv R S hT).2 e u hr

/-! ### Events after BEGIN_BUS -/

/-- The bank contexts are as before, and the transcript has grown by events that all have the property P. -/
def Adds (P : Event → Prop) (s t : State) : Prop :=
  t.banks = s.banks ∧ ∃ evs, t.transcript = s.transcript ++ evs ∧ ∀ e ∈ evs, P e

theorem Adds.refl (P : Event → Prop) (s : State) : Adds P s s := ⟨rfl, [], by simp, by simp⟩

theorem Adds.trans {P : Event → Prop} (h : Adds P s t) (g : Adds P t u) : Adds P s u := by
  obtain ⟨hb, xs, hx, px⟩ := h
  obtain ⟨gb, ys, hy, py⟩ := g
  refine ⟨gb.trans hb, xs ++ ys, by rw [hy, hx, List.append_assoc], fun e he => ?_⟩
  rcases List.mem_append.mp he with he | he
  · exact px e he
  · exact py e he

theorem Adds.call {P : Event → Prop} {call : Call} (h : P (.call call (answerTo call s))) : Adds P s (afterCall call s) :=
  ⟨rfl, [_], rfl, by simpa using h⟩

/-- What follows BEGIN_BUS makes holds, and calls of the transfers and of the powered tail only. -/
theorem adds_body {P : Event → Prop} {prev : Option ContPtr} {want : Bool → ContPtr → Prop} {next : ContPtr → Prop}
    (hcall : ∀ call s, bodyCall call = true ∨ tailCall call = true → P (.call call (answerTo call s))) (hhold : ∀ d, P (.hold d)) :
    Body prev want next (Adds P) fun _ => Adds P where
  refl := Adds.refl P
  trans _ _ _ := Adds.trans
  err _ _ _ _ := Adds.trans
  call call s hc _ := .call (hcall call s (.inl hc))
  fail call s hc _ := .call (hcall call s (.inl hc))
  check _ s _ := Adds.refl P s
  tail := ends_poweredTail ⟨Adds.refl P, fun _ _ _ => Adds.trans, fun _ _ _ _ => Adds.trans⟩
    (fun call s hc _ => .call (hcall call s (.inr hc))) (fun call s hc _ => .call (hcall call s (.inr hc)))
    (fun d s => ⟨rfl, [_], rfl, by simpa using hhold d⟩) fun _ s => Adds.refl P s
  checks cont w _ s := by
    unfold EndsAt
    rw [contCheck_apply]
    exact Adds.refl P s
  sets s _ _ := Adds.refl P s

/-- No speed-set and no presence check comes after BEGIN_BUS (40_transport_speed.md R155). -/
theorem noSpeed_body {prev : Option ContPtr} {want : Bool → ContPtr → Prop} {next : ContPtr → Prop} :
    Body prev want next (Adds fun e => speedTraffic e = false) fun _ => Adds fun e => speedTraffic e = false := by
  refine adds_body (fun call s h => ?_) fun _ => rfl
  cases call with
  | setSpeed v => simp [bodyCall, tailCall] at h
  | isPresent a => simp [bodyCall, tailCall] at h
  | _ => rfl

/-! ### SPEED_STATE -/

theorem bank?_modify {l : List Bank} {n j : Nat} {f : Bank → Bank} {k k' : Bank} (h : l[j]? = some k)
    (h' : (l.modify n f)[j]? = some k') : (n = j ∧ k' = f k) ∨ (n ≠ j ∧ k' = k) := by
  rw [List.getElem?_modify, h] at h'
  by_cases hj : n = j
  · exact .inl ⟨hj, by simpa [hj] using h'.symm⟩
  · exact .inr ⟨hj, by simpa [hj] using h'.symm⟩

theorem abort_banks (he : busPhase e = true) (n : Nat) :
    (abort c (some n) e u).banks = u.banks.modify n fun k => { k with speed := .stale } := by
  unfold abort abortCleanup
  rw [if_pos he]
  cases u.pwrActive <;> rfl

theorem abort_transcript (he : busPhase e = true) (n : Nat) : (abort c (some n) e u).transcript =
    u.transcript ++ if u.pwrActive then [.call .powerNormal (answerTo .powerNormal u)] else [] := by
  unfold abort abortCleanup
  rw [if_pos he]
  cases u.pwrActive <;> simp [forceReverify]

theorem abort_hazard (b : Option Nat) : (abort c b e u).hazard = u.hazard := by
  unfold abort abortCleanup
  cases busPhase e <;> cases u.pwrActive <;> cases b <;> rfl

/-- Settles O22: BEGIN_BUS makes the bank VERIFIED, the abort procedure makes it STALE, and nothing else writes SPEED_STATE. -/
theorem speedStateTransitions : Obligations.SpeedStateTransitions := by
  intro i s t c j k k' r hb hc hx hr hj hj' hne
  cases (ending_of_response hb hc hx hr).course with
  | quiet transcript speeds hazard code =>
    have hj1 : s.banks[j]? = some k := hj
    have hj2 : t.banks[j]? = some k' := hj'
    have h := congrArg (fun l : List SpeedState => l[j]?) speeds
    simp only [List.getElem?_map, hj1, hj2, Option.map_some, Option.some.injEq] at h
    exact absurd h hne
  | @finished b kb u v r hi hkb hu h0 hv =>
    obtain ⟨hbanks, evs, htr, -⟩ := hv _ _ noSpeed_body
    rw [State.bank?, deliver_banks, hbanks, hu.banks] at hj'
    rcases bank?_modify hj hj' with ⟨hbj, rfl⟩ | ⟨-, rfl⟩
    · rw [hbj, hj] at hkb
      cases hkb
      refine ⟨⟨b, hi, hbj⟩, fun h => (by cases h), fun _ => ⟨evs, ?_⟩⟩
      rw [deliver_transcript, htr, hu.transcript, List.append_assoc, speedEvents]
      cases hs : k.speed with
      | stale => rfl
      | verified => exact absurd hs.symm hne
    · exact absurd rfl hne
  | @beginFailed b kb u hi hkb hu =>
    rw [State.bank?, abort_banks rfl, hu.banks] at hj'
    rcases bank?_modify hj hj' with ⟨hbj, rfl⟩ | ⟨-, rfl⟩
    · exact ⟨⟨b, hi, hbj⟩, fun _ => (by rw [statusCode_errResponse]; rfl), fun h => (by cases h)⟩
    · exact absurd rfl hne
  | @brokenOff b kb u v e hi hkb hu he hv =>
    obtain ⟨hbanks, -⟩ := hv _ _ noSpeed_body
    rw [State.bank?, abort_banks he, hbanks, hu.banks, List.modify_modify_eq] at hj'
    rcases bank?_modify hj hj' with ⟨hbj, rfl⟩ | ⟨-, rfl⟩
    · exact ⟨⟨b, hi, hbj⟩, fun _ => (by rw [statusCode_errResponse, errCode_bus, he]), fun h => (by cases h)⟩
    · exact absurd rfl hne

/-- The events of a request on bank k: none; the speed traffic that failed; or the speed traffic of the bank, and then none. -/
theorem Course.events {evs : List Event} (h : Course i s c t r) (hi : i.bank? = some b) (hk : s.bank? b.toNat = some k)
    (htr : t.transcript = s.transcript ++ evs) :
    evs = [] ∨ (k.speed = .stale ∧ SpeedFailure k evs) ∨
      ∃ rest, evs = speedEvents k ++ rest ∧ ∀ e ∈ rest, speedTraffic e = false := by
  cases h with
  | quiet transcript speeds hazard code =>
    rw [transcript] at htr
    exact .inl (List.append_right_eq_self.mp htr.symm)
  | @finished b' k' u v r hi' hk' hu h0 hv =>
    cases hi.symm.trans hi'
    cases hk.symm.trans hk'
    obtain ⟨-, xs, hx, hp⟩ := hv _ _ noSpeed_body
    rw [deliver_transcript, hx, hu.transcript, List.append_assoc, List.append_cancel_left_eq] at htr
    exact .inr (.inr ⟨xs, htr.symm, hp⟩)
  | @beginFailed b' k' u hi' hk' hu =>
    cases hi.symm.trans hi'
    cases hk.symm.trans hk'
    obtain ⟨xs, hx, hf⟩ := hu.transcript
    rw [abort_transcript rfl, hu.power, hx] at htr
    simp only [Bool.false_eq_true, if_false, List.append_nil, List.append_cancel_left_eq] at htr
    exact .inr (.inl ⟨hu.stale, htr ▸ hf⟩)
  | @brokenOff b' k' u v e hi' hk' hu he hv =>
    cases hi.symm.trans hi'
    cases hk.symm.trans hk'
    obtain ⟨-, xs, hx, hp⟩ := hv _ _ noSpeed_body
    rw [abort_transcript he, hx, hu.transcript, List.append_assoc, List.append_assoc, List.append_cancel_left_eq] at htr
    refine .inr (.inr ⟨_, htr.symm, fun ev hev => ?_⟩)
    rcases List.mem_append.mp hev with hev | hev
    · exact hp ev hev
    · split at hev
      · rw [List.mem_singleton.mp hev]
        rfl
      · cases hev

/-- Settles O23: the events of a request that has some are failed speed traffic, or the bank's speed traffic and then others. -/
theorem speedTrafficFirst : Obligations.SpeedTrafficFirst := by
  intro i s t c b k evs ⟨hb, hk⟩ hi hx htr hne
  obtain ⟨r, h⟩ := ending_of_exec hb hx
  rcases h.course.events hi hk htr with rfl | ⟨hstale, a, -, rfl | rfl⟩ | ⟨rest, rfl, hrest⟩
  · exact absurd rfl hne
  · exact ⟨fun hv => absurd (hv.symm.trans hstale) (by decide), fun _ => ⟨a, [], rfl, fun h => absurd rfl h⟩⟩
  · exact ⟨fun hv => absurd (hv.symm.trans hstale) (by decide),
      fun _ => ⟨.ok, _, rfl, fun _ => ⟨rfl, a, [], rfl, fun h => absurd rfl h, by simp⟩⟩⟩
  · refine ⟨fun hv => ?_, fun hs => ?_⟩
    · rw [speedEvents, hv]
      exact hrest
    · rw [speedEvents, hs]
      exact ⟨.ok, _, rfl, fun _ => ⟨rfl, .truth true, rest, rfl, fun _ => rfl, hrest⟩⟩

end Sys2Proof.Machine

/-! Failing answers, the pull-up, HAZARD, and the writers of each register. -/

namespace Sys2Proof.Machine

variable {i : Instr} {s t u v : State} {c : Nat} {r : Response} {b : Byte} {k : Bank} {e : Err}

/-! ### Failing answers -/

/-- An event that is no failing answer (40_transport_speed.md R151). -/
def answeredWell : Event → Bool
  | .call _ a => !a.failed
  | .hold _ => true

/-- The last event, and only it, is a failing answer. -/
def LastFails (evs : List Event) : Prop :=
  ∃ (pre : List Event) (call : Call) (a : Answer), evs = pre ++ [.call call a] ∧ a.failed = true ∧
    ∀ e ∈ pre, answeredWell e = true

/-- The events that an error ends: a failing answer last for DeviceNotPresent, and none for the other errors. -/
def FailsBy (e : Err) (evs : List Event) : Prop :=
  if e = .deviceNotPresent then LastFails evs else ∀ ev ∈ evs, answeredWell ev = true

theorem LastFails.append {xs ys : List Event} (h : ∀ e ∈ xs, answeredWell e = true) (g : LastFails ys) : LastFails (xs ++ ys) := by
  obtain ⟨pre, call, a, rfl, ha, hpre⟩ := g
  refine ⟨xs ++ pre, call, a, (List.append_assoc _ _ _).symm, ha, fun e he => ?_⟩
  rcases List.mem_append.mp he with he | he
  · exact h e he
  · exact hpre e he

theorem FailsBy.append {xs ys : List Event} (h : ∀ e ∈ xs, answeredWell e = true) (g : FailsBy e ys) : FailsBy e (xs ++ ys) := by
  unfold FailsBy at g ⊢
  split
  case isTrue he =>
    rw [if_pos he] at g
    exact g.append h
  case isFalse he =>
    rw [if_neg he] at g
    intro ev hev
    rcases List.mem_append.mp hev with hev | hev
    · exact h ev hev
    · exact g ev hev

/-- The transcript has grown by events that an error e ends. -/
def Failed (e : Err) (s t : State) : Prop := ∃ evs, t.transcript = s.transcript ++ evs ∧ FailsBy e evs

theorem Failed.call {call : Call} (h : (answerTo call s).failed = true) : Failed .deviceNotPresent s (afterCall call s) :=
  ⟨_, rfl, [], call, _, rfl, h, by simp⟩

theorem answered_composes : Composes (Adds fun e => answeredWell e = true) Failed where
  refl := Adds.refl _
  trans _ _ _ := Adds.trans
  err e s t u h g := by
    obtain ⟨-, xs, hx, px⟩ := h
    obtain ⟨ys, hy, py⟩ := g
    exact ⟨xs ++ ys, by rw [hy, hx, List.append_assoc], py.append px⟩

/-- A failing answer ends the bus phase, and DeviceNotPresent comes from one only (40_transport_speed.md R151). -/
theorem answered_body {prev : Option ContPtr} {want : Bool → ContPtr → Prop} {next : ContPtr → Prop} :
    Body prev want next (Adds fun e => answeredWell e = true) Failed where
  toComposes := answered_composes
  call call s _ h := .call (by simp [answeredWell, h])
  fail call s _ h := .call h
  check e s he := by
    refine ⟨[], by simp, ?_⟩
    rw [FailsBy, if_neg (by rintro rfl; cases he)]
    simp
  tail := ends_poweredTail answered_composes (fun call s _ h => .call (by simp [answeredWell, h])) (fun call s _ h => .call h)
    (fun d s => ⟨rfl, [_], rfl, by simp [answeredWell]⟩) fun _ s => Adds.refl _ s
  checks cont w _ s := by
    unfold EndsAt
    rw [contCheck_apply]
    exact Adds.refl _ s
  sets s _ _ := Adds.refl _ s

theorem speedEvents_answeredWell (k : Bank) : ∀ e ∈ speedEvents k, answeredWell e = true := by
  unfold speedEvents
  cases k.speed <;> simp [answeredWell, Answer.failed]

theorem SpeedFailure.lastFails {evs : List Event} (h : SpeedFailure k evs) : LastFails evs := by
  obtain ⟨a, ha, rfl | rfl⟩ := h
  · exact ⟨[], _, a, rfl, ha, by simp⟩
  · exact ⟨[.call (.setSpeed k.cfg.desiredSpeed) .ok], _, a, rfl, ha, by simp [answeredWell, Answer.failed]⟩

/-! ### The pull-up -/

/-- The piece ends in a state with P, or with an error in a state with Q. -/
def Leaves {α : Type} (P : State → Prop) (Q : Err → State → Prop) (m : Bus α) (s : State) : Prop :=
  EndsAt (fun _ => P) (fun e _ => Q e) m s

theorem leaves_call {α : Type} {P : State → Prop} {Q : Err → State → Prop} {call : Call} {f : Answer → Bus α}
    (hfail : (answerTo call s).failed = true → Q .deviceNotPresent (afterCall call s))
    (hok : (answerTo call s).failed = false → Leaves P Q (f (answerTo call s)) (afterCall call s)) :
    Leaves P Q (transport call >>= f) s := by
  unfold Leaves EndsAt
  rw [bind_apply, transport_apply]
  cases h : (answerTo call s).failed with
  | true => exact hfail h
  | false => exact hok h

/-- The pull-up is off, before and after: the events, read from a pull-up that is off, leave it off, and `pwr_active` is false. -/
def PullUpOff (s t : State) : Prop :=
  s.pwrActive = false → t.pwrActive = false ∧ ∃ evs, t.transcript = s.transcript ++ evs ∧ pullUp false evs = false

/-- An error leaves the pull-up on only with `pwr_active` set, so that the abort procedure turns it off; and only DeviceNotPresent
may leave `pwr_active` set (40_transport_speed.md R150). -/
def PullUpHeld (e : Err) (s t : State) : Prop :=
  s.pwrActive = false → (t.pwrActive = true → e = .deviceNotPresent) ∧
    ∃ evs, t.transcript = s.transcript ++ evs ∧ (pullUp false evs = true → t.pwrActive = true)

theorem pullUp_append (on : Bool) (xs ys : List Event) : pullUp on (xs ++ ys) = pullUp (pullUp on xs) ys := List.foldl_append

theorem pullUp_composes : Composes PullUpOff PullUpHeld where
  refl s h := ⟨h, [], by simp, rfl⟩
  trans s t u h g hs := by
    obtain ⟨ht, xs, hx, px⟩ := h hs
    obtain ⟨hu, ys, hy, py⟩ := g ht
    exact ⟨hu, xs ++ ys, by rw [hy, hx, List.append_assoc], by rw [pullUp_append, px, py]⟩
  err e s t u h g hs := by
    obtain ⟨ht, xs, hx, px⟩ := h hs
    obtain ⟨hu, ys, hy, py⟩ := g ht
    exact ⟨hu, xs ++ ys, by rw [hy, hx, List.append_assoc], by rwa [pullUp_append, px]⟩

theorem pullUpAfter_bodyCall {call : Call} (h : bodyCall call = true) (on : Bool) (a : Answer) :
    pullUpAfter on (.call call a) = on := by
  cases call <;> cases h <;> rfl

theorem powerStart_answered {w : PowerCondition} (h : (answerTo (.powerStart w) s).failed = true) : answerTo (.powerStart w) s = .fail := by
  have ha := answerTo_admits (.powerStart w) s
  revert h ha
  cases answerTo (.powerStart w) s <;> simp [Call.admits, Answer.failed]

/-- In the powered tail `pwr_active` is set from its start on, and cleared at its end (40_transport_speed.md R150). -/
theorem pullUp_poweredTail (x : Byte) (d : Duration) : Ends PullUpOff PullUpHeld (poweredTail x d) := by
  intro s
  change Leaves (PullUpOff s) (fun e => PullUpHeld e s) (poweredTail x d) s
  unfold poweredTail
  refine leaves_call (fun _ hs => ⟨fun _ => rfl, _, rfl, fun h => nomatch h⟩) fun _ => ?_
  refine leaves_call (fun h2 hs => ⟨fun _ => rfl, [_, _], by simp; exact ⟨rfl, rfl⟩, ?_⟩) fun _ => ?_
  · rw [powerStart_answered h2]
    exact fun h => nomatch h
  change Leaves _ _ (transport (.put x) >>= _) _
  refine leaves_call (fun _ hs => ⟨fun _ => rfl, [_, _, _], by simp; exact ⟨rfl, rfl, rfl⟩, fun _ => rfl⟩) fun _ => ?_
  change Leaves _ _ (transport .powerNormal >>= _) _
  refine leaves_call (fun _ hs => ⟨fun _ => rfl, [_, _, _, _, _], by simp; exact ⟨rfl, rfl, rfl, rfl, rfl⟩,
    fun _ => rfl⟩) fun _ => ?_
  exact fun hs => ⟨rfl, [_, _, _, _, _], by simp; exact ⟨rfl, rfl, rfl, rfl, rfl⟩, rfl⟩

/-- After BEGIN_BUS only the powered tail turns the pull-up on. -/
theorem pullUp_body {prev : Option ContPtr} {want : Bool → ContPtr → Prop} {next : ContPtr → Prop} :
    Body prev want next PullUpOff PullUpHeld where
  toComposes := pullUp_composes
  call call s hc _ hs := ⟨hs, [_], rfl, pullUpAfter_bodyCall hc _ _⟩
  fail call s hc _ hs := ⟨fun _ => rfl, [_], rfl, fun h => by
    rw [show pullUp false [_] = _ from pullUpAfter_bodyCall hc _ _] at h; cases h⟩
  check e s _ hs := ⟨fun h => (by rw [hs] at h; cases h), [], by simp, fun h => nomatch h⟩
  tail := pullUp_poweredTail
  checks cont w _ s := by
    unfold EndsAt
    rw [contCheck_apply]
    exact fun hs => ⟨hs, [], by simp, rfl⟩
  sets s _ _ hs := ⟨hs, [], by simp, rfl⟩

theorem pullUp_of_noPower {evs : List Event} (h : ∀ e ∈ evs, speedTraffic e = true) (on : Bool) : pullUp on evs = on := by
  induction evs with
  | nil => rfl
  | cons e evs ih =>
    have he : pullUpAfter on e = on := by
      have := h e (by simp)
      unfold speedTraffic at this
      split at this
      · rfl
      · rfl
      · cases this
    rw [pullUp, List.foldl_cons, he]
    exact ih fun x hx => h x (by simp [hx])

theorem speedEvents_traffic (k : Bank) : ∀ e ∈ speedEvents k, speedTraffic e = true := by
  unfold speedEvents
  cases k.speed <;> simp [speedTraffic]

theorem SpeedFailure.traffic {evs : List Event} (h : SpeedFailure k evs) : ∀ e ∈ evs, speedTraffic e = true := by
  obtain ⟨a, -, rfl | rfl⟩ := h <;> simp [speedTraffic]

/-- Settles O25: a request ends well with the pull-up off, and the abort procedure turns it off where it may be on. -/
theorem pullUpReleased : Obligations.PullUpReleased := by
  intro i s t c evs hb hx htr
  obtain ⟨r, h⟩ := ending_of_exec hb hx
  cases h.course with
  | quiet transcript =>
    rw [transcript] at htr
    rw [List.append_right_eq_self.mp htr.symm]
    rfl
  | @beginFailed b k u hi hk hu =>
    obtain ⟨xs, hxs, hf⟩ := hu.transcript
    rw [abort_transcript rfl, hu.power, hxs] at htr
    simp only [Bool.false_eq_true, if_false, List.append_nil, List.append_cancel_left_eq] at htr
    rw [← htr, pullUp_of_noPower hf.traffic]
  | @finished b k u v r hi hk hu h0 hv =>
    obtain ⟨-, xs, hxs, hoff⟩ := hv _ _ pullUp_body hu.power
    rw [deliver_transcript, hxs, hu.transcript, List.append_assoc, List.append_cancel_left_eq] at htr
    rw [← htr, pullUp_append, pullUp_of_noPower (speedEvents_traffic k), hoff]
  | @brokenOff b k u v e hi hk hu he hv =>
    obtain ⟨-, xs, hxs, hheld⟩ := hv _ _ pullUp_body hu.power
    rw [abort_transcript he, hxs, hu.transcript, List.append_assoc, List.append_assoc, List.append_cancel_left_eq] at htr
    rw [← htr, pullUp_append, pullUp_of_noPower (speedEvents_traffic k), pullUp_append]
    cases hp : v.pwrActive with
    | true => rfl
    | false =>
      rw [hp] at hheld
      exact Bool.eq_false_iff.mpr fun h => nomatch hheld h

/-! ### Failing answers, from the first event to the last -/

/-- Where a failing answer stands in events of which only the last but a power-normal call may fail. -/
theorem LastFails.position {evs tail pre post : List Event} {call : Call} {a : Answer} (h : LastFails evs)
    (ht : tail = [] ∨ ∃ a', tail = [.call .powerNormal a']) (ha : a.failed = true) (he : evs ++ tail = pre ++ .call call a :: post) :
    post = [] ∨ ∃ a', post = [.call .powerNormal a'] := by
  obtain ⟨xs, call', a', rfl, -, hxs⟩ := h
  rw [List.append_assoc] at he
  rcases List.append_eq_append_iff.mp he with ⟨ys, rfl, hys⟩ | ⟨ys, rfl, hys⟩
  · cases ys with
    | nil =>
      simp only [List.nil_append, List.cons_append, List.cons.injEq] at hys
      exact hys.2 ▸ ht
    | cons y ys =>
      simp only [List.cons_append, List.nil_append, List.cons.injEq] at hys
      obtain ⟨-, rfl⟩ := hys
      rcases ht with ht | ⟨a'', ht⟩
      · simp at ht
      · cases ys with
        | nil => simp only [List.nil_append, List.cons.injEq] at ht; exact .inl ht.2
        | cons => simp at ht
  · cases ys with
    | nil =>
      simp only [List.nil_append, List.cons_append, List.cons.injEq] at hys
      exact hys.2 ▸ ht
    | cons y ys =>
      simp only [List.cons_append, List.cons.injEq] at hys
      have := hxs y (by simp)
      rw [← hys.1] at this
      simp [answeredWell, ha] at this

theorem LastFails.mem {evs : List Event} (h : LastFails evs) : ∃ call a, .call call a ∈ evs ∧ a.failed = true := by
  obtain ⟨pre, call, a, rfl, ha, -⟩ := h
  exact ⟨call, a, by simp, ha⟩

theorem no_failing_answer {evs pre post : List Event} {call : Call} {a : Answer} (h : ∀ e ∈ evs, answeredWell e = true)
    (he : evs = pre ++ .call call a :: post) : a.failed = false := by
  have := h (.call call a) (by simp [he])
  simpa [answeredWell] using this

theorem answeredWell_append {xs ys : List Event} (hx : ∀ e ∈ xs, answeredWell e = true) (hy : ∀ e ∈ ys, answeredWell e = true) :
    ∀ e ∈ xs ++ ys, answeredWell e = true := fun e he => (List.mem_append.mp he).elim (hx e) (hy e)

/-- What O24 says of a request's events and code. -/
def FailureEnds (code : Nat) (evs : List Event) : Prop :=
  (∀ pre call a post, evs = pre ++ .call call a :: post → a.failed = true →
    code = 1 ∧ (post = [] ∨ ∃ a', post = [.call .powerNormal a'])) ∧
  (code = 1 → ∃ call a, .call call a ∈ evs ∧ a.failed = true)

/-- Without a failing answer there must be no DeviceNotPresent. -/
theorem failureEnds_of_well {code : Nat} {evs : List Event} (hc : code ≠ 1) (h : ∀ e ∈ evs, answeredWell e = true) :
    FailureEnds code evs :=
  ⟨fun _ _ _ _ he ha => absurd ha (by simp [no_failing_answer h he]), fun h1 => absurd h1 hc⟩

/-- With one last but for a power-normal call, the code is DeviceNotPresent. -/
theorem failureEnds_of_last {evs tail : List Event} (h : LastFails evs) (ht : tail = [] ∨ ∃ a', tail = [.call .powerNormal a']) :
    FailureEnds 1 (evs ++ tail) := by
  refine ⟨fun _ _ _ _ he ha => ⟨rfl, h.position ht ha he⟩, fun _ => ?_⟩
  obtain ⟨call, a, hm, ha⟩ := h.mem
  exact ⟨call, a, List.mem_append_left _ hm, ha⟩

/-- Settles O24: a failing answer is the last event of a request but for the abort procedure's power-normal call. -/
theorem failedAnswerEnds : Obligations.FailedAnswerEnds := by
  intro i s t c r evs hb hc hx hr htr
  change FailureEnds (statusCode r) evs
  cases (ending_of_response hb hc hx hr).course with
  | quiet transcript speeds hazard code =>
    rw [transcript] at htr
    rw [List.append_right_eq_self.mp htr.symm]
    exact failureEnds_of_well (fun h => by rw [h] at code; cases code) (by simp)
  | @beginFailed b k u hi hk hu =>
    obtain ⟨xs, hxs, hf⟩ := hu.transcript
    rw [abort_transcript rfl, hu.power, hxs, List.append_assoc, List.append_cancel_left_eq] at htr
    rw [← htr, statusCode_errResponse]
    exact failureEnds_of_last hf.lastFails (.inl rfl)
  | @finished b k u v r hi hk hu h0 hv =>
    obtain ⟨-, xs, hxs, hwell⟩ := hv _ _ answered_body
    rw [deliver_transcript, hxs, hu.transcript, List.append_assoc, List.append_cancel_left_eq] at htr
    rw [← htr, statusCode_ok h0]
    exact failureEnds_of_well (by decide) (answeredWell_append (speedEvents_answeredWell k) hwell)
  | @brokenOff b k u v e hi hk hu he hv =>
    obtain ⟨xs, hxs, hfails⟩ := hv _ _ answered_body
    rw [abort_transcript he, hxs, hu.transcript, List.append_assoc, List.append_assoc, List.append_cancel_left_eq,
      ← List.append_assoc] at htr
    rw [← htr, statusCode_errResponse]
    by_cases hdev : e = .deviceNotPresent
    · rw [FailsBy, if_pos hdev] at hfails
      rw [hdev]
      refine failureEnds_of_last (hfails.append (speedEvents_answeredWell k)) ?_
      cases v.pwrActive with
      | true => exact .inr ⟨_, rfl⟩
      | false => exact .inl rfl
    · rw [FailsBy, if_neg hdev] at hfails
      obtain ⟨hoff, -⟩ := hv _ _ pullUp_body hu.power
      rw [Bool.eq_false_iff.mpr fun h => hdev (hoff h)]
      refine failureEnds_of_well (fun h => hdev (errCode_deviceNotPresent.mp h)) ?_
      rw [if_neg (by simp), List.append_nil]
      exact answeredWell_append (speedEvents_answeredWell k) hfails

/-! ### HAZARD -/

/-- HAZARD stays set, and is set only where H holds. -/
def HazardBy (H : Prop) (s t : State) : Prop :=
  (s.hazard = true → t.hazard = true) ∧ (t.hazard = true → s.hazard = true ∨ H)

theorem HazardBy.of_eq {H : Prop} (h : t.hazard = s.hazard) : HazardBy H s t := by
  rw [HazardBy, h]
  exact ⟨id, .inl⟩

theorem HazardBy.trans {H : Prop} (h : HazardBy H s t) (g : HazardBy H t u) : HazardBy H s u :=
  ⟨fun hs => g.1 (h.1 hs), fun hu => (g.2 hu).elim h.2 .inr⟩

/-- A continuation of the scope's owner that does not start where CONT_PTR stands (42_crc_bank.md R204 (2)). -/
def Mismatch (s : State) (c : Nat) (k : Bank) (i : Instr) : Prop :=
  ∃ w, continuationStart c k i = some w ∧ s.contPtr ≠ some w ∧ s.owner = some c

/-- CONT_CHECK alone sets HAZARD (42_crc_bank.md R204). -/
theorem hazard_body {next : ContPtr → Prop} : Body s.contPtr (WantAt s c k i) next (HazardBy (Mismatch s c k i))
    fun _ => HazardBy (Mismatch s c k i) := by
  have hC : Composes (HazardBy (Mismatch s c k i)) fun _ => HazardBy (Mismatch s c k i) :=
    ⟨fun _ => .of_eq rfl, fun _ _ _ => HazardBy.trans, fun _ _ _ _ => HazardBy.trans⟩
  refine { toComposes := hC, call := fun _ _ _ _ => .of_eq rfl, fail := fun _ _ _ _ => .of_eq rfl, check := fun _ _ _ => .of_eq rfl,
           tail := ends_poweredTail hC (fun _ _ _ _ => .of_eq rfl) (fun _ _ _ _ => .of_eq rfl) (fun _ _ => .of_eq rfl)
             fun _ _ => .of_eq rfl,
           checks := fun cont w hw u => ?_, sets := fun _ _ _ => .of_eq rfl }
  unfold EndsAt
  rw [contCheck_apply]
  refine ⟨fun h => by simp [h], fun h => ?_⟩
  simp only [Bool.or_eq_true, Bool.and_eq_true, bne_iff_ne] at h
  rcases h with h | ⟨hcont, hne⟩
  · exact .inl h
  · obtain ⟨hstart, hown⟩ := hw hcont
    exact .inr ⟨w, hstart, hne, hown⟩

/-- Settles O26: only CONT_CHECK writes HAZARD, and only where the continuation does not match. -/
theorem hazardOnlyByMismatch : Obligations.HazardOnlyByMismatch := by
  intro i s t c hb hx
  obtain ⟨r, h⟩ := ending_of_exec hb hx
  have same (ht : t.hazard = s.hazard) : (s.hazard = true → t.hazard = true) ∧ (t.hazard = true → s.hazard = true ∨
      ∃ b k w, i.bank? = some b ∧ s.bank? b.toNat = some k ∧ continuationStart c k i = some w ∧ s.contPtr ≠ some w ∧
        s.owner = some c) := by
    rw [ht]
    exact ⟨id, .inl⟩
  have body {b : Byte} {k : Bank} {u v : State} (hi : i.bank? = some b) (hk : s.bank? b.toNat = some k) (hu : Begun s b.toNat k u)
      (hv : HazardBy (Mismatch s c k i) u v) (ht : t.hazard = v.hazard) : (s.hazard = true → t.hazard = true) ∧
      (t.hazard = true → s.hazard = true ∨ ∃ b k w, i.bank? = some b ∧ s.bank? b.toNat = some k ∧
        continuationStart c k i = some w ∧ s.contPtr ≠ some w ∧ s.owner = some c) := by
    rw [HazardBy, hu.hazard] at hv
    rw [ht]
    exact ⟨hv.1, fun h => (hv.2 h).imp_right fun ⟨w, hw⟩ => ⟨b, k, w, hi, hk, hw⟩⟩
  cases h.course with
  | quiet _ _ hazard => exact same hazard
  | beginFailed _ _ hu => exact same ((abort_hazard _).trans hu.hazard)
  | finished hi hk hu _ hv => exact body hi hk hu (hv _ _ hazard_body) rfl
  | brokenOff hi hk hu _ hv => exact body hi hk hu (hv _ _ hazard_body) (abort_hazard _)

/-! ### Who writes what -/

/-- What a request may change of bank context j, from k to k' (10_state.md R31, R35 to R37). -/
structure WritesBank (i : Instr) (j : Nat) (k k' : Bank) : Prop where
  cfg : k'.cfg = k.cfg
  writeVerify : k'.writeVerify ≠ k.writeVerify → ∃ b a, i = .setWriteVerify b a ∧ b.toNat = j
  powered : k'.powered ≠ k.powered → ∃ b a, i = .setPowered b a ∧ b.toNat = j
  credRw : (k'.credRw, k'.credRwValid) ≠ (k.credRw, k.credRwValid) →
    ∃ b, b.toNat = j ∧ (i = .clearCreds b ∨ ∃ d, i = .setCredRw b d)
  credRo : (k'.credRo, k'.credRoValid) ≠ (k.credRo, k.credRoValid) →
    ∃ b, b.toNat = j ∧ (i = .clearCreds b ∨ ∃ d, i = .setCredRo b d)

/-- A request that writes SPEED_STATE only. -/
theorem WritesBank.speed (i : Instr) (j : Nat) (k : Bank) (v : SpeedState) : WritesBank i j k { k with speed := v } :=
  ⟨rfl, fun h => absurd rfl h, fun h => absurd rfl h, fun h => absurd rfl h, fun h => absurd rfl h⟩

theorem WritesBank.refl (i : Instr) (j : Nat) (k : Bank) : WritesBank i j k k := WritesBank.speed i j k k.speed

theorem quietState_writes {j : Nat} {k k' : Bank} (h : s.bank? j = some k) (h' : (quietState i c s).bank? j = some k') :
    WritesBank i j k k' := by
  have same (hs : (quietState i c s).bank? j = s.bank? j) : WritesBank i j k k' := by
    rw [hs, h] at h'
    cases h'
    exact .refl i j k
  have upd {n : Nat} {f : Bank → Bank} (hs : (quietState i c s).banks = s.banks.modify n f)
      (hf : n = j → WritesBank i j k (f k)) : WritesBank i j k k' := by
    rw [State.bank?, hs] at h'
    rcases bank?_modify h h' with ⟨hn, rfl⟩ | ⟨-, rfl⟩
    · exact hf hn
    · exact .refl i j _
  cases i with
  | setWriteVerify b a => exact upd rfl fun hn =>
      { WritesBank.refl _ j k with writeVerify := fun _ => ⟨b, a, rfl, hn⟩ }
  | setPowered b a => exact upd rfl fun hn => { WritesBank.refl _ j k with powered := fun _ => ⟨b, a, rfl, hn⟩ }
  | setCredRw b d => exact upd rfl fun hn => { WritesBank.refl _ j k with credRw := fun _ => ⟨b, hn, .inr ⟨d, rfl⟩⟩ }
  | setCredRo b d => exact upd rfl fun hn => { WritesBank.refl _ j k with credRo := fun _ => ⟨b, hn, .inr ⟨d, rfl⟩⟩ }
  | clearCreds b => exact upd rfl fun hn =>
      { WritesBank.refl _ j k with credRw := fun _ => ⟨b, hn, .inl rfl⟩, credRo := fun _ => ⟨b, hn, .inl rfl⟩ }
  | acquire =>
    refine same ?_
    rw [quietState_acquire]
    split <;> rfl
  | _ => exact same rfl

theorem quietState_owner (h : (quietState i c s).owner ≠ s.owner) : i = .acquire ∨ i = .release := by
  cases i with
  | acquire => exact .inl rfl
  | release => exact .inr rfl
  | _ => exact absurd rfl h

/-- Settles O27: a request with a bus phase writes SPEED_STATE only (its frame, O28); each other request makes its own write. -/
theorem registerWriters : Obligations.RegisterWriters := by
  intro i s t c hb hx
  suffices h : (t.owner ≠ s.owner → i = .acquire ∨ i = .release) ∧
      ∀ j k k', s.bank? j = some k → t.bank? j = some k' → WritesBank i j k k' by
    refine ⟨h.1, fun j k k' hk hk' => ?_⟩
    obtain ⟨hcfg, hwv, hpow, hrw, hro⟩ := h.2 j k k' hk hk'
    exact ⟨hcfg, hwv, hpow, hrw, hro⟩
  cases ht : touchesBus i with
  | true =>
    obtain ⟨b, hi⟩ := touchesBus_bank ht
    obtain ⟨v, ptr, hz, pw, evs, r, rfl⟩ := busRequestFrame i s t c b hb ht hi hx
    refine ⟨fun h => absurd rfl h, fun j k k' hk hk' => ?_⟩
    rcases bank?_modify hk hk' with ⟨-, rfl⟩ | ⟨-, rfl⟩
    · exact .speed i j k v
    · exact .refl i j _
  | false =>
    obtain ⟨r, h⟩ := ending_of_exec hb hx
    cases h with
    | turned hf =>
      refine ⟨fun h => absurd rfl h, fun j k k' hk hk' => ?_⟩
      rw [show (turnedAway s c _).bank? j = s.bank? j from rfl, hk] at hk'
      cases hk'
      exact .refl i j k
    | done hp hr h0 =>
      obtain ⟨-, rfl⟩ := quiet_ok ht hp hr
      exact ⟨quietState_owner, fun j k k' hk hk' => quietState_writes hk hk'⟩
    | broke hp ht' => rw [ht] at ht'; cases ht'

end Sys2Proof.Machine

/-! The request loop (45_config_scope_ops.md R328, R329; 10_state.md R43): one equation for each course of a step, and the statements
on eligibility, scope and the scheduler. -/

namespace Sys2Proof.Machine

variable {s t : State} {c : Nat} {req : Request} {i : Instr}

theorem step_of_admitted_idle (ha : s.admitted = true) (he : s.engine = .idle) : step s = stepIdle s := by
  rw [step, if_pos ha, he]

theorem step_of_admitted_taken (ha : s.admitted = true) (he : s.engine = .busy c req 0) : step s = runTaken s := by
  rw [step, if_pos ha, he]

theorem runTaken_ok {n : Nat} (he : s.engine = .busy c req n) (hd : decode s.nb req = .ok i) : runTaken s = exec i s := by
  simp only [runTaken, he, hd]

/-- A request that does not decode is turned away (30_encoding.md R106, R107). -/
theorem runTaken_error {n : Nat} {e : DecodeReject} (he : s.engine = .busy c req n) (hd : decode s.nb req = .error e) :
    runTaken s = .next (turnedAway s c .unsupportedOperation) := by
  simp only [runTaken, he, hd]
  rw [abort_precondition rfl]

theorem stepIdle_move {m : Move} {rest : List Move} (h : s.schedule = m :: rest) :
    stepIdle s = performMove { s with schedule := rest } m := by
  rw [stepIdle, h]

theorem stepIdle_waits (h : s.schedule = []) (hc : chooseClient (Config.freeChoice s.draws) s = none) :
    stepIdle s = .next (afterChoice s) := by
  simp only [stepIdle, h, hc]

theorem stepIdle_chooses (h : s.schedule = []) (hc : chooseClient (Config.freeChoice s.draws) s = some c) :
    stepIdle s = takeAndRun (afterChoice s) c := by
  simp only [stepIdle, h, hc]

theorem takeAndRun_some (h : takeable s c = some req) : takeAndRun s c = runTaken (takeRequest s c req) := by
  rw [takeAndRun, h]

theorem takeAndRun_none (h : takeable s c = none) : takeAndRun s c = .next s := by
  rw [takeAndRun, h]

/-- Eligibility as the claims write it (R328). -/
theorem eligible_iff : eligible s c req = true ↔ s.owner = none ∨ s.owner = some c ∨ req.w.extractLsb' 0 8 = 0x41#8 := by
  simp [eligible, fieldOp, or_assoc]

/-- Settles O5. -/
theorem stepRunsDecoded : Obligations.StepRunsDecoded := by
  intro s c req ha he
  rw [step_of_admitted_taken ha he]
  exact ⟨fun i => runTaken_ok he, fun e => runTaken_error he⟩

/-- Settles O6: the client's request is takeable, and taking it is the state that the claim spells out. -/
theorem stepTakesAndRuns : Obligations.StepTakesAndRuns := by
  intro s c req resp rest ha hidle hsched hport helig taken
  have htake : takeable { s with schedule := rest } c = some req := (takeable_some_iff _ _ _).mpr ⟨resp, hport, eligible_iff.mpr helig⟩
  have hstep : step s = runTaken taken := by
    rw [step_of_admitted_idle ha hidle, stepIdle_move hsched]
    exact takeAndRun_some htake
  rw [hstep]
  exact ⟨fun i => runTaken_ok (s := taken) rfl, fun e => runTaken_error (s := taken) rfl⟩

/-- Settles O7: the placed request is eligible, because its client owns the scope or no one does. -/
theorem placedWordRunsNext : Obligations.PlacedWordRunsNext := by
  intro s nbits w i ha hclient hdec
  have hlen : fetchClient s < s.ports.length := hclient
  have hport : (s.ports.modify (fetchClient s) fun _ => ⟨some (requestOfBits nbits w), none⟩)[fetchClient s]? =
      some ⟨some (requestOfBits nbits w), none⟩ := by
    rw [List.getElem?_modify_eq, List.getElem?_eq_getElem hlen]
    rfl
  have helig : s.owner = none ∨ s.owner = some (fetchClient s) := by
    unfold fetchClient
    cases s.owner <;> simp
  have hadm : (s.withFetchWord nbits w).admitted = true := by
    rw [← ha]
    simp [State.admitted, State.withFetchWord, placeRequest, State.nb, State.nc]
  have h := (stepTakesAndRuns (s.withFetchWord nbits w) (fetchClient s) (requestOfBits nbits w) none s.schedule hadm rfl rfl hport
    (helig.imp_right .inl)).1 i hdec
  rw [h]
  congr 1
  apply State.ext' <;> simp [State.withFetchWord, placeRequest, List.modify_modify_eq, Function.comp_def]

theorem issueRequest_free (h : s.port? c = some ⟨none, none⟩) :
    issueRequest s c req = s.updatePort c (fun p => { p with pending := some req }) := by
  rw [issueRequest, h]

theorem issueRequest_taken {p : Port} (h : s.port? c = some p) (hp : p ≠ ⟨none, none⟩) : issueRequest s c req = s := by
  rw [issueRequest, h]
  split
  · rename_i heq
    cases heq
    exact absurd rfl hp
  · rfl

theorem modify_congr {α : Type} {l : List α} {n : Nat} {f g : α → α} {a : α} (h : l[n]? = some a) (hfg : f a = g a) :
    l.modify n f = l.modify n g := by
  apply List.ext_getElem?
  intro j
  rw [List.getElem?_modify, List.getElem?_modify]
  by_cases hj : n = j
  · subst hj
    simp [h, hfg]
  · simp [hj]

/-- Settles O8: a move by its equation; a request that is not eligible is not takeable. -/
theorem idleMoves : Obligations.IdleMoves := by
  intro s c rest ha hidle
  have hmove {m : Move} (h : s.schedule = m :: rest) : step s = performMove { s with schedule := rest } m := by
    rw [step_of_admitted_idle ha hidle, stepIdle_move h]
  refine ⟨fun req hs hp => ?_, fun req p hs hp hne => ?_, fun hs => ?_, fun req resp o hs hp ho hoc hrel => ?_⟩ <;> rw [hmove hs]
  · have hmod : (s.ports.modify c fun p => { p with pending := some req }) = s.ports.modify c fun _ => ⟨some req, none⟩ :=
      modify_congr (a := ⟨none, none⟩) hp (by rfl)
    rw [← hmod]
    exact congrArg _ (issueRequest_free (s := { s with schedule := rest }) hp)
  · exact congrArg _ (issueRequest_taken (s := { s with schedule := rest }) hp hne)
  · rfl
  · refine takeAndRun_none (Option.eq_none_iff_forall_not_mem.mpr fun q hq => ?_)
    obtain ⟨resp', hp', hel⟩ := (takeable_some_iff _ _ _).mp (Option.mem_def.mp hq)
    cases hp.symm.trans hp'
    rcases eligible_iff.mp hel with h | h | h
    · exact nomatch ho.symm.trans h
    · exact hoc (Option.some.inj (ho.symm.trans h))
    · exact hrel h

/-- Settles O10: a chosen client is in the list of the eligible ones; the value of its index chooses it, and the list's length none. -/
theorem schedulerTakesEligible : Obligations.SchedulerTakesEligible := by
  intro s ha hidle hsched
  refine ⟨?_, ⟨(eligibleClients s).length, ?_⟩, fun c req resp hp hel => ?_⟩
  · rw [step_of_admitted_idle ha hidle]
    cases hch : chooseClient (Config.freeChoice s.draws) s with
    | none => exact .inl ⟨rfl, stepIdle_waits hsched hch⟩
    | some c =>
      obtain ⟨req, htake⟩ := (mem_eligibleClients s c).mp (chooseClient_mem hch)
      obtain ⟨resp, hp, hel⟩ := (takeable_some_iff s c req).mp htake
      exact .inr ⟨c, req, resp, rfl, hp, hel, (stepIdle_chooses hsched hch).trans (takeAndRun_some (s := afterChoice s) htake)⟩
  · simp [chooseClient]
  · have hmem := (mem_eligibleClients s c).mpr ⟨req, (takeable_some_iff s c req).mpr ⟨resp, hp, hel⟩⟩
    obtain ⟨v, hv, hget⟩ := List.getElem_of_mem hmem
    refine ⟨v, ?_⟩
    rw [chooseClient, Nat.mod_eq_of_lt (by omega), List.getElem?_eq_getElem hv, hget]

/-! ### The scope -/

theorem port?_modify_ne {l : List Port} {n j : Nat} (h : n ≠ j) (f : Port → Port) : (l.modify n f)[j]? = l[j]? :=
  List.getElem?_modify_ne f l h

/-- Running the request that ENGINE holds for client n writes no other port. -/
theorem runTaken_port {n : Nat} (he : s.engine = .busy n req 0) (hn : n ≠ c) (h : runTaken s = .next t) : t.port? c = s.port? c := by
  cases hd : decode s.nb req with
  | error e =>
    rw [runTaken_error he hd] at h
    cases h
    exact port?_modify_ne hn _
  | ok i =>
    rw [runTaken_ok he hd] at h
    obtain ⟨r, hend⟩ := ending_of_exec ⟨req, 0, he⟩ h
    rw [State.port?, hend.ports]
    exact port?_modify_ne hn _

/-- While another client owns the scope, taking a client's request leaves the port of a client that is held. -/
theorem takeAndRun_port {n o : Nat} {resp : Option Response} (ho : s.owner = some o) (hc : c ≠ o)
    (hp : s.port? c = some ⟨some req, resp⟩) (hr : req.w.extractLsb' 0 8 ≠ 0x41#8) (h : takeAndRun s n = .next t) :
    t.port? c = s.port? c := by
  cases htake : takeable s n with
  | none =>
    rw [takeAndRun_none htake] at h
    cases h
    rfl
  | some q =>
    rw [takeAndRun_some htake] at h
    obtain ⟨resp', hp', hel⟩ := (takeable_some_iff s n q).mp htake
    have hn : n ≠ c := by
      rintro rfl
      cases hp.symm.trans hp'
      rcases eligible_iff.mp hel with h | h | h
      · exact nomatch ho.symm.trans h
      · exact hc (Option.some.inj (ho.symm.trans h)).symm
      · exact hr h
    rw [runTaken_port rfl hn h]
    exact port?_modify_ne hn _

theorem issueRequest_port {n : Nat} {q : Request} {resp : Option Response} (hp : s.port? c = some ⟨some req, resp⟩) :
    (issueRequest s n q).port? c = s.port? c := by
  by_cases hn : n = c
  · subst hn
    rw [issueRequest_taken hp (by simp)]
  · unfold issueRequest
    split
    · exact port?_modify_ne hn _
    · rfl

/-- Settles O9: no move touches the held request; a consumed response may go. -/
theorem scopeExcludesOthers : Obligations.ScopeExcludesOthers := by
  intro s t o c req resp hidle ho hc hp hr hstep
  have keep (h : t.port? c = s.port? c) : ∃ resp', t.port? c = some ⟨some req, resp'⟩ ∧ (resp' = resp ∨ resp' = none) :=
    ⟨resp, h.trans hp, .inl rfl⟩
  by_cases ha : s.admitted = true
  · rw [step_of_admitted_idle ha hidle] at hstep
    cases hs : s.schedule with
    | nil =>
      cases hch : chooseClient (Config.freeChoice s.draws) s with
      | none =>
        rw [stepIdle_waits hs hch] at hstep
        cases hstep
        exact keep rfl
      | some n =>
        rw [stepIdle_chooses hs hch] at hstep
        exact keep (takeAndRun_port (s := afterChoice s) ho hc hp hr hstep)
    | cons m rest =>
      rw [stepIdle_move hs] at hstep
      cases m with
      | issue n q =>
        cases hstep
        exact keep (issueRequest_port (s := { s with schedule := rest }) hp)
      | take n => exact keep (takeAndRun_port (s := { s with schedule := rest }) ho hc hp hr hstep)
      | consume n =>
        cases hstep
        by_cases hn : n = c
        · subst hn
          have hl : s.ports[n]? = some ⟨some req, resp⟩ := hp
          exact ⟨none, by simp [State.port?, hl], .inr rfl⟩
        · exact keep (port?_modify_ne hn _)
  · rw [step_of_not_admitted ha] at hstep
    cases hstep

end Sys2Proof.Machine

/-! Admission exactly (00_scope.md R6, R7), reset (70_reset_and_hazards.md R401), the sample words (30_encoding.md R101), and the
invariant (10_state.md R36 to R41). -/

namespace Sys2Proof.Machine

variable {s t u : State} {c : Nat} {i : Instr} {r : Response} {b : Byte} {k : Bank}

/-- Settles O1: each word's fields are constants, so the decoder is evaluated on it. -/
theorem sampleWordsDecode : Obligations.SampleWordsDecode := by
  refine ⟨?_, ?_, ?_, ?_, ?_, ?_, ?_, ?_, ?_, ?_⟩ <;> decide +kernel

/-! ### Admission -/

theorem runTaken_ne_refused (q : Refusal) : runTaken s ≠ .refused q := by
  intro h
  cases he : s.engine with
  | idle => simp [runTaken, he] at h
  | busy c req n =>
    cases hd : decode s.nb req with
    | error e => rw [runTaken_error he hd] at h; cases h
    | ok i =>
      rw [runTaken_ok he hd] at h
      obtain ⟨t, r, hx, -⟩ := exec_ending i ⟨req, n, he⟩
      rw [hx] at h
      cases h

theorem takeAndRun_ne_refused (q : Refusal) : takeAndRun s c ≠ .refused q := by
  cases h : takeable s c with
  | none => rw [takeAndRun_none h]; exact fun h => nomatch h
  | some req => rw [takeAndRun_some h]; exact runTaken_ne_refused q

theorem stepIdle_ne_refused (q : Refusal) : stepIdle s ≠ .refused q := by
  cases hs : s.schedule with
  | nil =>
    cases hch : chooseClient (Config.freeChoice s.draws) s with
    | some c => rw [stepIdle_chooses hs hch]; exact takeAndRun_ne_refused q
    | none => rw [stepIdle_waits hs hch]; exact fun h => nomatch h
  | cons m rest =>
    rw [stepIdle_move hs]
    cases m with
    | take c => exact takeAndRun_ne_refused q
    | issue c req => exact fun h => nomatch h
    | consume c => exact fun h => nomatch h

/-- A step refuses only for the configuration (log 16). -/
theorem step_ne_refused_iff : step s ≠ .refused .configNotAdmitted ↔ s.admitted = true := by
  refine ⟨fun h => by_contra fun ha => h (step_of_not_admitted ha), fun ha => ?_⟩
  rw [step, if_pos ha]
  cases s.engine with
  | idle => exact stepIdle_ne_refused _
  | busy c req n =>
    cases n with
    | zero => exact runTaken_ne_refused _
    | succ n => exact fun h => nomatch h

/-- The checks of a bank, each said once: what W1, W7 and W8 repeat of the ranges of R6 is left out. -/
theorem bankAdmitted_exactly {k : BankConfig} : bankAdmitted k = true ↔
    1 ≤ k.size ∧ k.size ≤ 65536 ∧ 1 ≤ k.pageLength ∧ k.pageLength ≤ k.size ∧ k.extraLen ≤ 255 ∧ k.nvb ≤ 255 ∧
    1 ≤ k.spMetaLen ∧ k.spMetaLen ≤ 255 ∧ 1 ≤ k.pwLen ∧ k.pwLen ≤ 255 ∧ k.pwPoweredVerifyBytes ≤ 255 ∧
    k.size % k.pageLength = 0 ∧ k.startPhys + k.size ≤ 65536 ∧
    (k.strategy = .crc ∨ k.strategy = .password → 3 + k.extraLen ≤ k.pageLength) ∧
    (readOnly k = true → readWrite k = false ∧ writeOnce k = false) ∧
    (hasExtraInfo k = true → (k.strategy = .crc ∨ k.strategy = .password) ∧ 1 ≤ k.extraLen) ∧
    (hasExtraInfo k = false → k.extraLen = 0) ∧
    (hasPageAutoCrc k = true ↔ k.strategy = .crc ∨ k.strategy = .password) ∧
    (k.strategy = .plain → k.hasNativeRead = true) ∧ (k.strategy = .scratchpad → k.echoWrite = false) ∧
    (needsProgramPulse k = true → k.echoWrite = true) ∧ ∀ v, k.strategy ≠ .reserved v := by
  rw [bankAdmitted_iff, rangesOk_iff, checkW1_iff, checkW2_iff, checkW3_iff, checkW4_iff, checkW5_iff, checkW6_iff, checkW7_iff,
    checkW8_iff, checkW9_iff, checkW10_iff, crcStrategy_iff]
  constructor
  · rintro ⟨⟨r1, r2, r3, r4, -, r6, r7, r8, r9, r10, r11, r12⟩, ⟨-, -, w1, w1'⟩, w2, w3, ⟨w4, w4'⟩, w5, w6, w7, -, w9, w10⟩
    exact ⟨r1, r2, r3, r4, r6, r7, r8, r9, r10, r11, r12, w1, w1', w2, w3, w4, w4', w5, w6, fun h => (w7 h).1, w9, w10⟩
  · rintro ⟨r1, r2, r3, r4, r6, r7, r8, r9, r10, r11, r12, w1, w1', w2, w3, w4, w4', w5, w6, w7, w9, w10⟩
    exact ⟨⟨r1, r2, r3, r4, by omega, r6, r7, r8, r9, r10, r11, r12⟩, ⟨r1, r3, w1, w1'⟩, w2, w3, ⟨w4, w4'⟩, w5, w6,
      fun h => ⟨w7 h, r8⟩, fun _ => r10, w9, w10⟩

/-- Settles O12. -/
theorem admittedExactly : Obligations.AdmittedExactly := by
  intro s
  rw [step_ne_refused_iff, State.admitted_iff]
  simp only [bankAdmitted_exactly, State.nb, State.nc]

/-! ### Reset -/

/-- Settles O13: every bank is some `Bank.reset`, and every port is empty. -/
theorem resetValues : Obligations.ResetValues := by
  rintro cfg s rfl
  have hcfg : Bank.cfg ∘ Bank.reset = id := rfl
  refine ⟨rfl, rfl, ?_, fun k hk => ?_, rfl, rfl, rfl, rfl, by simp [State.resetWith], fun p hp => ?_⟩
  · simp [State.resetWith, hcfg]
  · obtain ⟨k, -, rfl⟩ := List.mem_map.mp hk
    exact ⟨rfl, rfl, rfl, rfl, rfl⟩
  · rw [List.eq_of_mem_replicate hp]
    exact ⟨rfl, rfl⟩

/-- Settles O14: nothing is owned, running, pointed to or recorded, and no bank is powered or holds a valid credential. -/
theorem resetHasInv : Obligations.ResetHasInv := by
  intro cfg
  obtain ⟨-, -, -, hbanks, -⟩ := resetValues cfg _ rfl
  have hk {b : Nat} {k : Bank} (h : (State.resetWith cfg).bank? b = some k) := hbanks k (List.mem_of_getElem? h)
  constructor
  case owner => exact fun _ h => nomatch h
  case engine => exact fun _ _ _ h => nomatch h
  case cont => exact fun _ h => nomatch h
  case power => rfl
  case events => exact fun _ h => nomatch h
  case powered =>
    intro b k h hp
    obtain ⟨-, -, hpow, -, -⟩ := hk h
    exact nomatch hpow.symm.trans hp
  case creds =>
    intro b k h
    obtain ⟨-, -, -, hrw, hro⟩ := hk h
    exact ⟨fun hv => (nomatch hrw.symm.trans hv), fun hv => nomatch hro.symm.trans hv⟩

/-! ### The invariant -/

/-- What the invariant says of one bank context (10_state.md R36, R37). -/
def BankInv (k : Bank) : Prop :=
  (k.powered = true → k.cfg.strategy = .password) ∧
  (k.credRwValid = true → k.cfg.strategy = .password ∧ k.credRw.length = k.cfg.pwLen) ∧
  (k.credRoValid = true → k.cfg.strategy = .password ∧ k.credRo.length = k.cfg.pwLen)

theorem Inv.bank {n : Nat} (h : Inv s) (hk : s.bank? n = some k) : BankInv k :=
  ⟨h.powered n k hk, h.creds n k hk⟩

/-- A pointer that the invariant allows (R39). -/
def PtrInv (s : State) (p : ContPtr) : Prop :=
  p.client < s.nc ∧ ∃ k, s.bank? p.bank = some k ∧ k.speed = .verified ∧ k.cfg.strategy ≠ .scratchpad ∧ p.off ≤ k.cfg.size

/-- The invariant between requests, from its parts. -/
theorem inv_of_idle (hengine : s.engine = .idle) (howner : ∀ c, s.owner = some c → c < s.nc)
    (hcont : ∀ p, s.contPtr = some p → PtrInv s p) (hbank : ∀ n k, s.bank? n = some k → BankInv k) (hpower : s.pwrActive = false)
    (hevents : ∀ e ∈ s.transcript, wellTyped e = true) : Inv s :=
  { owner := howner, engine := fun _ _ _ h => (nomatch hengine.symm.trans h), cont := hcont,
    powered := fun n k h => (hbank n k h).1, creds := fun n k h => (hbank n k h).2, power := hpower, events := hevents }

/-- The invariant looks at neither port contents, schedule, answers nor the count of free values. -/
theorem Inv.congr (h : Inv s) (hnc : t.nc = s.nc) (hbanks : t.banks = s.banks) (howner : t.owner = s.owner)
    (hcont : t.contPtr = s.contPtr) (hpower : t.pwrActive = s.pwrActive) (htr : t.transcript = s.transcript)
    (hengine : ∀ c req n, t.engine = .busy c req n → c < s.nc) : Inv t := by
  have hbank (n : Nat) : t.bank? n = s.bank? n := congrArg (fun l : List Bank => l[n]?) hbanks
  constructor
  · rw [howner, hnc]; exact h.owner
  · rw [hnc]; exact hengine
  · simp only [hcont, hnc, hbank]; exact h.cont
  · simp only [hbank]; exact h.powered
  · simp only [hbank]; exact h.creds
  · rw [hpower]; exact h.power
  · rw [htr]; exact h.events

theorem updatePort_nc (s : State) (n : Nat) (f : Port → Port) : (s.updatePort n f).nc = s.nc := List.length_modify _ _ _

theorem modify_bankInv {l : List Bank} {n j : Nat} {f : Bank → Bank} {k' : Bank} (h : ∀ (j : Nat) k, l[j]? = some k → BankInv k)
    (hf : ∀ k, l[n]? = some k → BankInv k → BankInv (f k)) (h' : (l.modify n f)[j]? = some k') : BankInv k' := by
  cases hj : l[j]? with
  | none =>
    rw [List.getElem?_modify, hj] at h'
    cases h'
  | some k =>
    rcases bank?_modify hj h' with ⟨rfl, rfl⟩ | ⟨-, rfl⟩
    · exact hf k hj (h n k hj)
    · exact h j _ hj

/-! What the bus phase leaves. -/

/-- Every event that a request makes has an answer of its call's type. -/
theorem wellTyped_body {prev : Option ContPtr} {want : Bool → ContPtr → Prop} {next : ContPtr → Prop} :
    Body prev want next (Adds fun e => wellTyped e = true) fun _ => Adds fun e => wellTyped e = true :=
  adds_body (fun call s _ => answerTo_admits call s) fun _ => rfl

/-- CONT_PTR is as before, or where the request may leave it (42_crc_bank.md R205). -/
def PtrBy (next : ContPtr → Prop) (s t : State) : Prop := ∀ p, t.contPtr = some p → s.contPtr = some p ∨ next p

theorem ptr_body {prev : Option ContPtr} {want : Bool → ContPtr → Prop} {next : ContPtr → Prop} :
    Body prev want next (PtrBy next) fun _ _ _ => True := by
  have same {s t : State} (h : t.contPtr = s.contPtr) : PtrBy next s t := fun p hp => .inl (h.symm.trans hp)
  have hC : Composes (PtrBy next) fun _ _ _ => True :=
    ⟨fun _ => same rfl, fun _ _ _ h g p hp => (g p hp).elim (h p) .inr, fun _ _ _ _ _ _ => trivial⟩
  exact { toComposes := hC, call := fun _ _ _ _ => same rfl, fail := fun _ _ _ _ => trivial, check := fun _ _ _ => trivial,
          tail := ends_poweredTail hC (fun _ _ _ _ => same rfl) (fun _ _ _ _ => trivial) (fun _ _ => same rfl) fun _ _ => same rfl,
          checks := fun cont w _ u => (by unfold EndsAt; rw [contCheck_apply]; exact same rfl),
          sets := fun u p hp q hq => .inr (Option.some.inj hq ▸ hp) }

theorem speedEvents_wellTyped (k : Bank) : ∀ e ∈ speedEvents k, wellTyped e = true := by
  unfold speedEvents
  cases k.speed <;> simp [wellTyped, Call.admits]

theorem abort_power {e : Err} (he : busPhase e = true) (n : Nat) : (abort c (some n) e u).pwrActive = false := by
  unfold abort abortCleanup
  rw [if_pos he]
  cases hp : u.pwrActive with
  | true => rfl
  | false => exact hp

theorem abort_contPtr {e : Err} (he : busPhase e = true) (n : Nat) : (abort c (some n) e u).contPtr = none := by
  unfold abort abortCleanup
  rw [if_pos he]
  rfl

theorem abort_wellTyped {e : Err} (he : busPhase e = true) (n : Nat) (h : ∀ e ∈ u.transcript, wellTyped e = true) :
    ∀ ev ∈ (abort c (some n) e u).transcript, wellTyped ev = true := by
  rw [abort_transcript he]
  intro ev hev
  rcases List.mem_append.mp hev with hev | hev
  · exact h ev hev
  · split at hev
    · rw [List.mem_singleton.mp hev]
      exact answerTo_admits _ _
    · cases hev

/-- What the invariant adds to the frame of a request with a bus phase (O28). -/
theorem inv_of_busFrame (h : Inv s) (hb : Busy s c) (ht : touchesBus i = true) (hi : i.bank? = some b) (hx : exec i s = .next t)
    (hpower : t.pwrActive = false) (hevents : ∀ e ∈ t.transcript, wellTyped e = true)
    (hcont : ∀ p, t.contPtr = some p → PtrInv t p) : Inv t := by
  obtain ⟨v, ptr, hz, pw, evs, r, rfl⟩ := busRequestFrame i s t c b hb ht hi hx
  refine inv_of_idle rfl (fun o ho => ?_) hcont (fun n k hk => ?_) hpower hevents
  · exact lt_of_lt_of_eq (h.owner o ho) (updatePort_nc s c _).symm
  · exact modify_bankInv (f := fun k => { k with speed := v }) (fun _ _ => h.bank) (fun _ _ => id) hk

/-- A request with a bus phase keeps the invariant. -/
theorem bus_keeps_inv (h : Inv s) (hb : Busy s c) (hc : c < s.nc) (ha : ∀ k ∈ s.banks, bankAdmitted k.cfg = true)
    (ht : touchesBus i = true) (hx : exec i s = .next t) : Inv t := by
  obtain ⟨r, hend⟩ := ending_of_exec hb hx
  have hports := hend.ports
  cases hend.course with
  | quiet _ _ _ _ still =>
    rw [still ht]
    exact h.congr (updatePort_nc s c _) rfl rfl rfl rfl rfl fun _ _ _ he => nomatch he
  | @beginFailed b k u hi hk hu =>
    refine inv_of_busFrame h hb ht hi hx (abort_power rfl _) (abort_wellTyped rfl _ (hu.typed h.events)) fun p hp => ?_
    rw [abort_contPtr rfl] at hp
    cases hp
  | @finished b k u v r hi hk hu h0 hv =>
    obtain ⟨hpower, -⟩ := hv _ _ pullUp_body hu.power
    obtain ⟨hbanks, xs, hxs, htyped⟩ := hv _ _ wellTyped_body
    refine inv_of_busFrame h hb ht hi hx hpower ?_ fun p hp => ?_
    · rw [deliver_transcript, hxs, hu.transcript]
      exact wellTyped_append (wellTyped_append h.events (speedEvents_wellTyped k)) htyped
    · rcases hv _ _ ptr_body p hp with hp | ⟨rfl, hbank, hoff⟩
      · exact nomatch hu.contPtr.symm.trans hp
      · obtain ⟨hstrat, hle⟩ := hoff (ha k (List.mem_of_getElem? hk))
        have hkb : s.banks[b.toNat]? = some k := hk
        refine ⟨lt_of_lt_of_eq hc ?_, { k with speed := .verified }, ?_, rfl, hstrat, hle⟩
        · rw [State.nc, State.nc, hports, List.length_modify]
        · rw [hbank, State.bank?, deliver_banks, hbanks, hu.banks, List.getElem?_modify_eq, hkb]
          rfl
  | @brokenOff b k u v e hi hk hu he hv =>
    obtain ⟨-, xs, hxs, htyped⟩ := hv _ _ wellTyped_body
    refine inv_of_busFrame h hb ht hi hx (abort_power he _) (abort_wellTyped he _ ?_) fun p hp => ?_
    · rw [hxs, hu.transcript]
      exact wellTyped_append (wellTyped_append h.events (speedEvents_wellTyped k)) htyped
    · rw [abort_contPtr he] at hp
      cases hp

/-! Requests without a bus phase. -/

/-- A write of one bank context that keeps configuration, SPEED_STATE and what the invariant says of the bank. -/
theorem inv_updateBank {n : Nat} {f : Bank → Bank} (h : Inv s) (hu : u = s.updateBank n f)
    (hcfg : ∀ k, (f k).cfg = k.cfg) (hspeed : ∀ k, (f k).speed = k.speed)
    (hf : ∀ k, s.bank? n = some k → BankInv k → BankInv (f k)) (c : Nat) (r : Response) : Inv (u.deliver c r) := by
  subst hu
  refine inv_of_idle rfl (fun o ho => ?_) (fun p hp => ?_) (fun j k hk => modify_bankInv (fun _ _ => h.bank) hf hk) h.power h.events
  · exact lt_of_lt_of_eq (h.owner o ho) (updatePort_nc s c _).symm
  · obtain ⟨hclient, k, hk, hsp, hst, hoff⟩ := h.cont p hp
    refine ⟨lt_of_lt_of_eq hclient (updatePort_nc s c _).symm, ?_⟩
    have hkb : s.banks[p.bank]? = some k := hk
    by_cases hn : n = p.bank
    · exact ⟨f k, by simp [State.bank?, hkb, hn], by rw [hspeed, hsp], by rwa [hcfg], by rwa [hcfg]⟩
    · exact ⟨k, by simp [State.bank?, hkb, hn], hsp, hst, hoff⟩

theorem inv_deliver (h : Inv s) (c : Nat) (r : Response) : Inv (s.deliver c r) :=
  h.congr (updatePort_nc s c _) rfl rfl rfl rfl rfl fun _ _ _ he => nomatch he

/-- The checks of a request on bank k pass, one by one. -/
theorem passes_checks {f : Bank → List (Bool × Err)} (hp : Passes s c i) (hchecks : checksOf s c i = withBank s b f)
    (hk : s.bank? b.toNat = some k) : ∀ x ∈ f k, x.1 = false := by
  rwa [Passes, hchecks, withBank_some hk, firstFailure_none] at hp

/-- A request without a bus phase keeps the invariant: its checks say that POWERED and credentials go to PASSWORD banks only. -/
theorem quiet_keeps_inv (h : Inv s) (hc : c < s.nc) (hp : Passes s c i) (r : Response) : Inv ((quietState i c s).deliver c r) := by
  cases i with
  | setWriteVerify b a =>
    exact inv_updateBank (u := quietState (.setWriteVerify b a) c s) h rfl (fun _ => rfl) (fun _ => rfl) (fun _ _ => id) c r
  | setPowered b a =>
    refine inv_updateBank (u := quietState (.setPowered b a) c s) h rfl (fun _ => rfl) (fun _ => rfl)
      (fun k hk hinv => ⟨fun _ => ?_, hinv.2⟩) c r
    simpa [bne] using passes_checks hp rfl hk _ (.head _)
  | setCredRw b d =>
    refine inv_updateBank (u := quietState (.setCredRw b d) c s) h rfl (fun _ => rfl) (fun _ => rfl)
      (fun k hk hinv => ⟨hinv.1, fun _ => ?_, hinv.2.2⟩) c r
    have hchecks := passes_checks hp rfl hk
    exact ⟨by simpa [bne] using hchecks _ (.head _), by simpa [bne] using hchecks _ (.tail _ (.head _))⟩
  | setCredRo b d =>
    refine inv_updateBank (u := quietState (.setCredRo b d) c s) h rfl (fun _ => rfl) (fun _ => rfl)
      (fun k hk hinv => ⟨hinv.1, hinv.2.1, fun _ => ?_⟩) c r
    have hchecks := passes_checks hp rfl hk
    exact ⟨by simpa [bne] using hchecks _ (.head _), by simpa [bne] using hchecks _ (.tail _ (.head _))⟩
  | clearCreds b =>
    have hupd := inv_updateBank (n := b.toNat) (f := fun k =>
      { k with credRw := unspecifiedCred s.draws k.cfg.pwLen, credRo := unspecifiedCred (s.draws + 1) k.cfg.pwLen,
               credRwValid := false, credRoValid := false }) h rfl (fun _ => rfl) (fun _ => rfl)
      (fun k _ hinv => ⟨hinv.1, fun hv => (by cases hv), fun hv => (by cases hv)⟩) c r
    exact hupd.congr rfl rfl rfl rfl rfl rfl fun _ _ _ he => nomatch he
  | acquire =>
    rw [quietState_acquire]
    split
    · refine inv_of_idle rfl (fun o ho => ?_) (fun p hp => nomatch hp) (fun _ _ => h.bank) h.power h.events
      cases ho
      exact lt_of_lt_of_eq hc (updatePort_nc s c _).symm
    · exact inv_deliver h c r
  | release => exact inv_of_idle rfl (fun o ho => nomatch ho) (fun p hp => nomatch hp) (fun _ _ => h.bank) h.power h.events
  | _ => exact inv_deliver h c r

/-! A step. -/

theorem exec_keeps_inv (h : Inv s) (ha : ∀ k ∈ s.banks, bankAdmitted k.cfg = true) (hb : Busy s c) (hx : exec i s = .next t) :
    Inv t := by
  have hc : c < s.nc := by
    obtain ⟨req, n, he⟩ := hb
    exact h.engine c req n he
  cases ht : touchesBus i with
  | true => exact bus_keeps_inv h hb hc ha ht hx
  | false =>
    obtain ⟨r, hend⟩ := ending_of_exec hb hx
    cases hend with
    | turned hf => exact inv_deliver h c _
    | done hp hr h0 =>
      obtain ⟨-, rfl⟩ := quiet_ok ht hp hr
      exact quiet_keeps_inv h hc hp r
    | broke hp ht' => rw [ht] at ht'; cases ht'

theorem runTaken_keeps_inv (h : Inv s) (ha : ∀ k ∈ s.banks, bankAdmitted k.cfg = true) (hx : runTaken s = .next t) : Inv t := by
  cases he : s.engine with
  | idle => simp [runTaken, he] at hx
  | busy c req n =>
    cases hd : decode s.nb req with
    | error e =>
      rw [runTaken_error he hd] at hx
      cases hx
      exact inv_deliver h c _
    | ok i =>
      rw [runTaken_ok he hd] at hx
      exact exec_keeps_inv h ha ⟨req, n, he⟩ hx

theorem takeAndRun_keeps_inv (h : Inv s) (ha : ∀ k ∈ s.banks, bankAdmitted k.cfg = true) (hx : takeAndRun s c = .next t) : Inv t := by
  cases htake : takeable s c with
  | none =>
    rw [takeAndRun_none htake] at hx
    cases hx
    exact h
  | some req =>
    rw [takeAndRun_some htake] at hx
    obtain ⟨resp, hp, -⟩ := (takeable_some_iff s c req).mp htake
    refine runTaken_keeps_inv (s := takeRequest s c req) (h.congr (updatePort_nc s c _) rfl rfl rfl rfl rfl ?_) ha hx
    intro c' req' n he
    cases he
    exact (List.getElem?_eq_some_iff.mp hp).1

theorem issueRequest_keeps_inv (h : Inv s) (hidle : s.engine = .idle) (req : Request) : Inv (issueRequest s c req) := by
  unfold issueRequest
  split
  · exact h.congr (updatePort_nc s c _) rfl rfl rfl rfl rfl fun _ _ _ he => nomatch hidle.symm.trans he
  · exact h

/-- Settles O15: between requests only ports, schedule and the count of free values change; a request keeps the invariant by its
course. -/
theorem stepKeepsInv : Obligations.StepKeepsInv := by
  intro s t h hstep
  have hadm : s.admitted = true := step_ne_refused_iff.mp fun hr => nomatch hr.symm.trans hstep
  obtain ⟨-, -, -, ha⟩ := State.admitted_iff.mp hadm
  cases he : s.engine with
  | busy c req n =>
    cases n with
    | zero =>
      rw [step_of_admitted_taken hadm he] at hstep
      exact runTaken_keeps_inv h ha hstep
    | succ n => simp [step, hadm, he] at hstep
  | idle =>
    have idle {t : State} (ht : t.engine = .idle) (c : Nat) (req : Request) (n : Nat) (hb : t.engine = .busy c req n) : c < s.nc :=
      nomatch ht.symm.trans hb
    rw [step_of_admitted_idle hadm he] at hstep
    cases hs : s.schedule with
    | nil =>
      have hchoice : Inv (afterChoice s) := h.congr rfl rfl rfl rfl rfl rfl (idle he)
      cases hch : chooseClient (Config.freeChoice s.draws) s with
      | some c =>
        rw [stepIdle_chooses hs hch] at hstep
        exact takeAndRun_keeps_inv hchoice ha hstep
      | none =>
        rw [stepIdle_waits hs hch] at hstep
        cases hstep
        exact hchoice
    | cons m rest =>
      have hrest : Inv { s with schedule := rest } := h.congr rfl rfl rfl rfl rfl rfl (idle he)
      rw [stepIdle_move hs] at hstep
      cases m with
      | take c => exact takeAndRun_keeps_inv hrest ha hstep
      | issue c req =>
        cases hstep
        exact issueRequest_keeps_inv hrest he req
      | consume c =>
        cases hstep
        exact hrest.congr (updatePort_nc _ c _) rfl rfl rfl rfl rfl (idle he)

end Sys2Proof.Machine

/-! The requests that make no transport call (45_config_scope_ops.md sections 2 to 4, 43_password_bank.md section 4), and the reads and
writes of no bytes: each by its checks and its one write of registers. -/

namespace Sys2Proof.Machine

variable {i : Instr} {s : State} {c : Nat} {b : Byte} {k : Bank} {f : Bank → List (Bool × Err)} {e : Err}

/-- A request without a bus phase whose checks pass makes its one write of registers and answers OK. -/
theorem exec_quiet (hb : Busy s c) (hq : touchesBus i = false) (hp : Passes s c i) :
    exec i s = .next (answered (quietState i c s) c ⟨0, quietValue i s, [], []⟩) := by
  obtain ⟨req, n, he⟩ := hb
  exact exec_ok he ((quiet_guarded hq).trans (guarded_passes hp))

/-- The checks of a request on a bank that is there. -/
theorem firstFailure_bank (hk : s.bank? b.toNat = some k) (h : checksOf s c i = withBank s b f) :
    firstFailure (checksOf s c i) = firstFailure (f k) := by
  rw [h, withBank_some hk]

theorem bankValue_some (hk : s.bank? b.toNat = some k) (g : BankConfig → Word) : bankValue s b g = g k.cfg := by
  rw [bankValue, hk]

/-- A configuration query (R320 to R324). -/
theorem query_answers {g : BankConfig → Word} (hrun : Running s c b k) (hq : touchesBus i = false)
    (hchecks : checksOf s c i = withBank s b fun _ => []) (hstate : quietState i c s = s)
    (hvalue : quietValue i s = bankValue s b g) : exec i s = .next (answered s c ⟨0, g k.cfg, [], []⟩) := by
  obtain ⟨hb, hk⟩ := hrun
  rw [exec_quiet hb hq (firstFailure_bank hk hchecks), hstate, hvalue, bankValue_some hk]

/-- Settles O30. -/
theorem queriesAnswer : Obligations.QueriesAnswer := by
  intro s c b k hrun
  exact ⟨query_answers (g := fun k => BitVec.ofNat 32 k.size) hrun rfl rfl rfl rfl,
    query_answers (g := fun k => BitVec.ofNat 32 k.pageLength) hrun rfl rfl rfl rfl,
    query_answers (g := fun k => BitVec.ofNat 32 (maxPacket k)) hrun rfl rfl rfl rfl,
    query_answers (g := fun k => k.flags.setWidth 32) hrun rfl rfl rfl rfl,
    query_answers (g := fun k => BitVec.ofNat 32 k.extraLen) hrun rfl rfl rfl rfl⟩

theorem bitOperand_iff {a : Half} : a.extractLsb' 1 15 = 0#15 ↔ ¬ 1 < a.toNat := by
  have h := bitOperandOk_eq a
  rw [bitOperandOk, ← decide_not, beq_eq_decide, decide_eq_decide] at h
  exact h

/-- Settles O31: its one check is the operand's. -/
theorem setWriteVerifyWrites : Obligations.SetWriteVerifyWrites := by
  intro s c b a k ⟨hb, hk⟩
  have hf := firstFailure_bank (c := c) (i := .setWriteVerify b a) hk rfl
  rw [Ne, bitOperand_iff]
  refine ⟨fun ha => exec_quiet hb rfl (hf.trans ?_), fun ha => preconditionFailures _ s c _ hb (hf.trans ?_)⟩
  · simp [firstFailure, ha]
  · simp [firstFailure, not_not.mp ha]

/-- Settles O32: the bank's strategy is checked first, then the operand. -/
theorem setPoweredWrites : Obligations.SetPoweredWrites := by
  intro s c b a k ⟨hb, hk⟩
  have hf := firstFailure_bank (c := c) (i := .setPowered b a) hk rfl
  rw [Ne, Ne, bitOperand_iff]
  refine ⟨fun hs ha => exec_quiet hb rfl (hf.trans ?_), fun h => preconditionFailures _ s c _ hb (hf.trans ?_)⟩
  · simp [firstFailure, ha, hs]
  · rcases h with hs | ha
    · simp [firstFailure, hs]
    · simp [firstFailure, not_not.mp ha]

/-- The checks of SET_CRED_RW and SET_CRED_RO (R255, R256). -/
theorem setCred_checks {d : List Byte} (hk : s.bank? b.toNat = some k)
    (h : checksOf s c i = withBank s b fun k => [(k.cfg.strategy != .password, .unsupportedOperation),
      (d.length != k.cfg.pwLen, .unsupportedOperation)]) :
    (k.cfg.strategy = .password → d.length = k.cfg.pwLen → Passes s c i) ∧
    (k.cfg.strategy ≠ .password ∨ d.length ≠ k.cfg.pwLen → firstFailure (checksOf s c i) = some .unsupportedOperation) := by
  have hf := firstFailure_bank hk h
  refine ⟨fun hs hd => hf.trans (by simp [firstFailure, hs, hd]), fun hne => hf.trans ?_⟩
  rcases hne with hs | hd
  · simp [firstFailure, hs]
  · simp [firstFailure, hd]

/-- Settles O33: both requests have the same checks. -/
theorem setCredWrites : Obligations.SetCredWrites := by
  intro s c b d k ⟨hb, hk⟩
  obtain ⟨hrw, hrw'⟩ := setCred_checks (c := c) (i := .setCredRw b d) hk rfl
  obtain ⟨hro, hro'⟩ := setCred_checks (c := c) (i := .setCredRo b d) hk rfl
  exact ⟨fun hs hd => ⟨exec_quiet hb rfl (hrw hs hd), exec_quiet hb rfl (hro hs hd)⟩,
    fun h => ⟨preconditionFailures _ s c _ hb (hrw' h), preconditionFailures _ s c _ hb (hro' h)⟩⟩

theorem unspecifiedCred_length (n len : Nat) : (unspecifiedCred n len).length = len := by simp [unspecifiedCred]

/-- Settles O34: the contents are the free values of the bank's own PW_LEN (log 11). -/
theorem clearCredsForgets : Obligations.ClearCredsForgets := by
  intro s c b k ⟨hb, hk⟩
  have hf := firstFailure_bank (c := c) (i := .clearCreds b) hk rfl
  refine ⟨fun hs => ⟨unspecifiedCred s.draws k.cfg.pwLen, unspecifiedCred (s.draws + 1) k.cfg.pwLen, unspecifiedCred_length _ _,
    unspecifiedCred_length _ _, ?_⟩, fun hs => preconditionFailures _ s c _ hb (hf.trans (by simp [firstFailure, hs]))⟩
  have hmod : (s.banks.modify b.toNat fun k =>
      { k with credRw := unspecifiedCred s.draws k.cfg.pwLen, credRo := unspecifiedCred (s.draws + 1) k.cfg.pwLen,
               credRwValid := false, credRoValid := false }) = s.banks.modify b.toNat fun k' =>
      { k' with credRw := unspecifiedCred s.draws k.cfg.pwLen, credRo := unspecifiedCred (s.draws + 1) k.cfg.pwLen,
                credRwValid := false, credRoValid := false } := modify_congr (a := k) hk (by rfl)
  rw [← hmod]
  exact exec_quiet hb rfl (hf.trans (by simp [firstFailure, hs]))

/-- Settles O35: ACQUIRE has no checks, and writes only where the scope is free. -/
theorem acquireTakesScope : Obligations.AcquireTakesScope := by
  intro s c hb
  rw [exec_quiet (i := .acquire) hb rfl rfl, quietState_acquire]
  refine ⟨fun ho => ?_, fun ho => ?_⟩
  · rw [if_pos ho]
    rfl
  · rw [if_neg (by simp [ho])]
    rfl

/-- Settles O36: its one check is the owner's. -/
theorem releaseEndsScope : Obligations.ReleaseEndsScope := by
  intro s c hb
  exact ⟨fun ho => exec_quiet hb rfl (by simp [Passes, checksOf, firstFailure, ho]),
    fun ho => preconditionFailures _ s c _ hb (by simp [checksOf, firstFailure, ho])⟩

/-- A request with a bus phase whose checks pass runs its body. -/
theorem rule_eq_body (ht : touchesBus i = true) (hi : i.bank? = some b) (hk : s.bank? b.toNat = some k) (hp : Passes s c i) :
    ruleOf i c s = bodyOf i c k s s := (bus_guarded ht hi hk).trans (guarded_passes hp)

/-- Settles O37: a body of no bytes is an OK response before BEGIN_BUS. -/
theorem zeroLengthSucceeds : Obligations.ZeroLengthSucceeds := by
  intro s c cont b a ⟨req, n, he⟩
  refine ⟨fun hp => ?_, fun hp => ?_⟩ <;> obtain ⟨k, hk⟩ := passes_bank hp rfl
  · exact exec_ok he (rule_eq_body rfl rfl hk hp)
  · exact exec_ok he (rule_eq_body rfl rfl hk hp)

end Sys2Proof.Machine

/-! Requests with a bus phase, on given answers: a body is BEGIN_BUS and a transfer, with or without the continuation check and pointer
around it, so its end follows from what the transfer plays (`Plays`) or breaks off with (`Breaks`). -/

namespace Sys2Proof.Machine

variable {α : Type} {i : Instr} {s : State} {c : Nat} {b : Byte} {k : Bank} {evs : List Event} {e : Err} {r : Response}

/-- ENGINE runs request i of client c, on bank k with its checks passed, and the transport will answer the speed traffic and then as in
`evs`. -/
structure BusRun (i : Instr) (s : State) (c : Nat) (b : Byte) (k : Bank) (evs : List Event) : Prop where
  run : Running s c b k
  passes : Passes s c i
  touches : touchesBus i = true
  bank : i.bank? = some b
  answers : Answering s (speedEvents k ++ evs)

theorem busDone_false (s : State) (b : Nat) (k : Bank) (evs : List Event) :
    busDone s b k false evs = afterEvents evs (begun s b k) := by
  have hsame : { begun s b k with hazard := s.hazard || false } = begun s b k := by
    rw [Bool.or_false, ← begun_hazard s b k]
  rw [busDone, hsame]

/-- CONT_CHECK at the beginning of the bus phase, then a transfer that plays `evs` (42_crc_bank.md R204). -/
theorem contCheck_plays {cont : Bool} {w : ContPtr} {tr : Bus α} {a : α} {n : Nat} {rest : List Answer}
    (htr : Plays s.crc evs tr a) (hans : (begun s n k).answers = answersOf evs ++ rest) :
    (contCheck cont w s.contPtr >>= fun _ => tr) (begun s n k) = .ok a (busDone s n k (mismatched s cont w) evs) := by
  rw [bind_ok (contCheck_apply _ _ _ _), begun_hazard]
  exact htr _ rest (begun_crc s n k) (begun_pwrActive s n k) hans

theorem contCheck_breaks {cont : Bool} {w : ContPtr} {tr : Bus α} {n : Nat} {rest : List Answer}
    (htr : Breaks s.crc evs tr e) (hans : (begun s n k).answers = answersOf evs ++ rest) :
    (contCheck cont w s.contPtr >>= fun _ => tr) (begun s n k) = .error e (busDone s n k (mismatched s cont w) evs) := by
  rw [bind_ok (contCheck_apply _ _ _ _), begun_hazard]
  exact htr _ rest (begun_crc s n k) (begun_pwrActive s n k) hans

/-- The bus phase of a read that may continue one before it: CONT_CHECK, the transfer, CONT_SET, and the response (42_crc_bank.md R204,
R205). -/
def continuedRead (cont : Bool) (want ptr : ContPtr) (tr : Bus α) (out : α → Response) (prev : Option ContPtr) : Bus Response :=
  (contCheck cont want prev >>= fun _ => tr) >>= fun a => contSet ptr >>= fun _ => pure (out a)

namespace BusRun

variable (h : BusRun i s c b k evs)

include h

theorem body_eq : ruleOf i c s = bodyOf i c k s s := rule_eq_body h.touches h.bank h.run.2 h.passes

/-- BEGIN_BUS runs, and then the answers of `evs` are next. -/
theorem begins : ∃ rest, beginBus b.toNat s = .ok s.contPtr (begun s b.toNat k) ∧
    (begun s b.toNat k).answers = answersOf evs ++ rest := by
  obtain ⟨rest, hans⟩ := h.answers
  rw [answersOf_append, List.append_assoc] at hans
  exact ⟨rest, beginBus_run h.run.2 hans, begun_answers hans⟩

/-- The request fails, if its rule breaks off after `evs`. -/
theorem fails {m : Bool} (he : busPhase e = true) (hr : ruleOf i c s = .error e (busDone s b.toNat k m evs)) :
    exec i s = .next (failed s c b.toNat k (speedEvents k ++ evs) m e) := by
  obtain ⟨⟨req, n, heng⟩, hk⟩ := h.run
  rw [exec_error heng hr, bankOf, h.bank]
  exact congrArg _ (abort_failed m evs hk he)

/-- A body without a continuation check whose transfer plays `evs`. -/
theorem completes {m : Bus Response} (hbody : bodyOf i c k s = beginBus b.toNat >>= fun _ => m) (hm : Plays s.crc evs m r) :
    exec i s = .next (completed s c b.toNat (speedEvents k ++ evs) none false r) := by
  obtain ⟨rest, hbegin, hans⟩ := h.begins
  obtain ⟨⟨req, n, heng⟩, -⟩ := h.run
  have hrule : ruleOf i c s = .ok r (busDone s b.toNat k false evs) := by
    rw [h.body_eq, hbody, bind_ok hbegin, busDone_false]
    exact hm _ rest (begun_crc _ _ _) (begun_pwrActive _ _ _) hans
  rw [exec_ok heng hrule, deliver_completed_none]

/-- A body without a continuation check whose transfer breaks off after `evs`. -/
theorem breaks {m : Bus Response} (hbody : bodyOf i c k s = beginBus b.toNat >>= fun _ => m) (he : busPhase e = true)
    (hm : Breaks s.crc evs m e) : exec i s = .next (failed s c b.toNat k (speedEvents k ++ evs) false e) := by
  obtain ⟨rest, hbegin, hans⟩ := h.begins
  refine h.fails he ?_
  rw [h.body_eq, hbody, bind_ok hbegin, busDone_false]
  exact hm _ rest (begun_crc _ _ _) (begun_pwrActive _ _ _) hans

/-- A continued read whose transfer plays `evs`. -/
theorem read_completes {cont : Bool} {w ptr : ContPtr} {tr : Bus α} {out : α → Response} {a : α}
    (hbody : bodyOf i c k s = beginBus b.toNat >>= continuedRead cont w ptr tr out) (htr : Plays s.crc evs tr a) :
    exec i s = .next (completed s c b.toNat (speedEvents k ++ evs) (some ptr) (mismatched s cont w) (out a)) := by
  obtain ⟨rest, hbegin, hans⟩ := h.begins
  obtain ⟨⟨req, n, heng⟩, -⟩ := h.run
  have hrule : ruleOf i c s = .ok (out a) ((busDone s b.toNat k (mismatched s cont w) evs).setCont (some ptr)) := by
    rw [h.body_eq, hbody, bind_ok hbegin, continuedRead, bind_ok (contCheck_plays htr hans)]
    rfl
  rw [exec_ok heng hrule, deliver_completed]

/-- A continued read whose transfer breaks off after `evs`. -/
theorem read_breaks {cont : Bool} {w ptr : ContPtr} {tr : Bus α} {out : α → Response}
    (hbody : bodyOf i c k s = beginBus b.toNat >>= continuedRead cont w ptr tr out) (he : busPhase e = true)
    (htr : Breaks s.crc evs tr e) :
    exec i s = .next (failed s c b.toNat k (speedEvents k ++ evs) (mismatched s cont w) e) := by
  obtain ⟨rest, hbegin, hans⟩ := h.begins
  refine h.fails he ?_
  rw [h.body_eq, hbody, bind_ok hbegin, continuedRead, bind_error (contCheck_breaks htr hans)]

end BusRun

/-! ### The bodies, as a transfer in its place -/

theorem bodyOf_read {cont : Bool} {a l : Half} (hl : l ≠ 0) : bodyOf (.read cont b a l) c k s =
    beginBus b.toNat >>= fun prev => readTransfer c b.toNat k a.toNat l.toNat cont prev >>= fun r => pure (okResponse 0 r []) := by
  have hn : l.toNat ≠ 0 := fun h => hl (BitVec.eq_of_toNat_eq h)
  exact if_neg hn

theorem nativeRead_continued (c b : Nat) (k : Bank) (o n : Nat) (cont : Bool) (prev : Option ContPtr) :
    (nativeRead c b k o n cont prev >>= fun r => pure (okResponse 0 r [])) =
      continuedRead cont ⟨c, b, .byte, o⟩ ⟨c, b, .byte, o + n⟩ (fetchData k cont k.cfg.cmdRead (phys k.cfg o) n)
        (fun r => okResponse 0 r []) prev := by
  simp only [nativeRead, continuedRead, bind_assoc, pure_bind]

theorem crcReadRange_continued (c b : Nat) (k : Bank) (o n : Nat) (cont : Bool) (prev : Option ContPtr) :
    (crcReadRange c b k o n cont prev >>= fun r => pure (okResponse 0 r [])) =
      continuedRead cont ⟨c, b, .page, pageOffset k.cfg (firstPage k.cfg o)⟩
        ⟨c, b, .page, pageOffset k.cfg (lastPage k.cfg o n + 1)⟩ (crcPages k cont (coveringPages k.cfg o n))
        (fun buf => okResponse 0 (slice buf (o - pageOffset k.cfg (firstPage k.cfg o)) n) []) prev := by
  simp only [crcReadRange, continuedRead, bind_assoc, pure_bind]

theorem pageReadEnd_continued (c b : Nat) (k : Bank) (p : Nat) (cont x : Bool) : pageReadEnd c cont b k p x =
    beginBus b >>= continuedRead cont ⟨c, b, .page, pageOffset k.cfg p⟩ ⟨c, b, .page, pageOffset k.cfg (p + 1)⟩
      (crcPage k p cont) (fun page => okResponse 0 page.1 (if x then page.2 else [])) := by
  simp only [pageReadEnd, pageReadBody, bind_assoc, pure_bind]
  exact congrArg _ (funext fun prev => by simp only [continuedRead, bind_assoc])

theorem packetReadBody_continued (c b : Nat) (k : Bank) (p : Nat) (cont : Bool) : packetReadBody c cont b k p =
    beginBus b >>= continuedRead cont ⟨c, b, .page, pageOffset k.cfg p⟩ ⟨c, b, .page, pageOffset k.cfg (p + 1)⟩
      (crcPage k p cont >>= packetRead k p) (fun out => okResponse (BitVec.ofNat 32 out.2) out.1 []) := by
  simp only [packetReadBody, pageReadBody, bind_assoc, pure_bind]
  exact congrArg _ (funext fun prev => by simp only [continuedRead, bind_assoc])

theorem readPageBody_plain {b p : Nat} {cont : Bool} (h : k.cfg.strategy = .plain) :
    readPageBody c cont b k p = plainPageBody c cont b k p := by
  rw [readPageBody, h]

theorem readPageBody_crc {b p : Nat} {cont : Bool} (h : crcStrategy k.cfg = true) :
    readPageBody c cont b k p = pageReadEnd c cont b k p false := by
  rcases crcStrategy_iff.mp h with h | h <;> rw [readPageBody, h]

theorem readPageBody_scratchpad {b p : Nat} {cont : Bool} (h : k.cfg.strategy = .scratchpad) :
    readPageBody c cont b k p = spPageBody b k p := by
  rw [readPageBody, h]

/-! ### Native reads -/

/-- Settles O38. -/
theorem nativeReadCompletes : Obligations.NativeReadCompletes := by
  intro s c cont b a l k echoed ph evs hrun hp hsp hnat hlen hne hecho hevs hans
  subst hevs
  have hl : l ≠ 0 := by
    rintro rfl
    exact hne (List.length_eq_zero_iff.mp hlen)
  refine BusRun.read_completes (i := .read cont b a l) (out := fun r => okResponse 0 r [])
    ⟨hrun, hp, rfl, rfl, hans⟩ ?_ (plays_fetchData hecho hlen)
  rw [bodyOf_read hl]
  refine congrArg _ (funext fun prev => ?_)
  rw [readTransfer, if_neg hsp, if_pos hnat]
  exact nativeRead_continued ..

/-- Settles O39. -/
theorem plainPageReadCompletes : Obligations.PlainPageReadCompletes := by
  intro s c cont b p k echoed ph evs hrun hp hplain hlen hecho hevs hans
  subst hevs
  refine BusRun.read_completes (i := .readPage cont b p) (out := fun r => okResponse 0 r [])
    ⟨hrun, hp, rfl, rfl, hans⟩ ?_ (plays_fetchData hecho hlen)
  refine (readPageBody_plain hplain).trans ?_
  exact congrArg (beginBus b.toNat >>= ·) (funext fun prev => nativeRead_continued ..)

/-! ### Page reads on CRC and PASSWORD banks -/

/-- Settles O42: the four requests differ in their checks and in the extra info only. -/
theorem pageReadsComplete : Obligations.PageReadsComplete := by
  intro s c cont b p k echoed ph evs done hrun hvalid hecho hevs hans hdone
  subst hevs
  have page {i : Instr} {x : Bool} (ht : touchesBus i = true) (hi : i.bank? = some b)
      (hbody : bodyOf i c k s = pageReadEnd c cont b.toNat k p.toNat x) (hp : Passes s c i) :
      exec i s = .next (done (if x then slice ph k.cfg.pageLength k.cfg.extraLen else [])) := by
    rw [hdone]
    exact BusRun.read_completes (out := fun page => okResponse 0 page.1 (if x then page.2 else [])) ⟨hrun, hp, ht, hi, hans⟩
      (hbody.trans (pageReadEnd_continued ..)) (plays_crcPage hecho hvalid)
  exact ⟨fun hp hcrc => page (i := .readPage cont b p) (x := false) rfl rfl (readPageBody_crc hcrc) hp,
    page (x := false) rfl rfl rfl, page (x := true) rfl rfl rfl, page (x := true) rfl rfl rfl⟩

/-- The page reads of CRC and PASSWORD banks and READ_PAGE_PACKET. -/
def ReadsPage (i : Instr) (cont : Bool) (b : Byte) (p : Half) (k : Bank) : Prop :=
  i = .readPage cont b p ∧ crcStrategy k.cfg = true ∨ i = .readPageCrc cont b p ∨ i = .readPageExtra cont b p ∨
    i = .readPageCrcExtra cont b p ∨ i = .readPagePacket cont b p

/-- Each of them ends where its CRC page read breaks off. -/
theorem readsPage_breaks {cont : Bool} {p : Half} (hi : ReadsPage i cont b p k) (hrun : Running s c b k) (hp : Passes s c i)
    (hans : Answering s (speedEvents k ++ evs)) (he : busPhase e = true) (hpage : Breaks s.crc evs (crcPage k p.toNat cont) e) :
    exec i s = .next (failed s c b.toNat k (speedEvents k ++ evs)
      (mismatched s cont ⟨c, b.toNat, .page, p.toNat * k.cfg.pageLength⟩) e) := by
  rcases hi with ⟨rfl, hcrc⟩ | rfl | rfl | rfl | rfl
  · exact BusRun.read_breaks (i := .readPage cont b p) ⟨hrun, hp, rfl, rfl, hans⟩
      ((readPageBody_crc hcrc).trans (pageReadEnd_continued ..)) he hpage
  · exact BusRun.read_breaks ⟨hrun, hp, rfl, rfl, hans⟩ (pageReadEnd_continued c b.toNat k p.toNat cont false) he hpage
  · exact BusRun.read_breaks ⟨hrun, hp, rfl, rfl, hans⟩ (pageReadEnd_continued c b.toNat k p.toNat cont true) he hpage
  · exact BusRun.read_breaks ⟨hrun, hp, rfl, rfl, hans⟩ (pageReadEnd_continued c b.toNat k p.toNat cont true) he hpage
  · exact BusRun.read_breaks ⟨hrun, hp, rfl, rfl, hans⟩ (packetReadBody_continued c b.toNat k p.toNat cont) he (hpage.bind)

/-- Settles O49. -/
theorem badPageFails : Obligations.BadPageFails := by
  intro s c cont b p k echoed ph evs i hrun hp hi hlen hcrc hecho hevs hans
  subst hevs
  exact readsPage_breaks hi hrun hp hans rfl (breaks_crcPage hecho hlen ((crcValid_eq_false_iff _ _ _).mpr hcrc))

/-! ### Packets -/

theorem slice_slice {bs : List Byte} {m j n : Nat} (h : j + n ≤ m) : slice (slice bs 0 m) j n = slice bs j n := by
  simp only [slice, List.drop_zero, List.drop_take, List.take_take]
  rw [Nat.min_eq_left (by omega)]

theorem headD_slice {bs : List Byte} {m : Nat} {n d : Byte} (h : bs.head? = some n) (hm : 1 ≤ m) : (slice bs 0 m).headD d = n := by
  cases bs with
  | nil => cases h
  | cons x xs =>
    cases h
    obtain ⟨m, rfl⟩ : ∃ m', m = m' + 1 := ⟨m - 1, by omega⟩
    rfl

section PacketDecode

variable {f : Checksum} {g : BankConfig} {p : Nat} {data : List Byte} {n : Nat}

theorem packetDecode_tooLong (hn : (data.headD 0).toNat = n) (h : maxPacket g < n) :
    packetDecode f g p data = .error .invalidPacketLength := by
  simp only [packetDecode, hn, if_pos h]

theorem packetDecode_bad (hn : (data.headD 0).toNat = n) (h : n ≤ maxPacket g)
    (hv : crcValid f (packetSeed g p) (slice data 0 (n + 3)) = false) : packetDecode f g p data = .error .checksumMismatch := by
  simp only [packetDecode, hn, if_neg (Nat.not_lt.mpr h), hv]
  rfl

theorem packetDecode_good (hn : (data.headD 0).toNat = n) (h : n ≤ maxPacket g)
    (hv : crcValid f (packetSeed g p) (slice data 0 (n + 3)) = true) : packetDecode f g p data = .ok (slice data 1 n, n) := by
  simp only [packetDecode, hn, if_neg (Nat.not_lt.mpr h), hv, if_true]

theorem plays_packetRead {page : List Byte × List Byte} {out : List Byte × Nat} (h : packetDecode f k.cfg p page.1 = .ok out) :
    Plays f [] (packetRead k p page) out := by
  intro s rest hf _ _
  simp only [packetRead, hf, h]
  rfl

theorem breaks_packetRead {page : List Byte × List Byte} (h : packetDecode f k.cfg p page.1 = .error e) :
    Breaks f [] (packetRead k p page) e := by
  intro s rest hf _ _
  simp only [packetRead, hf, h]
  rfl

end PacketDecode

theorem packetSeed_toNat (g : BankConfig) (p : Half) : packetSeed g p.toNat = p + g.packetSeedOffset := by
  rw [packetSeed, BitVec.ofNat_toNat, BitVec.setWidth_eq]

/-- Settles O44. -/
theorem packetReadCompletes : Obligations.PacketReadCompletes := by
  intro s c cont b p k echoed ph n evs hrun hp hvalid hhead hn hfits hcrc hecho hevs hans
  subst hevs
  have hdecode : packetDecode s.crc k.cfg p.toNat (slice ph 0 k.cfg.pageLength) = .ok (slice ph 1 n.toNat, n.toNat) := by
    rw [packetDecode_good (n := n.toNat) (by rw [headD_slice hhead (by omega)]) hn, slice_slice (by omega)]
    rw [slice_slice (by omega), packetSeed_toNat]
    exact hcrc
  have h := BusRun.read_completes ⟨hrun, hp, rfl, rfl, hans⟩ (packetReadBody_continued c b.toNat k p.toNat cont)
    (Plays.bind_last (plays_crcPage hecho hvalid) (plays_packetRead hdecode))
  rw [h, BitVec.ofNat_toNat]
  rfl

/-- Settles O51: after the valid page, the decoding breaks off. -/
theorem badPacketFails : Obligations.BadPacketFails := by
  intro s c cont b p k echoed ph n evs e hrun hp hvalid hhead hfits herr hecho hevs hans
  subst hevs
  have hhd : ((slice ph 0 k.cfg.pageLength).headD 0).toNat = n.toNat := by rw [headD_slice hhead (by omega)]
  have hdecode : busPhase e = true ∧ packetDecode s.crc k.cfg p.toNat (slice ph 0 k.cfg.pageLength) = .error e := by
    rcases herr with ⟨hlong, rfl⟩ | ⟨hle, hcrc, rfl⟩
    · exact ⟨rfl, packetDecode_tooLong hhd hlong⟩
    · refine ⟨rfl, packetDecode_bad hhd hle ?_⟩
      rw [slice_slice (by omega), packetSeed_toNat]
      exact hcrc
  refine BusRun.read_breaks ⟨hrun, hp, rfl, rfl, hans⟩ (packetReadBody_continued c b.toNat k p.toNat cont) hdecode.1 ?_
  exact Breaks.cast (List.append_nil _).symm (Plays.breaks (plays_crcPage hecho hvalid) (breaks_packetRead hdecode.2))

/-! ### Range reads -/

theorem bodyOf_rangeRead {cont : Bool} {a l : Half} (hl : l ≠ 0) (hsp : k.cfg.strategy ≠ .scratchpad)
    (hnat : k.cfg.hasNativeRead = false) : bodyOf (.read cont b a l) c k s =
    beginBus b.toNat >>= continuedRead cont ⟨c, b.toNat, .page, pageOffset k.cfg (firstPage k.cfg a.toNat)⟩
      ⟨c, b.toNat, .page, pageOffset k.cfg (lastPage k.cfg a.toNat l.toNat + 1)⟩
      (crcPages k cont (coveringPages k.cfg a.toNat l.toNat))
      (fun buf => okResponse 0 (slice buf (a.toNat - pageOffset k.cfg (firstPage k.cfg a.toNat)) l.toNat) []) := by
  rw [bodyOf_read hl]
  refine congrArg _ (funext fun prev => ?_)
  rw [readTransfer, if_neg hsp, if_neg (by simp [hnat])]
  exact crcReadRange_continued ..

theorem coveringPages_head {g : BankConfig} {a l : Half} (hl : l ≠ 0) :
    (coveringPages g a.toNat l.toNat).head? = some (firstPage g a.toNat) := by
  have hn : l.toNat ≠ 0 := fun h => hl (BitVec.eq_of_toNat_eq h)
  obtain ⟨ps, hps⟩ := coveringPages_cons g (o := a.toNat) (n := l.toNat) (by omega)
  rw [hps]
  rfl

/-- Settles O40. -/
theorem rangeReadCompletes : Obligations.RangeReadCompletes := by
  intro s c cont b a l k echoed pages evs hrun hp hsp hnat hl hpages hvalid hecho hevs hans
  subst hevs
  have hfirst (g : Nat × List Byte) (hg : pages.head? = some g) :
      EchoFits k cont k.cfg.cmdReadCrc (phys k.cfg (pageOffset k.cfg g.1)) echoed := by
    have hhead := coveringPages_head (g := k.cfg) (a := a) hl
    rw [← hpages, List.head?_map, hg] at hhead
    rw [Option.some.inj hhead]
    exact hecho
  have h := BusRun.read_completes ⟨hrun, hp, rfl, rfl, hans⟩ (bodyOf_rangeRead hl hsp hnat) (hpages ▸ plays_crcPages hfirst hvalid)
  exact h

/-- A range read breaks off at its first bad page (42_crc_bank.md R210). -/
theorem breaks_crcPages {f : Checksum} {cont : Bool} {echoed bad : List Byte} {good : List (Nat × List Byte)} {p : Nat}
    {later : List Nat}
    (he : ∀ g, (good.map Prod.fst ++ [p]).head? = some g →
      EchoFits k cont k.cfg.cmdReadCrc (phys k.cfg (pageOffset k.cfg g)) echoed)
    (hv : RangeValid f k cont good) (hl : bad.length = checkedLength k.cfg + verifyBytes k (cont || good ≠ []))
    (hb : crcValid f (pageSeed f k.cfg p (cont || good ≠ [])) (slice bad 0 (checkedLength k.cfg)) = false) :
    Breaks f (rangeEvents k cont echoed (good ++ [(p, bad)])) (crcPages k cont (good.map Prod.fst ++ p :: later))
      .checksumMismatch := by
  induction good generalizing cont echoed with
  | nil =>
    simp only [ne_eq, not_true_eq_false, decide_false, Bool.or_false] at hl hb
    exact Breaks.cast (List.append_nil _) (breaks_crcPage (he p rfl) hl hb).bind
  | cons g good ih =>
    obtain ⟨q, ph⟩ := g
    have htrue : (cont || decide ((q, ph) :: good ≠ [])) = (true || decide (good ≠ [])) := by simp
    rw [htrue] at hl hb
    exact Plays.breaks (plays_crcPage (he q rfl) hv.1) (ih (cont := true) (echoed := []) (fun _ _ h => nomatch h) hv.2 hl hb).bind

/-- Settles O50. -/
theorem badPageEndsRange : Obligations.BadPageEndsRange := by
  intro s c cont b a l k echoed good p bad later evs hrun hp hsp hnat hl hpages hvalid hlen hcrc hecho hevs hans
  subst hevs
  have hfirst (g : Nat) (hg : (good.map Prod.fst ++ [p]).head? = some g) :
      EchoFits k cont k.cfg.cmdReadCrc (phys k.cfg (pageOffset k.cfg g)) echoed := by
    have hhead := coveringPages_head (g := k.cfg) (a := a) hl
    have hsame : (good.map Prod.fst ++ p :: later).head? = (good.map Prod.fst ++ [p]).head? := by cases good <;> rfl
    rw [← hpages, hsame, hg] at hhead
    rw [Option.some.inj hhead]
    exact hecho
  exact BusRun.read_breaks ⟨hrun, hp, rfl, rfl, hans⟩ (bodyOf_rangeRead hl hsp hnat) rfl
    (hpages ▸ breaks_crcPages hfirst hvalid hlen hcrc)

/-! ### Scratchpad reads -/

theorem bodyOf_spRead {a l : Half} (hl : l ≠ 0) (hsp : k.cfg.strategy = .scratchpad) : bodyOf (.read false b a l) c k s =
    beginBus b.toNat >>= fun _ => spReadPages k (coveringPages k.cfg a.toNat l.toNat) >>= fun buf =>
      pure (okResponse 0 (slice buf (a.toNat - pageOffset k.cfg (firstPage k.cfg a.toNat)) l.toNat) []) := by
  rw [bodyOf_read hl]
  refine congrArg _ (funext fun prev => ?_)
  rw [readTransfer, if_pos hsp]
  simp only [spReadRange, bind_assoc, pure_bind]

/-- Settles O41. -/
theorem scratchpadReadCompletes : Obligations.ScratchpadReadCompletes := by
  intro s c b a l k gs evs hrun hp hsp hl hpages hgood hevs hans
  subst hevs
  exact BusRun.completes ⟨hrun, hp, rfl, rfl, hans⟩ (bodyOf_spRead hl hsp)
    (Plays.bind_last (hpages ▸ plays_spReadPages hgood) (Plays.pure _ _))

theorem bodyOf_spPage {p : Half} (hsp : k.cfg.strategy = .scratchpad) : bodyOf (.readPage false b p) c k s =
    beginBus b.toNat >>= fun _ => spReadPage k p.toNat >>= fun r => pure (okResponse 0 r []) := readPageBody_scratchpad hsp

/-- Settles O43. -/
theorem scratchpadPageReadCompletes : Obligations.ScratchpadPageReadCompletes := by
  intro s c b p k g evs hrun hp hsp hgp hgood hevs hans
  subst hevs
  exact BusRun.completes ⟨hrun, hp, rfl, rfl, hans⟩ (bodyOf_spPage hsp)
    (Plays.bind_last (hgp ▸ plays_spReadPage hgood) (Plays.pure _ _))

/-- A scratchpad read whose bytes do not give the residue (44_scratchpad_commit.md R282). -/
theorem breaks_readSp {f : Checksum} {e : Byte} {rx : List Byte} (hl : rx.length = k.cfg.spMetaLen + k.cfg.pageLength + 2)
    (hv : crcValid f 0 (k.cfg.cmdReadSp :: rx) = false) : Breaks f (readSpEvents k e rx) (readSp k) .checksumMismatch := by
  have hs : slice (e :: rx) 1 (k.cfg.spMetaLen + k.cfg.pageLength + 2) = rx := by
    rw [← hl]
    exact slice_append_right [e] rx
  refine Plays.breaks (xs := [selectEvent k]) (plays_select k)
    (Breaks.cast (List.append_nil _).symm (Plays.breaks (plays_exchange (by simp [hl, length_filler])) ?_))
  rw [hs]
  exact (Breaks.checkResidue hv).bind

theorem breaks_spReadPage {f : Checksum} {g : SpPageRun} (hr : k.cfg.hasRecall = true → g.recalled.length = 3)
    (hl : g.rx.length = k.cfg.spMetaLen + k.cfg.pageLength + 2) (hv : crcValid f 0 (k.cfg.cmdReadSp :: g.rx) = false) :
    Breaks f (spPageEvents k g) (spReadPage k g.p) .checksumMismatch :=
  Plays.breaks (plays_recallPage hr) (breaks_readSp hl hv).bind

theorem breaks_spReadPages {f : Checksum} {good : List SpPageRun} {g : SpPageRun} {later : List Nat}
    (hgood : ∀ h ∈ good, SpPageGood f k h) (hg : Breaks f (spPageEvents k g) (spReadPage k g.p) e) :
    Breaks f ((good.map (spPageEvents k)).flatten ++ spPageEvents k g) (spReadPages k (good.map SpPageRun.p ++ g.p :: later)) e := by
  induction good with
  | nil => exact hg.bind
  | cons h good ih =>
    refine Breaks.cast ?_ (Plays.breaks (plays_spReadPage (hgood h (by simp))) (ih fun x hx => hgood x (by simp [hx])).bind)
    simp

/-- Settles O54. -/
theorem badScratchpadReadFails : Obligations.BadScratchpadReadFails := by
  intro s c b k good g evs hrun hsp hgood hrecall hlen hcrc hans hevs
  have hpage := breaks_spReadPage (f := s.crc) hrecall hlen hcrc
  subst hevs
  rw [List.append_assoc] at hans ⊢
  refine ⟨fun a l later hp hl hpages => ?_, fun p hp hnil hgp => ?_⟩
  · exact BusRun.breaks ⟨hrun, hp, rfl, rfl, hans⟩ (bodyOf_spRead hl hsp) rfl (hpages ▸ breaks_spReadPages hgood hpage).bind
  · subst hnil
    exact BusRun.breaks ⟨hrun, hp, rfl, rfl, hans⟩ (bodyOf_spPage hsp) rfl (hgp ▸ hpage).bind

end Sys2Proof.Machine

/-! Writes on given answers (41_plain_bank.md R174 to R176, 42_crc_bank.md R213, R214, 44_scratchpad_commit.md R281 to R285): which end
well, and at which byte or segment the others break off. -/

namespace Sys2Proof.Machine

variable {f : Checksum} {i : Instr} {s : State} {c : Nat} {b : Byte} {k : Bank} {evs : List Event} {e : Err}

/-! ### The bodies, as a transfer in its place -/

theorem bodyOf_write {a : Half} {d : List Byte} (hd : d ≠ []) : bodyOf (.write b a d) c k s =
    beginBus b.toNat >>= fun _ => writeTransfer k a.toNat d >>= fun _ => pure (okResponse 0 [] []) :=
  if_neg (mt List.length_eq_zero_iff.mp hd)

theorem writeTransfer_bytes {o : Nat} {d : List Byte} (h : k.cfg.strategy ≠ .scratchpad) : writeTransfer k o d = writeBytes k o d :=
  if_neg h

theorem writeTransfer_segments {o : Nat} {d : List Byte} (h : k.cfg.strategy = .scratchpad) :
    writeTransfer k o d = spSegments k (segments k.cfg o d) := if_pos h

theorem writeBytes_echo {o : Nat} {d : List Byte} (h : k.cfg.echoWrite = true) : writeBytes k o d = echoWriteSeq k o d := if_pos h

/-- The packet that the machine writes is the one the claims spell out, with its length byte (42_crc_bank.md R214). -/
theorem packetEncode_eq_sent (f : Checksum) (g : BankConfig) (p : Half) (draw : Nat) (d : List Byte) :
    packetEncode f g p.toNat draw d = packetBytes f g p (lengthByte draw d.length) d := by
  simp only [packetEncode, packetSeed_toNat, checkBytes]
  rfl

theorem lengthByte_of_lt {draw n : Nat} (h : n < 256) : lengthByte draw n = BitVec.ofNat 8 n := if_pos h

theorem bodyOf_writePacket {p : Half} {d : List Byte} : bodyOf (.writePagePacket b p d) c k s =
    beginBus b.toNat >>= fun _ => writeBytes k (pageOffset k.cfg p.toNat)
      (packetBytes s.crc k.cfg p (lengthByte s.draws d.length) d) >>= fun _ => pure (okResponse 0 [] []) := by
  rw [← packetEncode_eq_sent]
  rfl

/-! ### Writes that end well -/

/-- Settles O45. -/
theorem plainWriteCompletes : Obligations.PlainWriteCompletes := by
  intro s c b a x d k sent got evs hrun hp hsp hecho hd hx hsent hlen hevs hans
  subst hevs hsent hx
  refine BusRun.completes ⟨hrun, hp, rfl, rfl, hans⟩ (bodyOf_write hd) ?_
  rw [writeTransfer_bytes hsp]
  exact Plays.bind_last (plays_plainWrite hecho hlen) (Plays.pure _ _)

/-- Settles O46. -/
theorem echoWriteCompletes : Obligations.EchoWriteCompletes := by
  intro s c b a d0 got0 rest k evs hrun hp hsp hecho hfirst hrest hevs hans
  subst hevs
  refine BusRun.completes ⟨hrun, hp, rfl, rfl, hans⟩ (bodyOf_write (by simp)) ?_
  rw [writeTransfer_bytes hsp, writeBytes_echo hecho]
  exact Plays.bind_last (plays_echoWrite hfirst hrest) (Plays.pure _ _)

/-- Settles O47. -/
theorem scratchpadWriteCompletes : Obligations.ScratchpadWriteCompletes := by
  intro s c b a d k gs evs hrun hp hsp hd hsegs hgood hevs hans
  subst hevs
  refine BusRun.completes ⟨hrun, hp, rfl, rfl, hans⟩ (bodyOf_write hd) ?_
  rw [writeTransfer_segments hsp, ← hsegs]
  exact Plays.bind_last (plays_spSegments hgood) (Plays.pure _ _)

/-- Settles O48, with the machine's own length byte. -/
theorem packetWriteCompletes : Obligations.PacketWriteCompletes := by
  intro s c b p d k a hrun hp ha
  subst ha
  refine ⟨lengthByte s.draws d.length, lengthByte_of_lt, fun frame evs hframe hans => ⟨fun got hecho hlen hevs => ?_,
    fun d0 got0 rest hecho hout hfirst hvalid hevs => ?_⟩⟩ <;> subst hevs <;>
    refine BusRun.completes ⟨hrun, hp, rfl, rfl, hans⟩ bodyOf_writePacket ?_ <;> rw [← hframe]
  · exact Plays.bind_last (plays_plainWrite hecho hlen) (Plays.pure _ _)
  · rw [writeBytes_echo hecho, hout]
    exact Plays.bind_last (plays_echoWrite hfirst hvalid) (Plays.pure _ _)

/-! ### Echo writes that stop -/

theorem breaks_echoVerify_residue {seed : Half} {checked : List Byte} {d : Byte} (h : crcValid f seed checked = false) :
    Breaks f [] (echoVerify k seed checked d) .checksumMismatch := (Breaks.checkResidue h).bind

theorem breaks_echoVerify_echo {seed : Half} {checked : List Byte} {d echo : Byte} (h : crcValid f seed checked = true)
    (hne : echo ≠ d) : Breaks f ((if needsProgramPulse k.cfg then [.call .programPulse .ok] else []) ++ [getEvent echo])
      (echoVerify k seed checked d) .echoMismatch :=
  Plays.breaks (xs := []) (Plays.checkResidue h) (Plays.breaks (plays_programPulse k)
    (Breaks.cast (List.append_nil _).symm (Plays.breaks (plays_getByte echo) (Breaks.require (by simp [hne])))))

/-- An echo write breaks off with the checks of its first byte. -/
theorem breaks_echoFirst {o : Nat} {d0 : Byte} {got0 rest : List Byte}
    (hl : got0.length = (sentPrefix k k.cfg.cmdWrite (phys k.cfg o)).length + 3)
    (hv : Breaks f evs (echoVerify k 0 (addressBytes k.cfg.cmdWrite (phys k.cfg o) ++
      d0 :: slice got0 ((sentPrefix k k.cfg.cmdWrite (phys k.cfg o)).length + 1) 2) d0) e) :
    Breaks f (selectEvent k :: exchangeEvent (sentPrefix k k.cfg.cmdWrite (phys k.cfg o) ++ [d0, 0xFF, 0xFF]) got0 :: evs)
      (echoWriteSeq k o (d0 :: rest)) e := by
  simp only [echoWriteSeq, framePrefix_eq_sent]
  exact Plays.breaks (xs := [selectEvent k]) (plays_select k)
    (Plays.breaks (xs := [exchangeEvent _ got0]) (plays_exchange (by simp [hl])) hv.bind)

/-- The bytes after the first break off with the checks of the first bad one. -/
theorem breaks_echoRest {a : Half} {good : List (Byte × List Byte)} {d : Byte} {got later : List Byte}
    (hgood : EchoRestValid f k a good) (hl : got.length = 3)
    (hv : Breaks f evs (echoVerify k (echoSeed k.cfg (a + BitVec.ofNat 16 good.length)) (d :: slice got 1 2) d) e) :
    Breaks f (echoRestEvents k good ++ exchangeEvent [d, 0xFF, 0xFF] got :: evs) (echoRest k a (good.map Prod.fst ++ d :: later)) e := by
  induction good generalizing a with
  | nil =>
    rw [List.length_nil, BitVec.add_zero] at hv
    exact Plays.breaks (xs := [exchangeEvent _ got]) (plays_exchange hl) hv.bind
  | cons g good ih =>
    obtain ⟨d1, got1⟩ := g
    obtain ⟨hl1, hc1, hr⟩ := hgood
    have haddr : a + BitVec.ofNat 16 ((d1, got1) :: good).length = a + 1 + BitVec.ofNat 16 good.length := by
      rw [List.length_cons, Nat.add_comm, BitVec.ofNat_add, BitVec.add_assoc]
      rfl
    rw [haddr] at hv
    refine Breaks.cast ?_ (Plays.breaks (plays_exchange (got := got1) hl1) (Plays.breaks (plays_echoVerify hc1) (ih hr hv)))
    simp [echoRestEvents, echoByteEvents]

/-- An echo write breaks off with the checks of its first bad byte, after any number of good ones. -/
theorem breaks_echoLater {o : Nat} {d0 d : Byte} {got0 got later : List Byte} {good : List (Byte × List Byte)}
    (h0 : EchoFirstValid f k (phys k.cfg o) d0 got0) (hgood : EchoRestValid f k (phys k.cfg o + 1) good) (hl : got.length = 3)
    (hv : Breaks f evs (echoVerify k (echoSeed k.cfg (phys k.cfg o + 1 + BitVec.ofNat 16 good.length)) (d :: slice got 1 2) d) e) :
    Breaks f (echoWriteEvents k (phys k.cfg o) d0 got0 good ++ exchangeEvent [d, 0xFF, 0xFF] got :: evs)
      (echoWriteSeq k o (d0 :: good.map Prod.fst ++ d :: later)) e := by
  simp only [echoWriteSeq, framePrefix_eq_sent, List.cons_append]
  refine Breaks.cast ?_ (Plays.breaks (plays_select k) (Plays.breaks (plays_exchange (got := got0) ?_)
    (Plays.breaks (plays_echoVerify h0.2) (breaks_echoRest hgood hl hv))))
  · simp [echoWriteEvents, echoByteEvents]
  · simp [h0.1]

/-- A request whose body writes the bytes `out` with echo stops as `EchoWriteFails` says. -/
theorem echoWriteFails_of_body {o : Nat} {out : List Byte} (hrun : Running s c b k) (hp : Passes s c i) (ht : touchesBus i = true)
    (hi : i.bank? = some b) (hecho : k.cfg.echoWrite = true)
    (hbody : bodyOf i c k s = beginBus b.toNat >>= fun _ => writeBytes k o out >>= fun _ => pure (okResponse 0 [] [])) :
    EchoWriteFails s c b k i (deviceAddress k.cfg o) out := by
  rw [writeBytes_echo hecho] at hbody
  have stop {xs : List Event} {e : Err} (hans : Answering s (speedEvents k ++ xs)) (he : busPhase e = true)
      (hb : Breaks s.crc xs (echoWriteSeq k o out) e) : exec i s = .next (failed s c b.toNat k (speedEvents k ++ xs) false e) :=
    BusRun.breaks ⟨hrun, hp, ht, hi, hans⟩ hbody he hb.bind
  intro d0 got0 pre evs hpre hlen hans
  subst hpre
  refine ⟨fun rest hout => ⟨fun hbad hevs => ?_, fun echo hfirst hne hevs => ?_⟩,
    fun good d got later hout hfirst hgood hl => ⟨fun hbad hevs => ?_, fun echo hc hne hevs => ?_⟩⟩ <;> subst hevs hout
  · refine stop hans rfl (breaks_echoFirst hlen (breaks_echoVerify_residue ?_))
    exact Bool.eq_false_iff.mpr fun hc => hbad ⟨hlen, hc⟩
  · exact stop hans rfl (breaks_echoFirst hlen (breaks_echoVerify_echo hfirst.2 hne))
  · rw [List.append_assoc] at hans ⊢
    exact stop hans rfl (breaks_echoLater hfirst hgood hl (breaks_echoVerify_residue hbad))
  · rw [List.append_assoc] at hans ⊢
    exact stop hans rfl (breaks_echoLater hfirst hgood hl (breaks_echoVerify_echo hc hne))

/-- Settles O52: WRITE writes its data with echo, and WRITE_PAGE_PACKET its packet. -/
theorem echoWriteStops : Obligations.EchoWriteStops := by
  intro s c b k hrun hecho
  refine ⟨fun o d hsp hp => ?_, fun p d hp => ⟨lengthByte s.draws d.length, lengthByte_of_lt,
    echoWriteFails_of_body hrun hp rfl rfl hecho bodyOf_writePacket⟩⟩
  by_cases hd : d = []
  · subst hd
    exact fun d0 got0 pre evs _ _ _ => ⟨fun rest h => (nomatch h), fun good d got later h => (nomatch h)⟩
  · refine echoWriteFails_of_body hrun hp rfl rfl hecho ?_
    rw [bodyOf_write hd, writeTransfer_bytes hsp]

/-! ### SCRATCHPAD writes that stop -/

/-- The first two steps of a segment (44_scratchpad_commit.md R281, R282). -/
def writtenEvents (k : Bank) (g : SegmentRun) : List Event :=
  [selectEvent k, exchangeEvent (addressBytes k.cfg.cmdWriteSp (deviceAddress k.cfg g.q) ++ g.ds) g.written] ++ readSpEvents k g.e g.rx

section Segment

variable {g : SegmentRun} (hw : g.written.length = 3 + g.ds.length) (hl : g.rx.length = k.cfg.spMetaLen + k.cfg.pageLength + 2)

include hw hl

theorem breaks_segment_residue (hv : crcValid f 0 (k.cfg.cmdReadSp :: g.rx) = false) :
    Breaks f (writtenEvents k g) (spSegment k g.q g.ds) .checksumMismatch :=
  Plays.breaks (plays_writeSp hw) (breaks_readSp hl hv).bind

theorem breaks_segment_compare (hv : crcValid f 0 (k.cfg.cmdReadSp :: g.rx) = true) (hwv : k.writeVerify = true)
    (hm : scratchpadMatches k.cfg g.q g.ds (scratchpadData k g.rx) = false) :
    Breaks f (writtenEvents k g) (spSegment k g.q g.ds) .scratchpadVerifyFailed :=
  Plays.breaks (plays_writeSp hw) (Breaks.cast (List.append_nil _).symm (Plays.breaks (plays_readSp ⟨hl, hv⟩)
    (Breaks.bind (Breaks.require (by simp [hwv, hm])))))

theorem breaks_segment_confirm (hv : crcValid f 0 (k.cfg.cmdReadSp :: g.rx) = true)
    (hm : k.writeVerify = true → scratchpadMatches k.cfg g.q g.ds (scratchpadData k g.rx) = true) (hc : g.copied.length = 3)
    (hff : g.confirm = 0xFF) : Breaks f (segmentEvents k g) (spSegment k g.q g.ds) .copyNotConfirmed := by
  have hm' : (!k.writeVerify || scratchpadMatches k.cfg g.q g.ds (scratchpadData k g.rx)) = true := by
    cases hwv : k.writeVerify with
    | true => rw [hm hwv]; rfl
    | false => rfl
  have hcopy (st : Byte) : Breaks f (copyEvents k g.q g.copied st g.confirm) (copySp k g.q st) .copyNotConfirmed := by
    refine Breaks.cast ?_ (Plays.breaks (plays_select k) (Plays.breaks (plays_exchange (got := g.copied) hc)
      (Plays.breaks (plays_poweredTail st _) (Plays.breaks (plays_getByte g.confirm) (Breaks.require (by simp [hff]))))))
    simp [copyEvents]
  refine Breaks.cast ?_ (Plays.breaks (plays_writeSp (got := g.written) hw) (Plays.breaks (plays_readSp (e := g.e) ⟨hl, hv⟩)
    (Plays.breaks (xs := []) (Plays.require hm') (hcopy _))))
  simp [segmentEvents, copyEvents, statusByte, seedBytes_eq_sent, phys_eq_sent]

end Segment

theorem breaks_spSegments {good : List SegmentRun} {q : Nat} {ds : List Byte} {later : List (Nat × List Byte)}
    (hgood : ∀ h ∈ good, SegmentGood f k h) (hg : Breaks f evs (spSegment k q ds) e) :
    Breaks f ((good.map (segmentEvents k)).flatten ++ evs)
      (spSegments k (good.map (fun g => (g.q, g.ds)) ++ (q, ds) :: later)) e := by
  induction good with
  | nil => exact hg.bind
  | cons h good ih =>
    refine Breaks.cast ?_ (Plays.breaks (plays_spSegment (hgood h (by simp))) (ih fun x hx => hgood x (by simp [hx])))
    simp

/-- Settles O53. -/
theorem scratchpadWriteStops : Obligations.ScratchpadWriteStops := by
  intro s c b a d k good g later evs hrun hp hsp hd hsegs hgood hw hl hc hans
  have stop {xs : List Event} {e : Err} (he : busPhase e = true) (hg : Breaks s.crc xs (spSegment k g.q g.ds) e)
      (hevs : evs = speedEvents k ++ ((good.map (segmentEvents k)).flatten ++ xs)) :
      exec (.write b a d) s = .next (failed s c b.toNat k evs false e) := by
    subst hevs
    refine BusRun.breaks ⟨hrun, hp, rfl, rfl, hans⟩ (bodyOf_write hd) he (Breaks.bind ?_)
    rw [writeTransfer_segments hsp, ← hsegs]
    exact breaks_spSegments hgood hg
  refine ⟨fun e herr hevs => ?_, fun hv hm hff hevs => ?_⟩
  · have hevs' : evs = speedEvents k ++ ((good.map (segmentEvents k)).flatten ++ writtenEvents k g) := by
      rw [hevs, writtenEvents]
      simp only [List.append_assoc]
    rcases herr with ⟨hv, rfl⟩ | ⟨hv, hwv, hm, rfl⟩
    · exact stop rfl (breaks_segment_residue hw hl hv) hevs'
    · exact stop rfl (breaks_segment_compare hw hl hv hwv hm) hevs'
  · exact stop rfl (breaks_segment_confirm hw hl hv hm hc hff) (by rw [hevs, List.append_assoc])

end Sys2Proof.Machine

/-! The reference checksum (00_scope.md R9, R10, 42_crc_bank.md R216): one byte's step is linear and injective, so every byte and the
seed matter, and the complemented checksum brings the sum to a constant. Then packets, and the segments of a SCRATCHPAD write. -/

namespace Sys2Proof.Machine

/-! ### One byte of the reference checksum -/

theorem getLsbD_crcShift (c : Half) (j : Nat) :
    (crcShift c).getLsbD j = (c.getLsbD (j + 1) ^^ (c.getLsbD 0 && (0xA001#16).getLsbD j)) := by
  unfold crcShift
  cases h : c.getLsbD 0 <;> simp [Nat.add_comm]

theorem crcShift_xor (c d : Half) : crcShift (c ^^^ d) = crcShift c ^^^ crcShift d := by
  apply BitVec.eq_of_getLsbD_eq
  intro j _
  simp only [getLsbD_crcShift, BitVec.getLsbD_xor]
  cases c.getLsbD (j + 1) <;> cases d.getLsbD (j + 1) <;> cases c.getLsbD 0 <;> cases d.getLsbD 0 <;> simp

/-- The top bit of a shifted value is the bit that was shifted out, since 0xA001 has its top bit set. -/
theorem crcShift_eq_zero {c : Half} (h : crcShift c = 0) : c = 0 := by
  have bit (j : Nat) : (c.getLsbD (j + 1) ^^ (c.getLsbD 0 && (0xA001#16).getLsbD j)) = false := by
    rw [← getLsbD_crcShift, h]
    exact BitVec.getLsbD_zero
  have h0 : c.getLsbD 0 = false := by
    have := bit 15
    rwa [BitVec.getLsbD_of_ge c 16 (by omega), Bool.false_xor, show (0xA001#16).getLsbD 15 = true from rfl, Bool.and_true] at this
  apply BitVec.eq_of_getLsbD_eq
  intro j _
  cases j with
  | zero => simpa using h0
  | succ j =>
    have := bit j
    rw [h0, Bool.false_and, Bool.xor_false] at this
    exact this.trans BitVec.getLsbD_zero.symm

theorem crcByte_xor (c d : Half) : crcByte (c ^^^ d) = crcByte c ^^^ crcByte d := by
  simp only [crcByte, crcShift_xor]

theorem crcByte_eq_zero {c : Half} (h : crcByte c = 0) : c = 0 := by
  simp only [crcByte] at h
  iterate 8 replace h := crcShift_eq_zero h
  exact h

theorem crcByte_injective : Function.Injective crcByte := by
  intro c d h
  refine BitVec.xor_eq_zero_iff.mp (crcByte_eq_zero ?_)
  rw [crcByte_xor, h]
  exact BitVec.xor_self

/-- A value without low bits is only shifted. -/
theorem crcShift_shiftLeft (b : Byte) {n : Nat} (hn : n < 8) :
    crcShift (b.setWidth 16 <<< (n + 1)) = (b.setWidth 16 : Half) <<< n := by
  apply BitVec.eq_of_getLsbD_eq
  intro j hj
  rw [getLsbD_crcShift]
  simp only [BitVec.getLsbD_shiftLeft, Nat.add_sub_add_right, Nat.add_lt_add_iff_right]
  by_cases h15 : j + 1 < 16
  · simp [hj, h15]
  · simp [h15, hj, BitVec.getLsbD_of_ge b (j - n) (by omega)]

theorem crcByte_high (b : Byte) : crcByte (b.setWidth 16 <<< 8) = b.setWidth 16 := by
  simp only [crcByte]
  rw [crcShift_shiftLeft b (n := 7) (by omega), crcShift_shiftLeft b (n := 6) (by omega), crcShift_shiftLeft b (n := 5) (by omega),
    crcShift_shiftLeft b (n := 4) (by omega), crcShift_shiftLeft b (n := 3) (by omega), crcShift_shiftLeft b (n := 2) (by omega),
    crcShift_shiftLeft b (n := 1) (by omega), crcShift_shiftLeft b (n := 0) (by omega), BitVec.shiftLeft_zero]

/-! ### The reference checksum -/

theorem crc16Reference_append (seed : Half) (xs ys : List Byte) :
    crc16Reference seed (xs ++ ys) = crc16Reference (crc16Reference seed xs) ys := by
  induction xs generalizing seed with
  | nil => rfl
  | cons x xs ih => exact ih _

/-- The checksum is injective in its seed. -/
theorem crc16Reference_injective (bs : List Byte) : Function.Injective fun seed => crc16Reference seed bs := by
  induction bs with
  | nil => exact Function.injective_id
  | cons x bs ih =>
    intro s t h
    exact (BitVec.xor_left_inj _).mp (crcByte_injective (ih h))

/-- Two sequences that differ in one byte have different checksums. -/
theorem crc16Reference_ne_of_byte (seed : Half) (pre post : List Byte) {x y : Byte} (h : x ≠ y) :
    crc16Reference seed (pre ++ x :: post) ≠ crc16Reference seed (pre ++ y :: post) := by
  rw [crc16Reference_append, crc16Reference_append]
  intro heq
  have hwide : (x.setWidth 16 : Half) = y.setWidth 16 :=
    (BitVec.xor_right_inj _).mp (crcByte_injective (crc16Reference_injective post heq))
  have hbyte := congrArg (BitVec.setWidth 8) hwide
  rw [BitVec.setWidth_setWidth_of_le _ (by omega), BitVec.setWidth_setWidth_of_le _ (by omega), BitVec.setWidth_eq,
    BitVec.setWidth_eq] at hbyte
  exact h hbyte

/-! ### The residue -/

theorem lo_not (c : Half) : lo (~~~ c) = ~~~ lo c := BitVec.extractLsb'_not_of_lt (by omega)

theorem hi_not (c : Half) : hi (~~~ c) = ~~~ hi c := by
  apply BitVec.eq_of_getLsbD_eq
  intro j hj
  simp [hi, hj, show 8 + j < 16 by omega]

theorem xor_not_byte (b : Byte) : (b.setWidth 16 : Half) ^^^ (~~~ b).setWidth 16 = (0xFF#8).setWidth 16 := by
  rw [← BitVec.setWidth_xor, ← BitVec.not_xor_right, BitVec.xor_self]
  rfl

theorem hi_xor_lo (c : Half) : (hi c).setWidth 16 <<< 8 ^^^ (lo c).setWidth 16 = c := by
  apply BitVec.eq_of_getLsbD_eq
  intro j hj
  by_cases h8 : j < 8
  · simp [lo, hj, h8]
  · simp [lo, hi, hj, h8, show j - 8 < 8 by omega, show 8 + (j - 8) = j by omega]

/-- Folding a checksum with its own complement: the low byte leaves the high byte over 0xFF, and that leaves 0xFF over a constant. -/
theorem crcByte_complement (c : Half) :
    crcByte (crcByte (c ^^^ (lo (~~~ c)).setWidth 16) ^^^ (hi (~~~ c)).setWidth 16) = 0xB001#16 := by
  have hlow : c ^^^ (lo (~~~ c)).setWidth 16 = (hi c).setWidth 16 <<< 8 ^^^ (0xFF#8).setWidth 16 := by
    conv => lhs; lhs; rw [← hi_xor_lo c]
    rw [lo_not, BitVec.xor_assoc, xor_not_byte]
  have hhigh : crcByte (c ^^^ (lo (~~~ c)).setWidth 16) ^^^ (hi (~~~ c)).setWidth 16 =
      (0xFF#8).setWidth 16 ^^^ crcByte ((0xFF#8).setWidth 16) := by
    rw [hlow, crcByte_xor, crcByte_high, hi_not, BitVec.xor_assoc, BitVec.xor_comm (crcByte _), ← BitVec.xor_assoc, xor_not_byte]
  rw [hhigh]
  simp [crcByte, crcShift]

/-- Settles O55: after the sequence, the two check bytes fold the checksum with its complement. -/
theorem residueLaw : Obligations.ResidueLaw := by
  intro seed bs
  exact (crc16Reference_append seed bs _).trans (crcByte_complement _)

/-! ### The named properties, of the reference checksum -/

theorem residueLawOf_reference : ResidueLawOf .reference := residueLaw

theorem seedBindingLawOf_reference : SeedBindingLawOf .reference :=
  fun _ _ bs hst hs ht => hst (crc16Reference_injective bs (hs.trans ht.symm))

theorem xor_bit_ne (b : Byte) {n : Nat} (hn : n < 8) : b ≠ b ^^^ (1#8 <<< n) := by
  intro h
  have hbit := congrArg (fun x => x.getLsbD n) h
  simp [hn] at hbit

theorem bitFlipLawOf_reference : BitFlipLawOf .reference := by
  intro seed bs j n hj hn hv hflip
  have hsplit := List.take_append_drop j bs
  rw [List.drop_eq_getElem_cons hj] at hsplit
  have hflipped : flipBit bs j n = bs.take j ++ (bs[j] ^^^ (1#8 <<< n)) :: bs.drop (j + 1) := by
    rw [flipBit, List.modify_eq_take_cons_drop hj]
  refine crc16Reference_ne_of_byte seed (bs.take j) (bs.drop (j + 1)) (xor_bit_ne bs[j] hn) ?_
  rw [hsplit, ← hflipped]
  exact hv.trans hflip.symm

/-- Settles O56. -/
theorem byteChangeDetected : Obligations.ByteChangeDetected := by
  intro seed pre post x y hxy hv
  rw [crcValid_iff] at hv
  rw [crcValid_eq_false_iff]
  exact fun hv' => crc16Reference_ne_of_byte seed pre post hxy (hv.trans hv'.symm)

/-- Settles O60. -/
theorem flippedPageFails : Obligations.FlippedPageFails := by
  intro s c cont b p k echoed ph j n evs i hcrc hrun hp hi hvalid hj hn hecho hevs hans
  subst hevs
  obtain ⟨hlen, hv⟩ := hvalid
  have hlaw : BitFlipLawOf s.crc := hcrc.elim (fun h => h ▸ bitFlipLawOf_reference) id
  have hbad : crcValid s.crc (readSeed s.crc k.cfg p.toNat cont)
      ((flipBit ph j n).take (k.cfg.pageLength + k.cfg.extraLen + 2)) = false := by
    rw [take_flipBit]
    refine crcValid_flipBit hlaw ?_ hn hv
    rw [List.length_take]
    omega
  exact readsPage_breaks hi hrun hp hans rfl (breaks_crcPage hecho ((length_flipBit ..).trans hlen) hbad)

/-! ### Packets -/

section Packets

variable {f : Checksum} {k : BankConfig} {p draw : Nat} {payload padding : List Byte}

theorem headD_packetEncode (h : payload.length < 256) :
    ((packetEncode f k p draw payload ++ padding).headD 0).toNat = payload.length := by
  have hbyte : (lengthByte draw payload.length).toNat = payload.length := by
    rw [lengthByte, if_pos h, BitVec.toNat_ofNat, Nat.mod_eq_of_lt h]
  exact hbyte

theorem length_packetEncode : (packetEncode f k p draw payload).length = payload.length + 3 := by
  rw [packetEncode, List.length_append, List.length_cons]
  rfl

/-- A packet's checked bytes are all of its bytes. -/
theorem slice_packetEncode : slice (packetEncode f k p draw payload ++ padding) 0 (payload.length + 3) =
    packetEncode f k p draw payload := List.take_left' length_packetEncode

theorem slice_packetEncode_payload : slice (packetEncode f k p draw payload ++ padding) 1 payload.length = payload := by
  rw [slice, packetEncode, List.append_assoc]
  exact List.take_left' rfl

theorem crcValid_packetEncode (h : ResidueLawOf f) : crcValid f (packetSeed k p) (packetEncode f k p draw payload) = true :=
  crcValid_checkBytes h _ _

end Packets

/-- Settles O57. -/
theorem packetRoundTrip : Obligations.PacketRoundTrip := by
  intro f k p draw payload padding hf hmax hlen
  have hlaw : ResidueLawOf f := hf.elim (fun h => h ▸ residueLawOf_reference) id
  have hvalid : crcValid f (packetSeed k p) (slice (packetEncode f k p draw payload ++ padding) 0 (payload.length + 3)) = true := by
    rw [slice_packetEncode]
    exact crcValid_packetEncode hlaw
  rw [packetDecode_good (headD_packetEncode hlen) hmax hvalid, slice_packetEncode_payload]

theorem packetSeed_ne (k : BankConfig) {p q : Nat} (hp : p < 65536) (hq : q < 65536) (hpq : p ≠ q) :
    packetSeed k p ≠ packetSeed k q := by
  intro h
  have hnum := congrArg BitVec.toNat ((BitVec.add_left_inj _).mp h)
  rw [BitVec.toNat_ofNat, BitVec.toNat_ofNat, Nat.mod_eq_of_lt hp, Nat.mod_eq_of_lt hq] at hnum
  exact hpq hnum

/-- Settles O58. -/
theorem packetBinding : Obligations.PacketBinding := by
  intro f k p q draw payload padding hf hp hq hpq hmax hlen
  have hlaws : ResidueLawOf f ∧ SeedBindingLawOf f :=
    hf.elim (fun h => h ▸ ⟨residueLawOf_reference, seedBindingLawOf_reference⟩) id
  refine packetDecode_bad (headD_packetEncode hlen) hmax ?_
  rw [slice_packetEncode]
  exact crcValid_otherSeed hlaws.2 (packetSeed_ne k hp hq hpq) (crcValid_packetEncode hlaws.1)

/-! ### Segments -/

/-- What a list of segments of `d` from offset `q` on says of itself: each segment lies in one page and starts where the one before it
ends, and only the first may start inside a page. -/
inductive Partitions (pl : Nat) : Nat → List Byte → List (Nat × List Byte) → Prop
  | nil (q : Nat) : Partitions pl q [] []
  | cons {q : Nat} {seg d : List Byte} {rest : List (Nat × List Byte)} (hne : seg ≠ []) (hpage : q / pl = (q + seg.length - 1) / pl)
    (hnext : d ≠ [] → (q + seg.length) % pl = 0) (hrest : Partitions pl (q + seg.length) d rest) :
    Partitions pl q (seg ++ d) ((q, seg) :: rest)

/-- `n` bytes from `q` that do not reach past the page of `q` lie in it. -/
theorem div_eq_of_fits {pl q n : Nat} (hpl : 1 ≤ pl) (hn : 1 ≤ n) (hfits : n ≤ pl - q % pl) : q / pl = (q + n - 1) / pl := by
  have hq := Nat.div_add_mod q pl
  rw [eq_comm, Nat.div_eq_iff (by omega)]
  constructor
  · rw [Nat.mul_comm]; omega
  · rw [Nat.mul_comm]; omega

theorem partitions_segmentsFrom {pl : Nat} (hpl : 1 ≤ pl) (fuel q : Nat) {d : List Byte} (h : d.length ≤ fuel) :
    Partitions pl q d (segmentsFrom pl fuel q d) := by
  induction fuel generalizing q d with
  | zero =>
    obtain rfl := List.length_eq_zero_iff.mp (Nat.le_zero.mp h)
    exact .nil q
  | succ fuel ih =>
    cases d with
    | nil => exact .nil q
    | cons x xs =>
      have hmod : q % pl < pl := Nat.mod_lt q hpl
      generalize hn : min (x :: xs).length (pl - q % pl) = n
      have hpos : 1 ≤ n := by rw [← hn, List.length_cons]; omega
      have hlen : ((x :: xs).take n).length = n := by rw [List.length_take]; omega
      have hrest := ih (q + n) (d := (x :: xs).drop n) (by rw [List.length_drop]; omega)
      have hnext : (x :: xs).drop n ≠ [] → (q + n) % pl = 0 := by
        intro hd
        have hlt : n < (x :: xs).length := by
          by_contra hge
          exact hd (List.drop_eq_nil_of_le (Nat.le_of_not_lt hge))
        have hend : q + n = pl * (q / pl + 1) := by
          have := Nat.div_add_mod q pl
          rw [Nat.mul_add]; omega
        rw [hend, Nat.mul_mod_right]
      have hcons : Partitions pl q ((x :: xs).take n ++ (x :: xs).drop n)
          ((q, (x :: xs).take n) :: segmentsFrom pl fuel (q + n) ((x :: xs).drop n)) := by
        refine .cons ?_ ?_ ?_ ?_
        · exact fun hnil => by rw [hnil, List.length_nil] at hlen; omega
        · rw [hlen]; exact div_eq_of_fits hpl hpos (by omega)
        · rwa [hlen]
        · rwa [hlen]
      rw [List.take_append_drop] at hcons
      rw [segmentsFrom, hn]
      exact hcons

section Partitions

variable {pl q : Nat} {d : List Byte} {gs : List (Nat × List Byte)} (h : Partitions pl q d gs)

include h

theorem Partitions.flatten : (gs.map Prod.snd).flatten = d := by
  induction h with
  | nil => rfl
  | cons _ _ _ _ ih => rw [List.map_cons, List.flatten_cons, ih]

theorem Partitions.fits : ∀ g ∈ gs, g.2 ≠ [] ∧ g.1 / pl = (g.1 + g.2.length - 1) / pl := by
  induction h with
  | nil => exact fun _ hg => absurd hg List.not_mem_nil
  | cons hne hpage _ _ ih => exact List.forall_mem_cons.mpr ⟨⟨hne, hpage⟩, ih⟩

theorem Partitions.start {pre post : List (Nat × List Byte)} {g : Nat × List Byte} (hg : gs = pre ++ g :: post) :
    g.1 = q + ((pre.map Prod.snd).flatten).length := by
  induction h generalizing pre with
  | nil => exact absurd hg.symm (by simp)
  | cons _ _ _ _ ih =>
    cases pre with
    | nil => obtain ⟨rfl, -⟩ := List.cons.inj hg; rfl
    | cons x pre =>
      obtain ⟨rfl, htail⟩ := List.cons.inj hg
      rw [ih htail, List.map_cons, List.flatten_cons, List.length_append, Nat.add_assoc]

/-- There is a next segment only if data is left, and then it starts at a page. -/
theorem Partitions.aligned {pre post : List (Nat × List Byte)} {g g' : Nat × List Byte} (hg : gs = pre ++ g :: g' :: post) :
    g'.1 % pl = 0 := by
  induction h generalizing pre with
  | nil => exact absurd hg.symm (by simp)
  | cons _ _ hnext hrest ih =>
    cases pre with
    | cons x pre => exact ih (List.cons.inj hg).2
    | nil =>
      obtain ⟨rfl, rfl⟩ := List.cons.inj hg
      cases hrest with
      | cons hne _ _ _ => exact hnext (by simp [hne])

end Partitions

/-- Settles O59. -/
theorem segmentsPartition : Obligations.SegmentsPartition := by
  intro k o d hpl
  have h : Partitions k.pageLength o d (segments k o d) := partitions_segmentsFrom hpl d.length o (Nat.le_refl _)
  exact ⟨h.flatten, h.fits, fun _ _ _ => h.start, fun _ _ _ _ => h.aligned⟩

end Sys2Proof.Machine
